-- ==== Sys2Proof/Word.lean ====
section
/-! DEFINITION. The word types of the codec block. -/

namespace Sys2Proof

/-- One cell of a buffer, and one element of a file (R37). -/
abbrev Byte := BitVec 8

/-- A symbol is a byte value, 0 to 255 (R10 SYMBOL_BITS, R18). -/
abbrev Symbol := BitVec 8

/-- The 16-bit command word CMD16 (R90). -/
abbrev CmdWord := BitVec 16

/-- A length register: LEN_REG_BITS bits at its default 64 (R11; log 6). -/
abbrev LenReg := BitVec 64

/-- One entry of the weight table: WEIGHT_BITS bits at its default 32 (R11, R35; log 6). -/
abbrev Weight := BitVec 32

end Sys2Proof
end

