-- ==== Sys2Proof/Config.lean ====
section
/-! DEFINITION. The parameters of the block (R10, R11) and its free values (R43). -/

namespace Sys2Proof

/-- The parameters of R11 that change what a command does; `none` is an unbounded capacity.
A State carries one (log 2), no step changes it, and `Params.default` is the column "default" of R11. -/
structure Params where
  /-- IN_CAP -/
  inCap : Option Nat
  /-- MASK_CAP -/
  maskCap : Option Nat
  /-- OUT_CAP -/
  outCap : Option Nat
  /-- PAD_BIT, the padding bit SENC writes (R157). -/
  padBit : Bool
  deriving DecidableEq, Repr

/-- The defaults of R11. -/
def Params.default : Params := { inCap := none, maskCap := none, outCap := none, padBit := false }

namespace Config

/-- REP_MIN and REP_MAX, the bounds of the repetition factor (R10). -/
def repMin : Nat := 3
def repMax : Nat := 9

/-- SRC_HEADER_FIXED: bytes of the SourceCodecFile header before its entries (R10, R100). -/
def srcHeaderFixed : Nat := 7

/-- REP_HEADER_LEN: bytes of the RepetitionCodecFile header (R10, R112). -/
def repHeaderLen : Nat := 5

/-- The greatest length a u32 length field can describe (R10 SRC_LEN_BITS; R152, R192). -/
def maxSourceLen : Nat := 2 ^ 32 - 1

/-- What a cell of IN holds that nothing has written since reset number `epoch` (R43, U3: "any value").
A free value: no body, nothing can be proved of it (log 3). -/
opaque freeIn (epoch index : Nat) : Byte

/-- The same for MASK. -/
opaque freeMask (epoch index : Nat) : Byte

/-- What a cell of OUT at or beyond OUT_LEN holds after event number `epoch`, a reset or the end of a
command (R43, U4: "any value"). -/
opaque freeOut (epoch index : Nat) : Byte

end Config

end Sys2Proof
end

