-- ==== Sys2Proof/Syntax.lean ====
section
/-! DEFINITION. The six commands: one constructor per row of spec/opcode_table.json (R92). -/

namespace Sys2Proof

/-- A command of the block, as the command word names it (R90, R92). -/
inductive Instr where
  /-- BUILD, OP 0x01 (R130) -/
  | build
  /-- SENC, OP 0x02 (R150) -/
  | senc
  /-- SDEC, OP 0x03 (R170) -/
  | sdec
  /-- RENC n, OP 0x04; the immediate `n` is `CMD[15:8]` (R190, R91) -/
  | renc (n : Nat)
  /-- RDEC, OP 0x05 (R200) -/
  | rdec
  /-- NOISE, OP 0x06 (R215) -/
  | noise
  deriving DecidableEq, Repr

end Sys2Proof
end

