-- ==== Sys2Proof/WellFormed.lean ====
section
/-! DEFINITION. Which terms of Instr a command word can carry. -/

namespace Sys2Proof

/-- The immediate of RENC is "an unsigned number 0 to 255" (R91); every such value is an instruction,
and which of them RENC accepts "is decided by RENC itself". The other commands have no operand. -/
def Instr.wf : Instr → Bool
  | .build => true
  | .senc => true
  | .sdec => true
  | .renc n => decide (n < 256)
  | .rdec => true
  | .noise => true

end Sys2Proof
end

