-- ==== Sys2Proof/Decode.lean ====
section
/-! DEFINITION. The decoder and the encoder of the command word (R90 to R94). -/

namespace Sys2Proof

/-- Why a word is no command (R94): the two forms of an illegal command word. -/
inductive DecodeError where
  /-- OP is 0x00 or 0x07 to 0xFF. -/
  | illegalOpcode (op : Nat)
  /-- OP is a command other than RENC and N is not 0. -/
  | immediateNotZero (op n : Nat)
  deriving DecidableEq, Repr

/-- OP, bits 7:0 of the command word (R90). -/
def opField (c : CmdWord) : Nat := c.toNat % 256

/-- N, bits 15:8 of the command word, unsigned (R90, R91). -/
def immField (c : CmdWord) : Nat := c.toNat / 256

/-- A command that takes no immediate: "N must be 0 in every other command" (R90). -/
def decodeBare (i : Instr) (op n : Nat) : Except DecodeError Instr :=
  if n = 0 then .ok i else .error (.immediateNotZero op n)

/-- The opcode map (R92, R93), total on every 16-bit word. -/
def decodeFields (op n : Nat) : Except DecodeError Instr :=
  match op with
  | 0x01 => decodeBare .build op n
  | 0x02 => decodeBare .senc op n
  | 0x03 => decodeBare .sdec op n
  | 0x04 => .ok (.renc n)
  | 0x05 => decodeBare .rdec op n
  | 0x06 => decodeBare .noise op n
  | _ => .error (.illegalOpcode op)

/-- The command a command word stands for. -/
def decode (c : CmdWord) : Except DecodeError Instr := decodeFields (opField c) (immField c)

/-- OP and N of a command (R92). -/
def encodeFields : Instr → Nat × Nat
  | .build => (0x01, 0)
  | .senc => (0x02, 0)
  | .sdec => (0x03, 0)
  | .renc n => (0x04, n)
  | .rdec => (0x05, 0)
  | .noise => (0x06, 0)

/-- The command word of a well-formed command (R90: N in bits 15:8, OP in bits 7:0). -/
def encode (i : Instr) : CmdWord := BitVec.ofNat 16 ((encodeFields i).1 + 256 * (encodeFields i).2)

/-- The command word that the table's bits `w` give: a row has 16 bits, and a bit above `nbits` is 0. -/
def tableWord (nbits w : Nat) : CmdWord := BitVec.ofNat 16 (w % 2 ^ nbits)

/-- The command the decoder reads from a row of spec/opcode_table.json. -/
def decodeTableWord (nbits w : Nat) : Option Instr := (decode (tableWord nbits w)).toOption

end Sys2Proof
end

