-- ==== Sys2Proof/Machine/State.lean ====
section
/-! DEFINITION. The state of the block and of the host that drives it, and the state after reset. -/

namespace Sys2Proof.Machine

/-- A byte buffer: the written cells as (index, byte) pairs, indices strictly rising. A cell that is
not listed holds no defined value (R43). -/
abbrev Memory := List Host.Cell

/-- STATUS.STATE (R26). -/
inductive Phase where
  /-- 0: no command since reset -/
  | idle
  /-- 1: a command is running -/
  | busy
  /-- 2: the last command ended without error -/
  | done
  /-- 3: the last command ended with an error -/
  | error
  deriving DecidableEq, Repr

/-- STATUS, register 1 (R26). Bits 7:3 are reserved and read 0, so they are not stored. -/
structure Status where
  /-- bits 1:0 -/
  state : Phase
  /-- bit 2 -/
  faultLatch : Bool
  deriving DecidableEq, Repr

/-- The five index spaces of R60; `input` is the space IN. -/
inductive Space where
  | reg
  | wt
  | input
  | mask
  | out
  deriving DecidableEq, Repr

/-- What the host can do to the block, one step each. -/
inductive HostAction where
  /-- HostRead(space, i) (R61) -/
  | read (sp : Space) (i : Nat)
  /-- HostWrite(space, i, v) (R61) -/
  | write (sp : Space) (i v : Nat)
  /-- read STATUS until STATE is DONE or ERROR (R77, R96, R271) -/
  | wait
  /-- `SETW s, w` (R97) -/
  | setw (s w : Nat)
  /-- `CLRW` (R97) -/
  | clrw
  /-- `LDIN b0 b1 ..` (R97) -/
  | ldin (bytes : List Byte)
  /-- `LDMASK b0 b1 ..` (R97) -/
  | ldmask (bytes : List Byte)
  /-- `MOVOI` (R97) -/
  | movoi
  /-- `RESET` (R97): the soft reset through CTRL -/
  | softReset
  /-- the reset input of the block (R260) -/
  | hardReset
  deriving DecidableEq, Repr

/-- The whole state: the ten registers but CTRL, which stores nothing (R24, R34), the weight table (R35),
the three buffers (R37), the parameters (R11), and the model's own fields (INVENTORY.md, State). -/
structure State where
  /-- parameters, constant (R11; log 2) -/
  params : Params
  /-- register 0 (R25) -/
  cmd : CmdWord
  /-- register 1 (R26) -/
  status : Status
  /-- register 2 (R28) -/
  err : BitVec 16
  /-- register 3 (R29) -/
  errInfo : LenReg
  /-- register 4 (R30) -/
  inLen : LenReg
  /-- register 5 (R31) -/
  maskLen : LenReg
  /-- register 6 (R32) -/
  outLen : LenReg
  /-- register 7 (R33) -/
  srcLen : LenReg
  /-- register 8 (R33) -/
  payloadLen : LenReg
  /-- the weight table (R35) -/
  wt : Vector Weight 256
  /-- the buffer IN (R37) -/
  inBuf : Memory
  /-- the buffer MASK (R37) -/
  maskBuf : Memory
  /-- the buffer OUT (R37) -/
  outBuf : Memory
  /-- number of the last reset: which free contents the unwritten cells of IN and MASK hold (log 3) -/
  epoch : Nat
  /-- number of the last event that left OUT's other cells unspecified (log 3) -/
  outEpoch : Nat
  /-- the host's actions still to come, oldest first (log 1) -/
  host : List HostAction
  /-- the values HostRead has returned, newest first (log 4) -/
  reads : List Nat
  deriving DecidableEq, Repr

/-- Nothing of this block stops it with a fault: every error of a command is a next state (R230, R240),
and every read outside a space returns 0 (R61). So this type has no constructor. -/
inductive Fault where
  deriving DecidableEq, Repr

/-- Why a step is refused. -/
inductive Refusal where
  /-- An instruction without a meaning: raised by no arm of exec (safe). -/
  | notModelled (mnemonic : String)
  /-- A host access while a command runs whose effect R272 leaves undefined (U1: "refuse"); raised by
  `State.hostAct` (safe: the model stops where the block's behaviour is undefined). -/
  | hostAccessWhileBusy
  deriving DecidableEq, Repr

/-- The state after reset (R42), with the default parameters (R11) and no host action to come. -/
def State.reset : State :=
  { params := Params.default
    cmd := 0
    status := { state := .idle, faultLatch := false }
    err := 0
    errInfo := 0
    inLen := 0
    maskLen := 0
    outLen := 0
    srcLen := 0
    payloadLen := 0
    wt := Vector.replicate 256 0
    inBuf := []
    maskBuf := []
    outBuf := []
    epoch := 0
    outEpoch := 0
    host := []
    reads := [] }

end Sys2Proof.Machine
end

