-- ==== Sys2Proof/Machine/Bits.lean ====
section
/-! DEFINITION. The primitives on bytes and bits of R15, by the names R15 gives them. A bit is a Bool. -/

namespace Sys2Proof.Machine

/-- `ceil8(L)`, the number of whole bytes that hold `L` bits (R12). -/
def ceil8 (L : Nat) : Nat := (L + 7) / 8

/-- `u8(v)` (R15). -/
def u8 (v : Nat) : List Byte := [BitVec.ofNat 8 v]

/-- `le_bytes(v, k)`: the byte of least weight first (R15). -/
def leBytes (v : Nat) : Nat → List Byte
  | 0 => []
  | k + 1 => BitVec.ofNat 8 v :: leBytes (v / 256) k

/-- `u16le(v)` (R15, R62). -/
def u16le (v : Nat) : List Byte := leBytes v 2

/-- `u32le(v)` (R15, R62). -/
def u32le (v : Nat) : List Byte := leBytes v 4

/-- `u32be(v)` (R15, R63): the byte of greatest weight first. -/
def u32be (v : Nat) : List Byte := (leBytes v 4).reverse

/-- `from_le(B)` (R15). -/
def fromLE : List Byte → Nat
  | [] => 0
  | b :: B => b.toNat + 256 * fromLE B

/-- `from_be(B)` (R15). -/
def fromBE (B : List Byte) : Nat := fromLE B.reverse

/-- `byte_bits(b)`: the 8 bits of a byte, bit 7 first (R15, R66). -/
def byteBits (b : Byte) : List Bool :=
  [b.getLsbD 7, b.getLsbD 6, b.getLsbD 5, b.getLsbD 4, b.getLsbD 3, b.getLsbD 2, b.getLsbD 1, b.getLsbD 0]

/-- `unpack(B)`: the bit stream of a byte sequence (R15, R64). -/
def unpack (B : List Byte) : List Bool := B.flatMap byteBits

/-- `bit_at(B, i)`: stream bit `i`, bit `7 - (i mod 8)` of byte `i div 8` (R15, R64). -/
def bitAt (B : List Byte) (i : Nat) : Bool := (B.getD (i / 8) 0).getLsbD (7 - i % 8)

/-- The number whose bits are `bits`, the first bit the most significant (R15, R136). -/
def bitsVal (bits : List Bool) : Nat := bits.foldl (fun acc b => 2 * acc + b.toNat) 0

/-- Every 8 bits a byte, the first bit at bit 7: `128*b0 + 64*b1 + .. + b7` (R15). -/
def packFull : List Bool → List Byte
  | b0 :: b1 :: b2 :: b3 :: b4 :: b5 :: b6 :: b7 :: rest =>
      BitVec.ofNat 8 (bitsVal [b0, b1, b2, b3, b4, b5, b6, b7]) :: packFull rest
  | _ => []

/-- `pack(S, p)`: pad with copies of `p` to a multiple of 8 bits, then 8 bits a byte (R15, R64). -/
def pack (S : List Bool) (p : Bool) : List Byte :=
  packFull (S ++ List.replicate ((8 - S.length % 8) % 8) p)

/-- `cw_bits(L, v)`: the `L` bits of `v`, most significant first (R15, R65). -/
def cwBits (L v : Nat) : List Bool := (List.range L).map fun i => v.testBit (L - 1 - i)

end Sys2Proof.Machine
end

