-- ==== Sys2Proof/Machine/Flags.lean ====
section
/-! DEFINITION. STATUS and ERR: the flags and the error codes (R26, R28, R231, R232). -/

namespace Sys2Proof.Machine

/-- The value of STATUS.STATE (R26). -/
def Phase.code : Phase → Nat
  | .idle => 0
  | .busy => 1
  | .done => 2
  | .error => 3

/-- STATUS as the host reads it: STATE in bits 1:0, FAULT_LATCH in bit 2, bits 7:3 zero (R26). -/
def Status.word (st : Status) : BitVec 8 := BitVec.ofNat 8 (st.state.code + 4 * st.faultLatch.toNat)

/-- A command starts: STATE is BUSY, FAULT_LATCH keeps its value (R93). -/
def Status.started (st : Status) : Status := { st with state := .busy }

/-- A command ended without error: STATE is DONE, "FAULT_LATCH keeps its value" (R241). -/
def Status.completed (st : Status) : Status := { st with state := .done }

/-- A command ended with an error: STATE is ERROR, FAULT_LATCH is 1 (R240, R245). -/
def Status.failed (_ : Status) : Status := { state := .error, faultLatch := true }

/-- STATUS after reset: IDLE, FAULT_LATCH 0 (R42). -/
def Status.afterReset : Status := { state := .idle, faultLatch := false }

/-- The `done` output: "equal to 1 iff `STATUS.STATE` is DONE or ERROR" (R246). -/
def Status.doneOut (st : Status) : Bool :=
  match st.state with
  | .idle => false
  | .busy => false
  | .done => true
  | .error => true

/-- The error classes of R231 (class 0 is "no error"). -/
inductive ErrClass where
  | structuralError
  | decodingError
  | invalidParameter
  | ioError
  deriving DecidableEq, Repr

/-- The class codes (R231). -/
def ErrClass.code : ErrClass → Nat
  | .structuralError => 1
  | .decodingError => 2
  | .invalidParameter => 3
  | .ioError => 4

/-- The causes of R232. -/
inductive Cause where
  | missingHeader
  | payloadHeaderMismatch
  | headerTruncated
  | zeroLengthCodeword
  | wordOutOfRange
  | headerSizeMismatch
  | noMatch
  | ambiguousMatch
  | badRepetition
  | emptyWeightTable
  | shapeMismatch
  | symbolNotInCodebook
  | lengthOverflow
  | illegalCommand
  | maskElement
  | inputCapacity
  | outputCapacity
  deriving DecidableEq, Repr

/-- The cause codes (R232, column "cause"). -/
def Cause.code : Cause → Nat
  | .missingHeader => 0x10
  | .payloadHeaderMismatch => 0x11
  | .headerTruncated => 0x12
  | .zeroLengthCodeword => 0x13
  | .wordOutOfRange => 0x14
  | .headerSizeMismatch => 0x15
  | .noMatch => 0x20
  | .ambiguousMatch => 0x21
  | .badRepetition => 0x30
  | .emptyWeightTable => 0x31
  | .shapeMismatch => 0x32
  | .symbolNotInCodebook => 0x33
  | .lengthOverflow => 0x34
  | .illegalCommand => 0x35
  | .maskElement => 0x36
  | .inputCapacity => 0x40
  | .outputCapacity => 0x41

/-- The one class a cause belongs to (R232, column "class"). -/
def Cause.cls : Cause → ErrClass
  | .missingHeader => .structuralError
  | .payloadHeaderMismatch => .structuralError
  | .headerTruncated => .structuralError
  | .zeroLengthCodeword => .structuralError
  | .wordOutOfRange => .structuralError
  | .headerSizeMismatch => .structuralError
  | .noMatch => .decodingError
  | .ambiguousMatch => .decodingError
  | .badRepetition => .invalidParameter
  | .emptyWeightTable => .invalidParameter
  | .shapeMismatch => .invalidParameter
  | .symbolNotInCodebook => .invalidParameter
  | .lengthOverflow => .invalidParameter
  | .illegalCommand => .invalidParameter
  | .maskElement => .invalidParameter
  | .inputCapacity => .ioError
  | .outputCapacity => .ioError

/-- The value of ERR for a cause: `256 * class + cause` (R232). -/
def Cause.err (c : Cause) : BitVec 16 := BitVec.ofNat 16 (256 * c.cls.code + c.code)

end Sys2Proof.Machine
end

