-- ==== Sys2Proof/Machine/Operands.lean ====
section
/-! DEFINITION. The buffers as memory, and where the operands of a command stand (R23): no operand is
chosen by a register number, each has its one fixed place. -/

namespace Sys2Proof.Machine

/-- The canonical form: indices strictly rising. (An unlisted cell holds no defined value, so there is
no default entry to leave out.) -/
def Memory.wf : Memory → Bool
  | [] => true
  | [_] => true
  | (i, _) :: (j, b) :: M => decide (i < j) && Memory.wf ((j, b) :: M)

/-- The byte a cell was last given, if any. -/
def Memory.read? : Memory → Nat → Option Byte
  | [], _ => none
  | (j, b) :: M, i => if j = i then some b else Memory.read? M i

/-- Give cell `i` the byte `v`, keeping the canonical form. -/
def Memory.write : Memory → Nat → Byte → Memory
  | [], i, v => [(i, v)]
  | (j, b) :: M, i, v =>
    if i < j then (i, v) :: (j, b) :: M
    else if i = j then (i, v) :: M
    else (j, b) :: Memory.write M i v

/-- The cells `base, base + 1, ..` given the bytes `B`, all others with no defined value. -/
def Memory.ofBytesFrom : Nat → List Byte → Memory
  | _, [] => []
  | base, b :: B => (base, b) :: Memory.ofBytesFrom (base + 1) B

/-- A buffer that holds exactly the bytes `B` from index 0. -/
def Memory.ofBytes (B : List Byte) : Memory := Memory.ofBytesFrom 0 B

/-- The byte in cell `i` of IN: what was written there since reset, else a free value (R43, U3). -/
def State.inByte (s : State) (i : Nat) : Byte := (s.inBuf.read? i).getD (Config.freeIn s.epoch i)

/-- The byte in cell `i` of MASK (R43, U3). -/
def State.maskByte (s : State) (i : Nat) : Byte := (s.maskBuf.read? i).getD (Config.freeMask s.epoch i)

/-- The byte in cell `i` of OUT: the last result below OUT_LEN, else a free value (R43, U4). -/
def State.outByte (s : State) (i : Nat) : Byte := (s.outBuf.read? i).getD (Config.freeOut s.outEpoch i)

/-- The operand IN of a command: `MemRead(IN, 0, x[IN_LEN])` (R16, R23). -/
def State.inBytes (s : State) : List Byte := (List.range s.inLen.toNat).map s.inByte

/-- The operand MASK of NOISE: `MemRead(MASK, 0, x[MASK_LEN])` (R16, R23). -/
def State.maskBytes (s : State) : List Byte := (List.range s.maskLen.toNat).map s.maskByte

/-- The result of the last command: `OUT[0 .. x[OUT_LEN])` (R32). -/
def State.outBytes (s : State) : List Byte := (List.range s.outLen.toNat).map s.outByte

/-- `WT[s]`, the weight of a symbol as a natural number (R35). -/
def State.weight (s : State) (sym : Symbol) : Nat := (s.wt[sym.toNat]'sym.isLt).toNat

/-- Whether `n` is above a capacity; nothing is above an unbounded one (R11, R238). -/
def overCap (cap : Option Nat) (n : Nat) : Bool :=
  match cap with
  | none => false
  | some c => decide (c < n)

end Sys2Proof.Machine
end

