-- ==== Sys2Proof/Machine/Ops.lean ====
section
/-! DEFINITION. The shared operations of every command: starting (R93), the error entry (R240), the
normal completion (R241), the capacity tests (R93, R238), and reset (R260). -/

namespace Sys2Proof.Machine

/-- `raise Class(CAUSE, info)` (R16): the class is the cause's. -/
structure CmdError where
  cause : Cause
  info : Nat
  deriving DecidableEq, Repr

/-- The result of a command that ends without error: the bytes for OUT and the report pair (R241). -/
structure Result where
  bytes : List Byte
  srcLen : Nat
  payloadLen : Nat
  deriving DecidableEq, Repr

/-- What a command comes to: "either a result ... or exactly one error" (R17). -/
abbrev CmdOutcome := Except CmdError Result

/-- `raise`, as a value of a command's computation. -/
def raise {α : Type} (c : Cause) (info : Nat) : Except CmdError α := .error { cause := c, info := info }

/-- ERROR ENTRY (R240), the block's one exception entry: "Nothing else changes". There is no vector, no
saved program counter and no mode; the return from it is only the next command's start, `State.start`
(R243). OUT "holds nothing; its cells are unspecified". -/
def State.errorEntry (e : CmdError) (s : State) : State :=
  { s with
    outBuf := []
    outEpoch := s.outEpoch + 1
    outLen := 0
    srcLen := 0
    payloadLen := 0
    err := e.cause.err
    errInfo := BitVec.ofNat 64 e.info
    status := s.status.failed }

/-- NORMAL COMPLETION (R241). Cells of OUT at and beyond `x[OUT_LEN]` are unspecified (R43). -/
def State.complete (r : Result) (s : State) : State :=
  { s with
    outBuf := Memory.ofBytes r.bytes
    outEpoch := s.outEpoch + 1
    outLen := BitVec.ofNat 64 r.bytes.length
    srcLen := BitVec.ofNat 64 r.srcLen
    payloadLen := BitVec.ofNat 64 r.payloadLen
    err := 0
    errInfo := 0
    status := s.status.completed }

/-- A command starts (R93): the command word is stored and STATE is BUSY. CB and the node pool start
empty, being local values of the commands (R36, R39). It is also all there is to going on after an
error (R243). -/
def State.start (c : CmdWord) (s : State) : State :=
  { s with cmd := c, status := s.status.started }

/-- The last test of every command (R93, R239): `len(B) > OUT_CAP` raises OUTPUT_CAPACITY. -/
def outputTest (p : Params) (o : CmdOutcome) : CmdOutcome :=
  match o with
  | .error e => .error e
  | .ok r => if overCap p.outCap r.bytes.length then raise .outputCapacity r.bytes.length else .ok r

/-- `if x[IN_LEN] > IN_CAP` (R93), the test before every command but BUILD. -/
def inputTest (s : State) (o : CmdOutcome) : CmdOutcome :=
  if overCap s.params.inCap s.inLen.toNat then raise .inputCapacity s.inLen.toNat else o

/-- `if x[MASK_LEN] > MASK_CAP` (R93), the second test before NOISE. -/
def maskTest (s : State) (o : CmdOutcome) : CmdOutcome :=
  if overCap s.params.maskCap s.maskLen.toNat then raise .inputCapacity s.maskLen.toNat else o

/-- The state a command ends in (R240, R241). -/
def State.settle (s : State) (o : CmdOutcome) : State :=
  match o with
  | .error e => s.errorEntry e
  | .ok r => s.complete r

/-- The end of every command: the output test, then the error entry or the completion (R93). -/
def State.finish (s : State) (o : CmdOutcome) : Host.Outcome State Fault Refusal :=
  .next (s.settle (outputTest s.params o))

/-- RESET (R260, R42), hard or soft: every register and the weight table at its reset value, the cells of
all three buffers unspecified anew. The parameters and the host's own fields are no part of the block. -/
def State.resetBlock (s : State) : State :=
  { State.reset with
    params := s.params
    epoch := s.epoch + 1
    outEpoch := s.outEpoch + 1
    host := s.host
    reads := s.reads }

end Sys2Proof.Machine
end

