-- ==== Sys2Proof/Machine/NoiseTransform.lean ====
section
/-! DEFINITION. NOISE, the Noise Transform (R215 to R221). -/

namespace Sys2Proof.Machine

/-- `C[i] xor Mb[i]` for every `i` (R220). -/
def xorBytes (C Mb : List Byte) : List Byte := List.zipWith (fun a b => a ^^^ b) C Mb

/-- The bits of a bit-granular mask, one element 0x00 or 0x01 each (R120). -/
def maskBits (K : List Byte) : List Bool := K.map fun k => decide (k = 1)

/-- The least index of an element of a bit-granular mask that is no bit-value (R218). -/
def firstBadElement (K : List Byte) : Option Nat := K.findIdx? fun k => decide (1 < k.toNat)

/-- The mask as bytes, of the shape its length says: bit-granular is tested first (R216 to R219). -/
def maskOutcome (K : List Byte) (c q : Nat) : Except CmdError (List Byte) :=
  if q = 8 * c then
    match firstBadElement K with
    | some j => raise .maskElement j
    | none => .ok (pack (maskBits K) false)
  else if q = c then .ok K
  else raise .shapeMismatch q

/-- What NOISE comes to (R215): from the two operands and their lengths alone (R223). -/
def noiseOutcome (C K : List Byte) (c q : Nat) : CmdOutcome :=
  match maskOutcome K c q with
  | .error e => .error e
  | .ok Mb => .ok { bytes := xorBytes C Mb, srcLen := c, payloadLen := 0 }

/-- NOISE (R215). -/
def execNoise (s : State) : Host.Outcome State Fault Refusal :=
  s.finish (inputTest s (maskTest s (noiseOutcome s.inBytes s.maskBytes s.inLen.toNat s.maskLen.toNat)))

end Sys2Proof.Machine
end

