-- ==== Sys2Proof/Machine/RepetitionCodec.lean ====
section
/-! DEFINITION. RENC and RDEC, the repetition codec (R190 to R196, R200 to R206). -/

namespace Sys2Proof.Machine

/-- `n mod 2 = 0 or n < 3 or n > 9` (R190, R191, R202). -/
def badFactor (n : Nat) : Bool :=
  decide (n % 2 = 0) || decide (n < Config.repMin) || decide (Config.repMax < n)

/-- Each bit of the source `n` times, in order (R193). -/
def repeatBits (n : Nat) (bits : List Bool) : List Bool := bits.flatMap fun b => List.replicate n b

/-- The payload: `pack(S, 0)` (R194, R115). -/
def repPayload (n : Nat) (S : List Byte) : List Byte := pack (repeatBits n (unpack S)) false

/-- What RENC comes to (R190): from the factor, the source and its length alone. -/
def rencOutcome (n : Nat) (S : List Byte) (m : Nat) : CmdOutcome :=
  if badFactor n then raise .badRepetition n
  else if Config.maxSourceLen < m then raise .lengthOverflow m
  else
    .ok { bytes := u8 n ++ u32be m ++ repPayload n S
          srcLen := m
          payloadLen := (repPayload n S).length }

/-- RENC n (R190). -/
def execRenc (n : Nat) (s : State) : Host.Outcome State Fault Refusal :=
  s.finish (inputTest s (rencOutcome n s.inBytes s.inLen.toNat))

/-- The number of set bits of group `j` of the payload, bits `n*j` to `n*j + n - 1` (R204). -/
def groupCount (Q : List Byte) (n j : Nat) : Nat := (List.range n).countP fun t => bitAt Q (n * j + t)

/-- The strict majority: "`1` iff the count of set bits in the group exceeds `n/2`" (R204). -/
def majority (Q : List Byte) (n j : Nat) : Bool := decide (n < 2 * groupCount Q n j)

/-- n, the field at offset 0 (R112, R113). -/
def repFactorField (F : List Byte) : Nat := (F.getD 0 0).toNat

/-- source_len_bytes, the big-endian field at offset 1 (R112, R114). -/
def repLenField (F : List Byte) : Nat := fromBE ((F.drop 1).take 4)

/-- The decoded bits: "Exactly `8 * source_len_bytes` groups" (R204). -/
def decodedBits (Q : List Byte) (n slen : Nat) : List Bool := (List.range (8 * slen)).map (majority Q n)

/-- What RDEC comes to with the header fields `n` and `slen` (R202, R203, R206). -/
def rdecWith (F : List Byte) (m n slen : Nat) : CmdOutcome :=
  if badFactor n then raise .badRepetition n
  else if 8 * (m - Config.repHeaderLen) < slen * 8 * n then raise .payloadHeaderMismatch (slen * 8 * n)
  else
    .ok { bytes := pack (decodedBits (F.drop Config.repHeaderLen) n slen) false
          srcLen := slen
          payloadLen := m - Config.repHeaderLen }

/-- What RDEC comes to (R200): from the file and its length alone. -/
def rdecOutcome (F : List Byte) (m : Nat) : CmdOutcome :=
  if m < Config.repHeaderLen then raise .missingHeader m
  else rdecWith F m (repFactorField F) (repLenField F)

/-- RDEC (R200). -/
def execRdec (s : State) : Host.Outcome State Fault Refusal :=
  s.finish (inputTest s (rdecOutcome s.inBytes s.inLen.toNat))

end Sys2Proof.Machine
end

