-- ==== Sys2Proof/Machine/Codebook.lean ====
section
/-! DEFINITION. The codebook construction that BUILD and SENC share (R131 to R138) and its serialized
form (R104, R105, R144). Weights are natural numbers here: sums are exact, of any width (R138). -/

namespace Sys2Proof.Machine

/-- A Codeword `(bit_length, value)` (R18). -/
structure Codeword where
  len : Nat
  val : Nat
  deriving DecidableEq, Repr

/-- A Codebook: its entries in ascending order of symbol (R105, R131). -/
abbrev Codebook := List (Symbol × Codeword)

/-- The merge tree: `child0` is reached by bit 0, `child1` by bit 1 (R135). -/
inductive Tree where
  | leaf (s : Symbol)
  | node (child0 child1 : Tree)
  deriving DecidableEq, Repr

/-- A live node of the merge (R133, R134). -/
structure Node where
  weight : Nat
  minsym : Nat
  tree : Tree
  deriving DecidableEq, Repr

/-- `Leaf(s)` (R133). -/
def Node.ofLeaf (w : Symbol → Nat) (s : Symbol) : Node :=
  { weight := w s, minsym := s.toNat, tree := .leaf s }

/-- `Node(child0 = a, child1 = b, ..)` (R133, R135): the weight is the exact sum (R138). -/
def Node.join (a b : Node) : Node :=
  { weight := a.weight + b.weight, minsym := min a.minsym b.minsym, tree := .node a.tree b.tree }

/-- The key order `(weight, minsym)`, lexicographic (R134). -/
def Node.lt (a b : Node) : Bool :=
  decide (a.weight < b.weight) || (decide (a.weight = b.weight) && decide (a.minsym < b.minsym))

/-- The node with the least key, and the pool without it. -/
def takeLeast : List Node → Option (Node × List Node)
  | [] => none
  | a :: P =>
    match takeLeast P with
    | none => some (a, [])
    | some (b, R) => if b.lt a then some (b, a :: R) else some (a, P)

/-- One pass of the merge (R133): the two nodes of least key are joined, the first removed as child 0.
A pool of fewer than two nodes is left as it is. -/
def mergeOnce (P : List Node) : List Node :=
  match takeLeast P with
  | none => P
  | some (a, P1) =>
    match takeLeast P1 with
    | none => P
    | some (b, P2) => a.join b :: P2

/-- `repeat n times` one pass (R133). -/
def mergeTimes : Nat → List Node → List Node
  | 0, P => P
  | n + 1, P => mergeTimes n (mergeOnce P)

/-- The edge bits `e1, e2, .., eL` from the root down to `Leaf(s)` (R136). -/
def Tree.path? : Tree → Symbol → Option (List Bool)
  | .leaf t, s => if t = s then some [] else none
  | .node c0 c1, s =>
    match c0.path? s with
    | some p => some (false :: p)
    | none =>
      match c1.path? s with
      | some p => some (true :: p)
      | none => none

/-- The codeword of a path: the root's edge is the most significant bit (R136). -/
def Codeword.ofPath (p : List Bool) : Codeword := { len := p.length, val := bitsVal p }

/-- Every symbol, in ascending order. -/
def allSymbols : List Symbol := (List.range 256).map (BitVec.ofNat 8)

/-- The list `A` of R131: the symbols of positive weight, in ascending order. -/
def participants (w : Symbol → Nat) : List Symbol := allSymbols.filter fun s => decide (0 < w s)

/-- The tree of `codebook(WT)` for the participants `A`: after `k - 1` passes "the one node left" (R133). -/
def codeTree (w : Symbol → Nat) (A : List Symbol) : Option Tree :=
  ((mergeTimes (A.length - 1) (A.map (Node.ofLeaf w))).head?).map Node.tree

/-- The Codeword of the leaf of `s` in a tree; every participant has a leaf in its own tree. -/
def Tree.codeword (t : Tree) (s : Symbol) : Codeword := Codeword.ofPath ((t.path? s).getD [])

/-- `codebook(WT)` (R131 to R137). -/
def codebook (w : Symbol → Nat) : Except CmdError Codebook :=
  match participants w with
  | [] => raise .emptyWeightTable 0
  | [s] => .ok [(s, { len := 1, val := 0 })]
  | A =>
    match codeTree w A with
    | none => raise .emptyWeightTable 0
    | some t => .ok (A.map fun s => (s, t.codeword s))

/-- `CB[s]` (R36): the Codeword of a symbol, or none. -/
def Codebook.find (cb : Codebook) (s : Symbol) : Option Codeword := List.lookup s cb

/-- A per-symbol entry: `u8(s) ++ u8(L) ++ le_bytes(v, ceil8(L))` (R104). -/
def entryBytes (e : Symbol × Codeword) : List Byte :=
  e.1 :: u8 e.2.len ++ leBytes e.2.val (ceil8 e.2.len)

/-- `serialize(CB)` (R144). -/
def serialize (cb : Codebook) : List Byte := cb.flatMap entryBytes

/-- What BUILD comes to, from the weight table alone (R130, R145). -/
def buildOutcome (w : Symbol → Nat) : CmdOutcome :=
  match codebook w with
  | .error e => .error e
  | .ok cb => .ok { bytes := serialize cb, srcLen := 0, payloadLen := 0 }

/-- BUILD (R130). It does not read IN, so no capacity of an input is tested (R93, C10). -/
def execBuild (s : State) : Host.Outcome State Fault Refusal :=
  s.finish (buildOutcome s.weight)

end Sys2Proof.Machine
end

