-- ==== Sys2Proof/Machine/SourceDecoder.lean ====
section
/-! DEFINITION. SDEC, the Source Decoder (R170 to R182). -/

namespace Sys2Proof.Machine

/-- One row of the table T: "the list of the `k` triples" (R172). -/
structure Entry where
  sym : Symbol
  len : Nat
  val : Nat
  deriving DecidableEq, Repr

/-- The bytes `F[a .. a + n)` (R14). -/
def slice (F : List Byte) (a n : Nat) : List Byte := (F.drop a).take n

/-- The `bit_length` field of the entry at offset `p` (R104). -/
def entryLenAt (F : List Byte) (p : Nat) : Nat := (F.getD (p + 1) 0).toNat

/-- The `word` field of the entry at offset `p`: `from_le` of `ceil8(L)` bytes (R104, R172). -/
def entryValAt (F : List Byte) (p : Nat) : Nat := fromLE (slice F (p + 2) (ceil8 (entryLenAt F p)))

/-- The offset after the entry at offset `p` (R104). -/
def entryEndAt (F : List Byte) (p : Nat) : Nat := p + 2 + ceil8 (entryLenAt F p)

/-- The entry at offset `p`, as a row of the table (R172). -/
def entryAt (F : List Byte) (p : Nat) : Entry :=
  { sym := F.getD p 0, len := entryLenAt F p, val := entryValAt F p }

/-- The table T and the offset reached: `n` entries from offset `p` of the file `F` of `m` bytes, with the
four tests of an entry in the order of R170 and R175. -/
def parseEntries (F : List Byte) (m : Nat) : Nat → Nat → Except CmdError (List Entry × Nat)
  | 0, p => .ok ([], p)
  | n + 1, p =>
    if m < p + 2 then raise .headerTruncated p
    else if entryLenAt F p = 0 then raise .zeroLengthCodeword p
    else if m < entryEndAt F p then raise .headerTruncated p
    else if 2 ^ entryLenAt F p ≤ entryValAt F p then raise .wordOutOfRange p
    else
      match parseEntries F m n (entryEndAt F p) with
      | .error e => .error e
      | .ok (T, q) => .ok (entryAt F p :: T, q)

/-- Whether an entry matches the payload `Q` of `nbits` bits at scan position `pos` (R179): its bits exist
and each equals the codeword's. -/
def Entry.matchesAt (Q : List Byte) (nbits pos : Nat) (e : Entry) : Bool :=
  decide (pos + e.len ≤ nbits) &&
    (List.range e.len).all fun t => bitAt Q (pos + t) == (cwBits e.len e.val).getD t false

/-- The scan (R176): `n` symbols from position `pos`; no match and several matches are errors (R177, R178). -/
def scan (T : List Entry) (Q : List Byte) (nbits : Nat) : Nat → Nat → Except CmdError (List Symbol)
  | 0, _ => .ok []
  | n + 1, pos =>
    match T.filter (Entry.matchesAt Q nbits pos) with
    | [] => raise .noMatch pos
    | [e] =>
      match scan T Q nbits n (pos + e.len) with
      | .error err => .error err
      | .ok D => .ok (e.sym :: D)
    | _ :: _ :: _ => raise .ambiguousMatch pos

/-- header_size, the field at offset 0 (R100, R101). -/
def headerSizeField (F : List Byte) : Nat := fromLE (slice F 0 2)

/-- The number of entries: symbol_count_minus_1, the field at offset 2, plus 1 (R102). -/
def entryCountField (F : List Byte) : Nat := (F.getD 2 0).toNat + 1

/-- source_len, the field at offset 3 (R103). -/
def sourceLenField (F : List Byte) : Nat := fromLE (slice F 3 4)

/-- What SDEC comes to once the table is read: the payload starts at header_size (R170, R175, R176, R182). -/
def sdecWith (F : List Byte) (m : Nat) (T : List Entry) (p : Nat) : CmdOutcome :=
  if p ≠ headerSizeField F then raise .headerSizeMismatch p
  else
    match scan T (F.drop p) (8 * (m - p)) (sourceLenField F) 0 with
    | .error e => .error e
    | .ok D => .ok { bytes := D, srcLen := sourceLenField F, payloadLen := m - p }

/-- What SDEC comes to (R170): from the file and its length alone (R180). -/
def sdecOutcome (F : List Byte) (m : Nat) : CmdOutcome :=
  if m = 0 then .ok { bytes := [], srcLen := 0, payloadLen := 0 }
  else if m < Config.srcHeaderFixed then raise .headerTruncated 0
  else
    match parseEntries F m (entryCountField F) Config.srcHeaderFixed with
    | .error e => .error e
    | .ok (T, p) => sdecWith F m T p

/-- SDEC (R170). -/
def execSdec (s : State) : Host.Outcome State Fault Refusal :=
  s.finish (inputTest s (sdecOutcome s.inBytes s.inLen.toNat))

end Sys2Proof.Machine
end

