-- ==== Sys2Proof/Machine/SourceEncoder.lean ====
section
/-! DEFINITION. SENC, the Source Encoder (R150 to R158). -/

namespace Sys2Proof.Machine

/-- The bit buffer (R155): the codeword bits of each source byte in order, most significant first. The
source is encoded only after every byte is known to have a Codeword (R154). -/
def sourceBits (cb : Codebook) (S : List Byte) : List Bool :=
  S.flatMap fun b => ((cb.find b).map fun cw => cwBits cw.len cw.val).getD []

/-- The least index of a source byte without a Codeword, if any (R154). -/
def firstUncoded (cb : Codebook) (S : List Byte) : Option Nat := S.findIdx? fun b => (cb.find b).isNone

/-- The Header: header_size, symbol_count_minus_1, source_len, then the entries (R100, R101, R156). -/
def sourceHeader (cb : Codebook) (m : Nat) : List Byte :=
  u16le (Config.srcHeaderFixed + (serialize cb).length) ++ u8 (cb.length - 1) ++ u32le m ++ serialize cb

/-- What SENC comes to once the Codebook is built (R154 to R158). -/
def sencWith (padBit : Bool) (cb : Codebook) (S : List Byte) (m : Nat) : CmdOutcome :=
  match firstUncoded cb S with
  | some i => raise .symbolNotInCodebook i
  | none =>
    .ok { bytes := sourceHeader cb m ++ pack (sourceBits cb S) padBit
          srcLen := m
          payloadLen := (pack (sourceBits cb S) padBit).length }

/-- What SENC comes to (R150): from PAD_BIT, the weights, the source and its length alone (R161). -/
def sencOutcome (padBit : Bool) (w : Symbol → Nat) (S : List Byte) (m : Nat) : CmdOutcome :=
  if m = 0 then .ok { bytes := [], srcLen := 0, payloadLen := 0 }
  else if Config.maxSourceLen < m then raise .lengthOverflow m
  else
    match codebook w with
    | .error e => .error e
    | .ok cb => sencWith padBit cb S m

/-- SENC (R150). -/
def execSenc (s : State) : Host.Outcome State Fault Refusal :=
  s.finish (inputTest s (sencOutcome s.params.padBit s.weight s.inBytes s.inLen.toNat))

end Sys2Proof.Machine
end

