-- ==== Sys2Proof/Machine/Dispatch.lean ====
section
/-! DEFINITION. The dispatch of R93: one arm per command. -/

namespace Sys2Proof.Machine

def exec (i : Instr) (s : State) : Host.Outcome State Fault Refusal :=
  match i with
  | .build => Sys2Proof.Machine.execBuild s
  | .senc => Sys2Proof.Machine.execSenc s
  | .sdec => Sys2Proof.Machine.execSdec s
  | .renc n => Sys2Proof.Machine.execRenc n s
  | .rdec => Sys2Proof.Machine.execRdec s
  | .noise => Sys2Proof.Machine.execNoise s

end Sys2Proof.Machine
end

