-- ==== Sys2Proof/Machine/HostAccess.lean ====
section
/-! DEFINITION. What the host does to the block: the accesses of R61 over the five spaces of R60, the
pseudo-instructions of R97, and the accesses allowed while a command runs (R272). -/

namespace Sys2Proof.Machine

/-- HostRead(REG, k): the ten registers by number (R24). CTRL "reads 0" (R34); "Register numbers 10 and
above do not exist: a read returns 0". -/
def State.readReg (s : State) (k : Nat) : Nat :=
  match k with
  | 0 => s.cmd.toNat
  | 1 => s.status.word.toNat
  | 2 => s.err.toNat
  | 3 => s.errInfo.toNat
  | 4 => s.inLen.toNat
  | 5 => s.maskLen.toNat
  | 6 => s.outLen.toNat
  | 7 => s.srcLen.toNat
  | 8 => s.payloadLen.toNat
  | _ => 0

/-- Whether index `i` is an index of a buffer of this capacity (R60). -/
def inSpace (cap : Option Nat) (i : Nat) : Bool :=
  match cap with
  | none => true
  | some c => decide (i < c)

/-- HostRead(WT, i): 0 outside the space (R61). -/
def State.readWt (s : State) (i : Nat) : Nat := if h : i < 256 then (s.wt[i]).toNat else 0

/-- HostRead(space, i): "a host read of an index outside the space returns 0" (R61). -/
def State.hostRead (s : State) (sp : Space) (i : Nat) : Nat :=
  match sp with
  | .reg => s.readReg i
  | .wt => s.readWt i
  | .input => if inSpace s.params.inCap i then (s.inByte i).toNat else 0
  | .mask => if inSpace s.params.maskCap i then (s.maskByte i).toNat else 0
  | .out => if inSpace s.params.outCap i then (s.outByte i).toNat else 0

/-- HostWrite(REG, k, v), no command running: CMD starts a command (R25), IN_LEN and MASK_LEN store
`v mod 2^64`, bit 0 of CTRL resets (R34), and every other register ignores the write (R24). -/
def State.writeReg (s : State) (k v : Nat) : State :=
  match k with
  | 0 => s.start (BitVec.ofNat 16 v)
  | 4 => { s with inLen := BitVec.ofNat 64 v }
  | 5 => { s with maskLen := BitVec.ofNat 64 v }
  | 9 => if v % 2 = 1 then s.resetBlock else s
  | _ => s

/-- HostWrite(WT, i, v): `v mod 2^32`; ignored outside the space (R61). -/
def State.writeWt (s : State) (i v : Nat) : State :=
  if h : i < 256 then { s with wt := s.wt.set i (BitVec.ofNat 32 v) } else s

/-- HostWrite(IN, i, v) (R61). -/
def State.writeIn (s : State) (i v : Nat) : State :=
  if inSpace s.params.inCap i then { s with inBuf := s.inBuf.write i (BitVec.ofNat 8 v) } else s

/-- HostWrite(MASK, i, v) (R61). -/
def State.writeMask (s : State) (i v : Nat) : State :=
  if inSpace s.params.maskCap i then { s with maskBuf := s.maskBuf.write i (BitVec.ofNat 8 v) } else s

/-- HostWrite(space, i, v), no command running; the host may not write OUT (R60, R61). -/
def State.hostWrite (s : State) (sp : Space) (i v : Nat) : State :=
  match sp with
  | .reg => s.writeReg i v
  | .wt => s.writeWt i v
  | .input => s.writeIn i v
  | .mask => s.writeMask i v
  | .out => s

/-- `HostWrite(sp, i, bi)` for the bytes `b0, b1, ..` from index `i` on. -/
def State.writeBytes (sp : Space) : Nat → List Byte → State → State
  | _, [], s => s
  | i, b :: B, s => State.writeBytes sp (i + 1) B (s.hostWrite sp i b.toNat)

/-- `CLRW` (R97): `HostWrite(WT, s, 0)` for every `s` from 0 to 255. -/
def State.clearWeights (s : State) : State :=
  (List.range 256).foldl (fun t i => t.hostWrite .wt i 0) s

/-- `LDIN b0 b1 ..` (R97). -/
def State.loadIn (s : State) (bytes : List Byte) : State :=
  (State.writeBytes .input 0 bytes s).hostWrite .reg 4 bytes.length

/-- `LDMASK b0 b1 ..` (R97). -/
def State.loadMask (s : State) (bytes : List Byte) : State :=
  (State.writeBytes .mask 0 bytes s).hostWrite .reg 5 bytes.length

/-- What MOVOI reads (R97): `HostRead(OUT, i)` for `i` below `m = HostRead(REG, 6)`. -/
def State.outAsBytes (s : State) : List Byte :=
  (List.range (s.hostRead .reg 6)).map fun i => BitVec.ofNat 8 (s.hostRead .out i)

/-- A host read: the value goes to the host (log 4). -/
def State.logRead (s : State) (v : Nat) : State := { s with reads := v :: s.reads }

/-- A host action while no command runs. `wait` ends at DONE or ERROR; the poll of an IDLE block goes on
(R96), which `Machine/Engine.lean` sees to. -/
def State.hostFree (s : State) : HostAction → State
  | .read sp i => s.logRead (s.hostRead sp i)
  | .write sp i v => s.hostWrite sp i v
  | .wait => s
  | .setw i w => s.hostWrite .wt i w
  | .clrw => s.clearWeights
  | .ldin bytes => s.loadIn bytes
  | .ldmask bytes => s.loadMask bytes
  | .movoi => s.loadIn s.outAsBytes
  | .softReset => s.hostWrite .reg 9 1
  | .hardReset => s.resetBlock

/-- A host action while `STATUS.STATE` = BUSY (R272): "a read of `x[STATUS]` returns BUSY and is always
allowed; a write to `x[CTRL]` with bit 0 set resets (rule R261); a write to CMD is ignored; every other
host access ... has an undefined effect": refused (U1). The reset input works at any time (R260, R261). -/
def State.hostBusy (s : State) : HostAction → Host.Outcome State Fault Refusal
  | .read .reg 1 => .next (s.logRead (s.hostRead .reg 1))
  | .write .reg 0 _ => .next s
  | .write .reg 9 v => if v % 2 = 1 then .next s.resetBlock else .refused .hostAccessWhileBusy
  | .softReset => .next s.resetBlock
  | .hardReset => .next s.resetBlock
  | .wait => .next s
  | .read _ _ => .refused .hostAccessWhileBusy
  | .write _ _ _ => .refused .hostAccessWhileBusy
  | .setw _ _ => .refused .hostAccessWhileBusy
  | .clrw => .refused .hostAccessWhileBusy
  | .ldin _ => .refused .hostAccessWhileBusy
  | .ldmask _ => .refused .hostAccessWhileBusy
  | .movoi => .refused .hostAccessWhileBusy

/-- A host action in any state of the block. -/
def State.hostAct (s : State) (a : HostAction) : Host.Outcome State Fault Refusal :=
  match s.status.state with
  | .busy => s.hostBusy a
  | .idle => .next (s.hostFree a)
  | .done => .next (s.hostFree a)
  | .error => .next (s.hostFree a)

/-- The command statement `c` of R96: the CMD write, then the wait. -/
def commandStatement (c : CmdWord) : List HostAction := [.write .reg 0 c.toNat, .wait]

end Sys2Proof.Machine
end

