-- ==== Sys2Proof/Machine/Engine.lean ====
section
/-! DEFINITION. Whose turn it is: the engine runs the command in CMD while STATE is BUSY, the host acts
otherwise (R75, R93; log 1). -/

namespace Sys2Proof.Machine

/-- The engine's turn while a command runs: the whole command, from the state at the CMD write to the
state at completion (R75). An illegal command word raises ILLEGAL_COMMAND with the word (R94). -/
def State.engineTurn (s : State) : Host.Outcome State Fault Refusal :=
  match decode s.cmd with
  | .ok i => exec i s
  | .error _ => .next (s.settle (raise .illegalCommand s.cmd.toNat))

/-- The state without the host's next action. -/
def State.popHost (s : State) (rest : List HostAction) : State := { s with host := rest }

/-- One turn. With nothing more to do the host waits: the engine completes a running command, and a block
that runs none "simply waits for the next CMD write" (R251). The host's `wait` lets the engine complete;
at DONE or ERROR it is over; a poll of an IDLE block goes on without end (R96). -/
def State.turn (s : State) : Host.Outcome State Fault Refusal :=
  match s.host with
  | [] =>
    match s.status.state with
    | .busy => s.engineTurn
    | .idle => .next s
    | .done => .next s
    | .error => .next s
  | .wait :: rest =>
    match s.status.state with
    | .busy => (s.popHost rest).engineTurn
    | .idle => .next s
    | .done => .next (s.popHost rest)
    | .error => .next (s.popHost rest)
  | a :: rest => (s.popHost rest).hostAct a

/-- The block at the moment the host has written the command word and waits: BUSY, the word in CMD (R93). -/
def State.awaiting (s : State) (c : CmdWord) : State :=
  { s.start c with host := .wait :: s.host }

end Sys2Proof.Machine
end

