-- ==== Sys2Proof/Machine/Step.lean ====
section
/-! DEFINITION. One step of the machine, and the placing of a command word for the next step. -/

namespace Sys2Proof.Machine

/-- One step: one turn of the engine or of the host. -/
def step (s : State) : Host.Outcome State Fault Refusal := s.turn

/-- `s` with the table's word in CMD, the command just started and the host waiting for it: the very next
step runs it. The block has no instruction memory (R27): CMD is where the engine finds its command. -/
def State.withFetchWord (s : State) (nbits w : Nat) : State := s.awaiting (tableWord nbits w)

end Sys2Proof.Machine
end

