-- ==== Sys2Proof/Safety.lean ====
section
/-! DEFINITION. The terms in which claims about the block are stated: what a command leaves alone, what the
report registers say, the invariant of a run, and the properties of a Codebook. -/

namespace Sys2Proof.Machine

/-- A command never writes WT, IN, MASK, IN_LEN or MASK_LEN (R22), nor CMD (R240, R241), nor the parameters or
what belongs to the host; the free contents of the unwritten cells of IN and MASK stay what they were (R71). -/
structure InputsKept (s t : State) : Prop where
  params : t.params = s.params
  cmd : t.cmd = s.cmd
  wt : t.wt = s.wt
  inLen : t.inLen = s.inLen
  maskLen : t.maskLen = s.maskLen
  inByte : ∀ i, t.inByte i = s.inByte i
  maskByte : ∀ i, t.maskByte i = s.maskByte i
  inBuf : t.inBuf = s.inBuf
  maskBuf : t.maskBuf = s.maskBuf
  host : t.host = s.host
  reads : t.reads = s.reads

/-- A command ended from `s` in `t` with the error `cause`, `info` (R240): nothing else is left of it. -/
structure EndsWithError (cause : Cause) (info : Nat) (s t : State) : Prop where
  state : t.status.state = .error
  faultLatch : t.status.faultLatch = true
  err : t.err = cause.err
  errInfo : t.errInfo = BitVec.ofNat 64 info
  outLen : t.outLen = 0
  srcLen : t.srcLen = 0
  payloadLen : t.payloadLen = 0
  inputs : InputsKept s t

/-- A command ended from `s` in `t` with the result `bytes` and the report pair (R241). The length of the
result is the register's value, so the register did not truncate it. -/
structure EndsWithResult (bytes : List Byte) (srcLen payloadLen : Nat) (s t : State) : Prop where
  state : t.status.state = .done
  faultLatch : t.status.faultLatch = s.status.faultLatch
  err : t.err = 0
  errInfo : t.errInfo = 0
  outLen : t.outLen.toNat = bytes.length
  outBytes : t.outBytes = bytes
  srcLen : t.srcLen.toNat = srcLen
  payloadLen : t.payloadLen.toNat = payloadLen
  inputs : InputsKept s t

/-- ERR is one of the values of R232. -/
def ErrListed (err : BitVec 16) : Prop := err = 0 ∨ ∃ c : Cause, err = c.err

/-- The invariant of every run: the buffers are canonical and inside their capacities, OUT lists exactly the
cells below OUT_LEN, and the registers say what R26, R232, R240, R241 and R245 say of each STATE. -/
structure State.Inv (s : State) : Prop where
  inWf : Memory.wf s.inBuf = true
  maskWf : Memory.wf s.maskBuf = true
  outWf : Memory.wf s.outBuf = true
  inCells : ∀ e ∈ s.inBuf, inSpace s.params.inCap e.1 = true
  maskCells : ∀ e ∈ s.maskBuf, inSpace s.params.maskCap e.1 = true
  outCells : s.outBuf.map Prod.fst = List.range s.outLen.toNat
  outFits : overCap s.params.outCap s.outLen.toNat = false
  errListed : ErrListed s.err
  errLatched : s.err ≠ 0 → s.status.faultLatch = true
  errorReport : s.status.state = .error →
    s.err ≠ 0 ∧ s.outLen = 0 ∧ s.srcLen = 0 ∧ s.payloadLen = 0
  doneReport : s.status.state = .done → s.err = 0 ∧ s.errInfo = 0
  idleReport : s.status.state = .idle →
    s.cmd = 0 ∧ s.status.faultLatch = false ∧ s.err = 0 ∧ s.errInfo = 0 ∧ s.outLen = 0 ∧ s.srcLen = 0 ∧
      s.payloadLen = 0

/-- "for two entries `(L1, v1)`, `(L2, v2)` of different symbols with `L1 <= L2`, `v2 div 2^(L2 - L1)` is not
`v1`" (R139), and no symbol has two entries. -/
def Codebook.PrefixFree (cb : Codebook) : Prop :=
  (cb.map Prod.fst).Nodup ∧
    ∀ d ∈ cb, ∀ e ∈ cb, d.1 ≠ e.1 → d.2.len ≤ e.2.len → e.2.val / 2 ^ (e.2.len - d.2.len) ≠ d.2.val

/-- The key order of R134 on symbols: the weight decides, and at equal weights the symbol value. -/
def keyLt (w : Symbol → Nat) (x y : Symbol) : Prop :=
  w x < w y ∨ w x = w y ∧ x.toNat < y.toNat

/-- The weights of the pool after the leaves of `x` and `y` are merged, the new node's weight, the exact sum, on
the lesser symbol, its `minsym` (R133, R134, R138). -/
def mergedWeights (w : Symbol → Nat) (x y : Symbol) (s : Symbol) : Nat :=
  if s = x ∨ s = y then (if s.toNat = min x.toNat y.toNat then w x + w y else 0) else w s

/-- The Kraft sum, the sum of `2^(-L)` over the entries (R141). -/
def Codebook.kraftSum (cb : Codebook) : ℚ := (cb.map fun e => 1 / (2 : ℚ) ^ e.2.len).sum

/-- The weighted length `WT[s] * L_s` summed over the entries (R140). -/
def Codebook.cost (w : Symbol → Nat) (cb : Codebook) : Nat := (cb.map fun e => w e.1 * e.2.len).sum

/-- An assignment of bit strings that is prefix-free on the symbols `A` (R140). -/
def PrefixFreeOn (A : List Symbol) (code : Symbol → List Bool) : Prop :=
  ∀ a ∈ A, ∀ b ∈ A, a ≠ b → ¬ code a <+: code b

/-- A row of a SourceCodecFile's table that SDEC accepts (R175): `1 <= L <= 255` and `v < 2^L`. -/
def Entry.legal (e : Entry) : Prop := 1 ≤ e.len ∧ e.len ≤ 255 ∧ e.val < 2 ^ e.len

/-- The SourceCodecFile with the table `T`, the length field `slen` and the payload `Q` (R100 to R104). -/
def sourceFile (T : List Entry) (slen : Nat) (Q : List Byte) : List Byte :=
  u16le (7 + (serialize (T.map fun e => (e.sym, { len := e.len, val := e.val }))).length) ++
    u8 (T.length - 1) ++ u32le slen ++ serialize (T.map fun e => (e.sym, { len := e.len, val := e.val })) ++ Q

/-- The codeword bits of an entry, most significant first (R179). -/
def Entry.bits (e : Entry) : List Bool := cwBits e.len e.val

/-- The entries of `T` that match the bit stream at a position: "the next `L` bits exist and, read
first-bit-as-most-significant, equal `v`" (R179). -/
def matchesOf (T : List Entry) (stream : List Bool) : List Entry :=
  T.filter fun e => decide (e.bits <+: stream)

/-- The scan picks the entries `E` in turn, each the only match at its position, and stops before `rest`. -/
def PicksUniquely (T : List Entry) : List Entry → List Bool → List Bool → Prop
  | [], stream, rest => stream = rest
  | e :: E, stream, rest => matchesOf T stream = [e] ∧ PicksUniquely T E (stream.drop e.len) rest

/-- The number of places in which two groups of `n` bits differ, from bit `n * j` on (R207). -/
def groupFlips (n j : Nat) (P Q : List Byte) : Nat :=
  (List.range n).countP fun t => bitAt P (n * j + t) != bitAt Q (n * j + t)

end Sys2Proof.Machine
end

