-- ==== Sys2Proof/Certificates/Slice0/Obligations.lean ====
section
/-! DEFINITION. The statements about the codec block, for the provers. Each cites the rules it states. -/

open Sys2Proof Sys2Proof.Machine

/-! ### The command word -/

/-- R92, "The full words": one word per command, and RENC's for every factor. -/
def Obligations.FullWordsDecode : Prop :=
  decode 0x0001 = .ok .build ∧ decode 0x0002 = .ok .senc ∧ decode 0x0003 = .ok .sdec ∧
    decode 0x0304 = .ok (.renc 3) ∧ decode 0x0904 = .ok (.renc 9) ∧ decode 0x0005 = .ok .rdec ∧
    decode 0x0006 = .ok .noise ∧
    ∀ n, n < 256 → decode (BitVec.ofNat 16 (0x0004 + 256 * n)) = .ok (.renc n)

/-- Decode and encode agree on every well-formed command and on every word that is a command (R90 to R92). -/
def Obligations.DecodeEncodeAgree : Prop :=
  (∀ i : Instr, i.wf = true → decode (encode i) = .ok i) ∧
    ∀ (c : CmdWord) (i : Instr), decode c = .ok i → i.wf = true ∧ encode i = c

/-- R94: an illegal word, by its bits, ends in ILLEGAL_COMMAND with the word in ERR_INFO and "has no other
effect than an error has". The running command is the word in CMD; the host waits or has nothing to do (whose
turn it is: the model's choice, log 1). -/
def Obligations.IllegalWordsRaiseIllegalCommand : Prop :=
  ∀ (s : State) (rest : List HostAction), s.status.state = .busy →
    (s.host = [] ∧ rest = [] ∨ s.host = .wait :: rest) →
    (s.cmd.extractLsb' 0 8 = 0 ∨ 7 ≤ (s.cmd.extractLsb' 0 8).toNat ∨
      s.cmd.extractLsb' 0 8 ≠ 4 ∧ s.cmd.extractLsb' 8 8 ≠ 0) →
    ∃ t, step s = .next t ∧ EndsWithError .illegalCommand s.cmd.toNat { s with host := rest } t

/-- R232, the column "ERR" of the table of causes. -/
def Obligations.ErrorCodesAreTheTable : Prop :=
  Cause.missingHeader.err = 0x0110 ∧ Cause.payloadHeaderMismatch.err = 0x0111 ∧
    Cause.headerTruncated.err = 0x0112 ∧ Cause.zeroLengthCodeword.err = 0x0113 ∧
    Cause.wordOutOfRange.err = 0x0114 ∧ Cause.headerSizeMismatch.err = 0x0115 ∧
    Cause.noMatch.err = 0x0220 ∧ Cause.ambiguousMatch.err = 0x0221 ∧ Cause.badRepetition.err = 0x0330 ∧
    Cause.emptyWeightTable.err = 0x0331 ∧ Cause.shapeMismatch.err = 0x0332 ∧
    Cause.symbolNotInCodebook.err = 0x0333 ∧ Cause.lengthOverflow.err = 0x0334 ∧
    Cause.illegalCommand.err = 0x0335 ∧ Cause.maskElement.err = 0x0336 ∧
    Cause.inputCapacity.err = 0x0440 ∧ Cause.outputCapacity.err = 0x0441

/-! ### The step: whose turn it is -/

/-- While a command runs and the host waits or has nothing to do, the step is exec of the command in CMD
(R75, R93; whose turn it is: the model's choice, log 1); and the word `withFetchWord` places is the one the
very next step runs. -/
def Obligations.StepRunsTheDecodedCommand : Prop :=
  (∀ (s : State) (i : Instr) (rest : List HostAction), s.status.state = .busy → decode s.cmd = .ok i →
    (s.host = [] ∧ rest = [] ∨ s.host = .wait :: rest) → step s = exec i { s with host := rest }) ∧
  ∀ (s : State) (i : Instr) (w : Nat), w < 2 ^ 16 → decode (BitVec.ofNat 16 w) = .ok i →
    step (s.withFetchWord 16 w) =
      exec i { s with cmd := BitVec.ofNat 16 w, status := { s.status with state := .busy } }

/-- R25: a host write of `v` to CMD stores `v[15:0]` and starts the command, unless a command runs, when it
is ignored; a host read of CMD returns the value stored. R93's first two lines. -/
def Obligations.CmdWriteStartsCommand : Prop :=
  ∀ (s : State) (v : Nat) (rest : List HostAction), s.host = .write .reg 0 v :: rest →
    (s.status.state ≠ .busy → ∃ t, step s = .next t ∧
      t = { s with cmd := BitVec.ofNat 16 v, status := { s.status with state := .busy }, host := rest } ∧
      t.hostRead .reg 0 = v % 2 ^ 16) ∧
    (s.status.state = .busy → step s = .next { s with host := rest })

/-- R272 with U1's treatment "refuse": what the host may do while a command runs, and that everything else is
refused by name. The refusal is the treatment of 93_implementation_defined.md U1 (log 5). -/
def Obligations.BusyAccessRules : Prop :=
  ∀ (s : State) (a : HostAction) (rest : List HostAction), s.status.state = .busy → s.host = a :: rest →
    (a = .read .reg 1 → ∃ v, v % 4 = 1 ∧ step s = .next { s with host := rest, reads := v :: s.reads }) ∧
    (∀ v, a = .write .reg 0 v → step s = .next { s with host := rest }) ∧
    ((∃ v, a = .write .reg 9 v ∧ v % 2 = 1) ∨ a = .softReset ∨ a = .hardReset →
      ∃ t, step s = .next t ∧ t.status.state = .idle ∧ t.outLen = 0 ∧ t.err = 0) ∧
    (a ≠ .wait → a ≠ .read .reg 1 → (∀ v, a ≠ .write .reg 0 v) → (∀ v, a = .write .reg 9 v → v % 2 = 0) →
      a ≠ .softReset → a ≠ .hardReset → step s = .refused .hostAccessWhileBusy)

/-- R42, R260, R261, R34: the reset input and a write of CTRL with bit 0 set do the same in every STATE, also
while a command runs: every register and WT at its reset value, every buffer cell unspecified (the free value
of the new epoch: the model's form of "unspecified", log 3), `done` 0; a write of CTRL with bit 0 clear is
ignored. That the parameters and the host's own fields stay is the model's choice (log 1, 2, 4). -/
def Obligations.ResetPutsEveryRegisterToItsResetValue : Prop :=
  (∀ (s : State) (a : HostAction) (rest : List HostAction), s.host = a :: rest →
    a = .hardReset ∨ a = .softReset ∨ (∃ v, a = .write .reg 9 v ∧ v % 2 = 1) →
    ∃ t, step s = .next t ∧ t.cmd = 0 ∧ t.status = { state := .idle, faultLatch := false } ∧ t.err = 0 ∧
      t.errInfo = 0 ∧ t.inLen = 0 ∧ t.maskLen = 0 ∧ t.outLen = 0 ∧ t.srcLen = 0 ∧ t.payloadLen = 0 ∧
      t.hostRead .reg 9 = 0 ∧ (∀ sym, t.weight sym = 0) ∧ t.status.doneOut = false ∧
      (∀ i, t.inByte i = Config.freeIn (s.epoch + 1) i) ∧
      (∀ i, t.maskByte i = Config.freeMask (s.epoch + 1) i) ∧
      (∀ i, t.outByte i = Config.freeOut (s.outEpoch + 1) i) ∧
      t.params = s.params ∧ t.host = rest ∧ t.reads = s.reads) ∧
  ∀ (s : State) (v : Nat) (rest : List HostAction), s.host = .write .reg 9 v :: rest → v % 2 = 0 →
    s.status.state ≠ .busy → step s = .next { s with host := rest }

/-- R42 for the state the machine starts in; the parameters at the defaults of R11. The values of the model's
own fields (`host`, `reads`, `epoch`, `outEpoch`) are no part of it; that the parameters stand in State is its
choice (log 2). -/
def Obligations.StartStateIsTheResetState : Prop :=
  State.reset.cmd = 0 ∧ State.reset.status.word = 0 ∧ State.reset.err = 0 ∧ State.reset.errInfo = 0 ∧
    State.reset.inLen = 0 ∧ State.reset.maskLen = 0 ∧ State.reset.outLen = 0 ∧ State.reset.srcLen = 0 ∧
    State.reset.payloadLen = 0 ∧ State.reset.hostRead .reg 9 = 0 ∧ (∀ sym, State.reset.weight sym = 0) ∧
    State.reset.params = { inCap := none, maskCap := none, outCap := none, padBit := false }

/-- The host that has nothing to do, and the wait of R96: an IDLE, DONE or ERROR block "simply waits" (R251);
the wait is over at DONE and ERROR and goes on at IDLE. The form of a step that waits is the model's (log 1). -/
def Obligations.WaitingChangesNothing : Prop :=
  ∀ s : State, s.status.state ≠ .busy →
    (s.host = [] → step s = .next s) ∧
    ∀ rest, s.host = .wait :: rest →
      (s.status.state = .idle → step s = .next s) ∧
      (s.status.state ≠ .idle → step s = .next { s with host := rest })

/-! ### Host accesses -/

/-- R24, R60, R61: a HostWrite changes its one unit, to `v mod 2^w`, and nothing else; a write to a unit the
host may not write, or outside the space, is ignored. No command runs. -/
def Obligations.HostWriteChangesItsUnitOnly : Prop :=
  ∀ (s : State) (rest : List HostAction) (sp : Space) (i v : Nat), s.status.state ≠ .busy →
    s.host = .write sp i v :: rest →
    (sp = .reg → i = 4 → step s = .next { s with host := rest, inLen := BitVec.ofNat 64 v }) ∧
    (sp = .reg → i = 5 → step s = .next { s with host := rest, maskLen := BitVec.ofNat 64 v }) ∧
    (sp = .reg → i ≠ 0 → i ≠ 4 → i ≠ 5 → i ≠ 9 → step s = .next { s with host := rest }) ∧
    (sp = .wt → 256 ≤ i → step s = .next { s with host := rest }) ∧
    (sp = .wt → i < 256 → ∃ t, step s = .next t ∧ t = { s with host := rest, wt := t.wt } ∧
      t.hostRead .wt i = v % 2 ^ 32 ∧ ∀ j, j ≠ i → t.hostRead .wt j = s.hostRead .wt j) ∧
    (sp = .input → inSpace s.params.inCap i = false → step s = .next { s with host := rest }) ∧
    (sp = .input → inSpace s.params.inCap i = true →
      ∃ t, step s = .next t ∧ t = { s with host := rest, inBuf := t.inBuf } ∧
        t.hostRead .input i = v % 2 ^ 8 ∧ ∀ j, j ≠ i → t.inByte j = s.inByte j) ∧
    (sp = .mask → inSpace s.params.maskCap i = false → step s = .next { s with host := rest }) ∧
    (sp = .mask → inSpace s.params.maskCap i = true →
      ∃ t, step s = .next t ∧ t = { s with host := rest, maskBuf := t.maskBuf } ∧
        t.hostRead .mask i = v % 2 ^ 8 ∧ ∀ j, j ≠ i → t.maskByte j = s.maskByte j) ∧
    (sp = .out → step s = .next { s with host := rest })

/-- R24, R26, R61: what a HostRead returns, register by register and space by space, with no other effect:
absent registers, CTRL and indices outside a space read 0. No command runs. -/
def Obligations.HostReadReturnsItsUnit : Prop :=
  ∀ (s : State) (rest : List HostAction) (sp : Space) (i : Nat), s.status.state ≠ .busy →
    s.host = .read sp i :: rest →
    ∃ v, step s = .next { s with host := rest, reads := v :: s.reads } ∧
      (sp = .reg → i = 0 → v = s.cmd.toNat) ∧
      (sp = .reg → i = 1 → v = (match s.status.state with | .idle => 0 | .busy => 1 | .done => 2 | .error => 3) +
        (if s.status.faultLatch then 4 else 0)) ∧
      (sp = .reg → i = 2 → v = s.err.toNat) ∧ (sp = .reg → i = 3 → v = s.errInfo.toNat) ∧
      (sp = .reg → i = 4 → v = s.inLen.toNat) ∧ (sp = .reg → i = 5 → v = s.maskLen.toNat) ∧
      (sp = .reg → i = 6 → v = s.outLen.toNat) ∧ (sp = .reg → i = 7 → v = s.srcLen.toNat) ∧
      (sp = .reg → i = 8 → v = s.payloadLen.toNat) ∧ (sp = .reg → 9 ≤ i → v = 0) ∧
      (sp = .wt → ∀ sym : Symbol, sym.toNat = i → v = s.weight sym) ∧ (sp = .wt → 256 ≤ i → v = 0) ∧
      (sp = .input → v = if inSpace s.params.inCap i then (s.inByte i).toNat else 0) ∧
      (sp = .mask → v = if inSpace s.params.maskCap i then (s.maskByte i).toNat else 0) ∧
      (sp = .out → v = if inSpace s.params.outCap i then (s.outByte i).toNat else 0)

/-- R97, `LDIN` and `LDMASK` on buffers that can hold the bytes: the operand is then those bytes, and nothing
else changes. -/
def Obligations.LoadStatementsSetTheOperand : Prop :=
  ∀ (s : State) (bytes : List Byte) (rest : List HostAction), s.status.state ≠ .busy →
    bytes.length < 2 ^ 64 →
    (s.host = .ldin bytes :: rest → overCap s.params.inCap bytes.length = false →
      ∃ t, step s = .next t ∧ t.inBytes = bytes ∧ t.inLen.toNat = bytes.length ∧
        (∀ j, bytes.length ≤ j → t.inByte j = s.inByte j) ∧
        t = { s with host := rest, inLen := t.inLen, inBuf := t.inBuf }) ∧
    (s.host = .ldmask bytes :: rest → overCap s.params.maskCap bytes.length = false →
      ∃ t, step s = .next t ∧ t.maskBytes = bytes ∧ t.maskLen.toNat = bytes.length ∧
        (∀ j, bytes.length ≤ j → t.maskByte j = s.maskByte j) ∧
        t = { s with host := rest, maskLen := t.maskLen, maskBuf := t.maskBuf })

/-- R97, `MOVOI`: "the last result becomes the next input", on buffers that can hold it. -/
def Obligations.MovoiMakesTheResultTheInput : Prop :=
  ∀ (s : State) (rest : List HostAction), s.status.state ≠ .busy → s.host = .movoi :: rest →
    overCap s.params.inCap s.outLen.toNat = false → overCap s.params.outCap s.outLen.toNat = false →
    ∃ t, step s = .next t ∧ t.inBytes = s.outBytes ∧ t.inLen = s.outLen ∧
      (∀ j, s.outLen.toNat ≤ j → t.inByte j = s.inByte j) ∧
      t = { s with host := rest, inLen := t.inLen, inBuf := t.inBuf }

/-- R97, `SETW` and `CLRW`. -/
def Obligations.WeightStatementsSetTheTable : Prop :=
  ∀ (s : State) (rest : List HostAction), s.status.state ≠ .busy →
    (∀ (sym : Symbol) (w : Nat), s.host = .setw sym.toNat w :: rest →
      ∃ t, step s = .next t ∧ t.weight sym = w % 2 ^ 32 ∧ (∀ u, u ≠ sym → t.weight u = s.weight u) ∧
        t = { s with host := rest, wt := t.wt }) ∧
    (s.host = .clrw :: rest →
      ∃ t, step s = .next t ∧ (∀ u, t.weight u = 0) ∧ t = { s with host := rest, wt := t.wt })

/-! ### Every command -/

/-- R22 and the frame of all six commands: whatever the end, every register but STATUS, ERR, ERR_INFO, OUT_LEN,
SRC_LEN and PAYLOAD_LEN, the weight table and every cell of IN and MASK are unchanged. -/
def Obligations.CommandsKeepTheirInputs : Prop :=
  ∀ (i : Instr) (s t : State), exec i s = .next t → InputsKept s t

/-- R280, R17: "a command started in any state reaches DONE or ERROR". -/
def Obligations.EveryCommandEndsInDoneOrError : Prop :=
  ∀ (i : Instr) (s : State), ∃ t, exec i s = .next t ∧ (t.status.state = .done ∨ t.status.state = .error)

/-- R240, R241: what the registers say after a command that ended with an error, and after one that did not. -/
def Obligations.EndsAreReportedWhole : Prop :=
  ∀ (i : Instr) (s t : State), exec i s = .next t →
    (t.status.state = .error → ∃ c info, EndsWithError c info s t ∧ t.err ≠ 0 ∧ t.outBytes = []) ∧
    (t.status.state = .done → t.err = 0 ∧ t.errInfo = 0 ∧ t.status.faultLatch = s.status.faultLatch)

/-- R21, and the operand lists of R130, R150, R170, R190, R200, R215: BUILD reads WT alone, SENC WT and IN, SDEC,
RENC and RDEC IN alone, NOISE IN and MASK. Two states that agree on what the command reads (and on the parameters)
end alike, whatever OUT, ERR and the earlier commands left; FAULT_LATCH alone remembers them (R245). -/
def Obligations.CommandsReadTheirOperandsOnly : Prop :=
  ∀ (i : Instr) (s u t v : State), u.params = s.params →
    (i = .build ∨ i = .senc → u.wt = s.wt) →
    (i ≠ .build → u.inLen = s.inLen ∧ u.inBytes = s.inBytes) →
    (i = .noise → u.maskLen = s.maskLen ∧ u.maskBytes = s.maskBytes) →
    exec i s = .next t → exec i u = .next v →
    v.status.state = t.status.state ∧ v.err = t.err ∧ v.errInfo = t.errInfo ∧ v.outLen = t.outLen ∧
      v.srcLen = t.srcLen ∧ v.payloadLen = t.payloadLen ∧ v.outBuf = t.outBuf

/-- R93, R238, R239: a length register above the capacity of its buffer ends every command that reads the buffer
with INPUT_CAPACITY, IN tested before MASK; BUILD is not affected. The first clause takes in RENC with an illegal
factor, whose test R191 calls "made before any other": that INPUT_CAPACITY comes first there too is the model's
reading of R93 and R239 against R191 (log 9, DEDUCED, unsafe for this combination alone), no plain rule. -/
def Obligations.InputCapacityIsTestedFirst : Prop :=
  ∀ s : State,
    (∀ i : Instr, i ≠ .build → overCap s.params.inCap s.inLen.toNat = true →
      ∃ t, exec i s = .next t ∧ EndsWithError .inputCapacity s.inLen.toNat s t) ∧
    (overCap s.params.inCap s.inLen.toNat = false → overCap s.params.maskCap s.maskLen.toNat = true →
      ∃ t, exec .noise s = .next t ∧ EndsWithError .inputCapacity s.maskLen.toNat s t)

/-- R80, R93: a command that with an unbounded OUT ends with a result of `n` bytes, `n` above OUT_CAP, ends with
OUTPUT_CAPACITY, and `n` is recorded. -/
def Obligations.OutputCapacityIsTestedLast : Prop :=
  ∀ (i : Instr) (s u : State) (cap : Nat),
    exec i { s with params := { s.params with outCap := none } } = .next u → u.status.state = .done →
    s.params.outCap = some cap → cap < u.outLen.toNat →
    ∃ t, exec i s = .next t ∧ EndsWithError .outputCapacity u.outLen.toNat s t

/-! ### The whole machine -/

/-- The invariant holds after reset. -/
def Obligations.InvariantHoldsAtReset : Prop := State.reset.Inv

/-- The invariant is kept by every step, of the engine and of the host, from every state that has it. -/
def Obligations.StepKeepsTheInvariant : Prop :=
  ∀ s t : State, s.Inv → step s = .next t → t.Inv

/-- R245: FAULT_LATCH "is set by every error entry and cleared only by reset". -/
def Obligations.FaultLatchIsSticky : Prop :=
  ∀ s t : State, step s = .next t →
    (s.status.faultLatch = true → t.status.faultLatch = true ∨
      ∃ a rest, s.host = a :: rest ∧
        (a = .hardReset ∨ a = .softReset ∨ ∃ v, a = .write .reg 9 v ∧ v % 2 = 1) ∧ t.status.state = .idle) ∧
    (s.status.faultLatch = false → (t.status.faultLatch = true ↔
      s.status.state = .busy ∧ t.status.state = .error))

/-- R26, R261: STATE becomes BUSY only by a CMD write to a block that runs no command, and leaves BUSY only by
the end of the command or a reset; it becomes IDLE only by a reset. R246: `done` is 1 exactly when STATE is DONE
or ERROR; the end of a command raises it, and it falls "when a command starts or on reset", and only then. -/
def Obligations.StateChangesOnlyByCommandsAndResets : Prop :=
  (∀ s : State, s.status.doneOut = true ↔ s.status.state = .done ∨ s.status.state = .error) ∧
  ∀ s t : State, step s = .next t → t.status.state ≠ s.status.state →
    (∃ a rest, s.host = a :: rest ∧
      ((a = .hardReset ∨ a = .softReset ∨ ∃ v, a = .write .reg 9 v ∧ v % 2 = 1) ∧ t.status.state = .idle ∧
          t.status.doneOut = false ∨
        (∃ v, a = .write .reg 0 v) ∧ s.status.state ≠ .busy ∧ t.status.state = .busy ∧
          t.status.doneOut = false)) ∨
    s.status.state = .busy ∧ s.status.doneOut = false ∧
      (t.status.state = .done ∨ t.status.state = .error) ∧ t.status.doneOut = true

/-- R24, R60: the host writes none of OUT and the result registers: a step on a block that runs no command
leaves them alone unless it is a reset. -/
def Obligations.HostCannotWriteResults : Prop :=
  ∀ s t : State, s.status.state ≠ .busy → step s = .next t →
    (∃ a rest, s.host = a :: rest ∧
      (a = .hardReset ∨ a = .softReset ∨ ∃ v, a = .write .reg 9 v ∧ v % 2 = 1)) ∨
    t.err = s.err ∧ t.errInfo = s.errInfo ∧ t.outLen = s.outLen ∧ t.srcLen = s.srcLen ∧
      t.payloadLen = s.payloadLen ∧ t.outBytes = s.outBytes ∧ (∀ i, t.outByte i = s.outByte i)

/-- R20: the parameters are no state: no step changes them. -/
def Obligations.StepKeepsTheParameters : Prop :=
  ∀ s t : State, step s = .next t → t.params = s.params

/-! ### BUILD and the Codebook -/

/-- R144: with a positive weight BUILD completes with the entries of the Codebook, one after another in ascending
order of symbol, or, where they do not fit OUT, raises OUTPUT_CAPACITY (R130, R80). -/
def Obligations.BuildReturnsTheSerializedCodebook : Prop :=
  ∀ s : State, (∃ sym, 0 < s.weight sym) →
    ∃ cb B, codebook s.weight = .ok cb ∧ (∀ sym, 0 < s.weight sym ↔ sym ∈ cb.map Prod.fst) ∧
      (cb.map fun e => e.1.toNat).Pairwise (· < ·) ∧
      B = cb.flatMap (fun e => [e.1, BitVec.ofNat 8 e.2.len] ++ leBytes e.2.val (ceil8 e.2.len)) ∧
      B.length = (cb.map fun e => 2 + ceil8 e.2.len).sum ∧
      (overCap s.params.outCap B.length = false → ∃ t, exec .build s = .next t ∧ EndsWithResult B 0 0 s t) ∧
      (overCap s.params.outCap B.length = true →
        ∃ t, exec .build s = .next t ∧ EndsWithError .outputCapacity B.length s t)

/-- R132 and its use in R153: no positive weight ends BUILD, and SENC of a source that is not empty and not too
long, with EMPTY_WEIGHT_TABLE. -/
def Obligations.EmptyTableIsRefused : Prop :=
  ∀ s : State, (∀ sym, s.weight sym = 0) →
    (∃ t, exec .build s = .next t ∧ EndsWithError .emptyWeightTable 0 s t) ∧
    (1 ≤ s.inLen.toNat → s.inLen.toNat < 2 ^ 32 → overCap s.params.inCap s.inLen.toNat = false →
      ∃ t, exec .senc s = .next t ∧ EndsWithError .emptyWeightTable 0 s t)

/-- R131: a Codeword for every symbol of positive weight and for no other, entries in ascending order of symbol,
1 to 256 of them; and there is a Codebook exactly when some weight is positive. -/
def Obligations.CodebookCoversThePositiveSymbols : Prop :=
  ∀ w : Symbol → Nat,
    ((∃ cb, codebook w = .ok cb) ↔ ∃ sym, 0 < w sym) ∧
    ∀ cb, codebook w = .ok cb →
      (∀ sym, (cb.find sym).isSome = true ↔ 0 < w sym) ∧
        (cb.map fun e => e.1.toNat).Pairwise (· < ·) ∧ 1 ≤ cb.length ∧ cb.length ≤ 256

/-- R137: one symbol gets the Codeword (1, 0). -/
def Obligations.LoneSymbolGetsTheOneBitCodeword : Prop :=
  ∀ (w : Symbol → Nat) (sym : Symbol), 0 < w sym → (∀ u, u ≠ sym → w u = 0) →
    codebook w = .ok [(sym, { len := 1, val := 0 })]

/-- R139: no codeword is a bit-prefix of another, stated on values. -/
def Obligations.CodebookIsPrefixFree : Prop :=
  ∀ (w : Symbol → Nat) (cb : Codebook), codebook w = .ok cb → cb.PrefixFree

/-- R141: the Kraft sum is exactly 1 for two or more symbols and 1/2 for one, whose codeword is the bit 0. -/
def Obligations.CodebookMeetsKraft : Prop :=
  ∀ (w : Symbol → Nat) (cb : Codebook), codebook w = .ok cb →
    (2 ≤ cb.length → cb.kraftSum = 1) ∧
    (cb.length = 1 → cb.kraftSum = 1 / 2 ∧ ∀ e ∈ cb, e.2 ≠ { len := 1, val := 1 })

/-- The bounds of R143: every length is 1 to `k - 1`, hence at most 255, and every value fits its length. -/
def Obligations.CodewordLengthsAreBounded : Prop :=
  ∀ (w : Symbol → Nat) (cb : Codebook), codebook w = .ok cb →
    ∀ e ∈ cb, 1 ≤ e.2.len ∧ e.2.len ≤ 255 ∧ e.2.val < 2 ^ e.2.len ∧ (2 ≤ cb.length → e.2.len ≤ cb.length - 1)

/-- R140: for two or more symbols the weighted length is the least any prefix-free assignment of bit strings to
the symbols of positive weight attains; for one symbol the length is 1. -/
def Obligations.CodebookIsOptimal : Prop :=
  ∀ (w : Symbol → Nat) (cb : Codebook), codebook w = .ok cb →
    (2 ≤ cb.length → ∀ code : Symbol → List Bool, PrefixFreeOn (cb.map Prod.fst) code →
      cb.cost w ≤ ((cb.map Prod.fst).map fun sym => w sym * (code sym).length).sum) ∧
    (cb.length = 1 → ∀ e ∈ cb, e.2.len = 1)

/-- R138: multiplying every weight by the same positive integer changes no Codebook. -/
def Obligations.CodebookIsScaleInvariant : Prop :=
  ∀ (w : Symbol → Nat) (c : Nat), 0 < c → codebook (fun sym => c * w sym) = codebook w

/-- R133 to R136, every merge: of the two symbols of least key `(weight, symbol)`, `x` the first and `y` the
second, the codewords are of one length and differ in the last bit only, 0 for `x` and 1 for `y`. They are (1, 0)
and (1, 1) where there is no third symbol. Otherwise the merged node goes on as a leaf would that has its key,
`(w x + w y, the lesser symbol)`: in the Codebook of the weights after the merge that leaf's Codeword is the
common prefix of the two, and every other symbol has the Codeword it has before. Followed down to two symbols,
this settles every merge: which node goes first at equal weights, leaf or internal, and which is child 0. -/
def Obligations.LeastTwoSymbolsAreSiblings : Prop :=
  ∀ (w : Symbol → Nat) (cb : Codebook) (x y : Symbol), codebook w = .ok cb → 0 < w x → 0 < w y →
    keyLt w x y → (∀ z, 0 < w z → z ≠ x → z ≠ y → keyLt w y z) →
    (∃ cx cy, cb.find x = some cx ∧ cb.find y = some cy ∧ cx.len = cy.len ∧ cx.val % 2 = 0 ∧
      cy.val = cx.val + 1) ∧
    (cb.length = 2 → cb.find x = some { len := 1, val := 0 } ∧ cb.find y = some { len := 1, val := 1 }) ∧
    (3 ≤ cb.length → ∀ u, (u = x ∨ u = y) → u.toNat = min x.toNat y.toNat →
      ∃ cb' c, codebook (mergedWeights w x y) = .ok cb' ∧ cb'.find u = some c ∧
        cb.find x = some { len := c.len + 1, val := 2 * c.val } ∧
        cb.find y = some { len := c.len + 1, val := 2 * c.val + 1 } ∧
        ∀ z, z ≠ x → z ≠ y → cb.find z = cb'.find z)

/-- R146: with the same positive weight on `2^m` symbols and 0 elsewhere the `i`-th of them has the Codeword
`(m, i)`; with the same positive weight on all 256, `CB[s] = (8, s)`. `m` is at least 1: for one symbol R137
gives (1, 0), which `LoneSymbolGetsTheOneBitCodeword` states. -/
def Obligations.EqualWeightsGiveTheFixedLengthCode : Prop :=
  (∀ (w : Symbol → Nat) (cb : Codebook) (m c : Nat), 0 < c → (∀ sym, w sym = 0 ∨ w sym = c) → 1 ≤ m →
    codebook w = .ok cb → cb.length = 2 ^ m →
    ∀ i, i < 2 ^ m → (cb[i]?).map Prod.snd = some { len := m, val := i }) ∧
  ∀ (w : Symbol → Nat) (c : Nat), 0 < c → (∀ sym, w sym = c) →
    ∃ cb, codebook w = .ok cb ∧ ∀ sym, cb.find sym = some { len := 8, val := sym.toNat }

/-! ### SENC -/

/-- R151: the empty source gives the empty file, whatever the weight table. -/
def Obligations.SencOfTheEmptySourceIsEmpty : Prop :=
  ∀ s : State, s.inLen = 0 → ∃ t, exec .senc s = .next t ∧ EndsWithResult [] 0 0 s t

/-- R150, R155 to R158: with a positive weight on every source byte SENC completes with the file: the header's
fields, the entries, then the codeword bits of the source bytes in order, padded with PAD_BIT. -/
def Obligations.SencWritesTheFile : Prop :=
  ∀ s : State, 1 ≤ s.inLen.toNat → s.inLen.toNat < 2 ^ 32 → overCap s.params.inCap s.inLen.toNat = false →
    (∀ b ∈ s.inBytes, 0 < s.weight b) →
    ∃ (cb : Codebook) (cw : Symbol → Codeword) (bits : List Bool) (P : List Byte),
      codebook s.weight = .ok cb ∧ (∀ e ∈ cb, cw e.1 = e.2) ∧ (∀ b ∈ s.inBytes, (b, cw b) ∈ cb) ∧
      bits = s.inBytes.flatMap (fun b => cwBits (cw b).len (cw b).val) ∧
      unpack P = bits ++ List.replicate (8 * P.length - bits.length) s.params.padBit ∧
      P.length = ceil8 bits.length ∧
      (overCap s.params.outCap (7 + (serialize cb).length + P.length) = false →
        ∃ t, exec .senc s = .next t ∧
          EndsWithResult
            ([BitVec.ofNat 8 (7 + (serialize cb).length), BitVec.ofNat 8 ((7 + (serialize cb).length) / 256),
                BitVec.ofNat 8 (cb.length - 1), BitVec.ofNat 8 s.inLen.toNat,
                BitVec.ofNat 8 (s.inLen.toNat / 2 ^ 8), BitVec.ofNat 8 (s.inLen.toNat / 2 ^ 16),
                BitVec.ofNat 8 (s.inLen.toNat / 2 ^ 24)] ++ serialize cb ++ P)
            s.inLen.toNat P.length s t)

/-- R152, R154: a source too long, and a source byte without a Codeword at the least index. -/
def Obligations.SencRefusesLongAndUncodedSources : Prop :=
  ∀ s : State, overCap s.params.inCap s.inLen.toNat = false →
    (2 ^ 32 ≤ s.inLen.toNat → ∃ t, exec .senc s = .next t ∧ EndsWithError .lengthOverflow s.inLen.toNat s t) ∧
    (∀ i, s.inLen.toNat < 2 ^ 32 → (∃ sym, 0 < s.weight sym) → i < s.inLen.toNat →
      s.weight (s.inByte i) = 0 → (∀ j, j < i → 0 < s.weight (s.inByte j)) →
      ∃ t, exec .senc s = .next t ∧ EndsWithError .symbolNotInCodebook i s t)

/-- R160: what SENC encodes SDEC decodes, the empty source included, on an instance whose buffers can hold the file
and the source. -/
def Obligations.SourceCodecRoundTrips : Prop :=
  ∀ s t u : State, exec .senc s = .next t → t.status.state = .done → u.inLen = t.outLen →
    u.inBytes = t.outBytes → overCap u.params.inCap u.inLen.toNat = false →
    overCap u.params.outCap s.inLen.toNat = false →
    ∃ v, exec .sdec u = .next v ∧ EndsWithResult s.inBytes s.inLen.toNat t.payloadLen.toNat u v

/-! ### SDEC -/

/-- R171: zero bytes decode to the empty source. -/
def Obligations.SdecOfTheEmptyFileIsEmpty : Prop :=
  ∀ s : State, s.inLen = 0 → ∃ t, exec .sdec s = .next t ∧ EndsWithResult [] 0 0 s t

/-- R172, R174, R176, R181, R182: a file with a legal table, in any order of its entries, decodes to the symbols
of the entries picked in turn, each the only match at its position; what follows the last codeword is not read. -/
def Obligations.SdecDecodesByMatching : Prop :=
  ∀ (s : State) (T E : List Entry) (slen : Nat) (Q : List Byte) (rest : List Bool),
    s.inBytes = sourceFile T slen Q → (∀ e ∈ T, e.legal) → 1 ≤ T.length → T.length ≤ 256 → slen < 2 ^ 32 →
    PicksUniquely T E (unpack Q) rest → E.length = slen →
    overCap s.params.inCap s.inLen.toNat = false → overCap s.params.outCap slen = false →
    ∃ t, exec .sdec s = .next t ∧ EndsWithResult (E.map Entry.sym) slen Q.length s t

/-- R177, R178, R179: no match, or more than one, at the first position where either holds is a DecodingError with
the scan position, the bits consumed so far. -/
def Obligations.SdecReportsNoMatchAndAmbiguity : Prop :=
  ∀ (s : State) (T E : List Entry) (slen : Nat) (Q : List Byte) (rest : List Bool),
    s.inBytes = sourceFile T slen Q → (∀ e ∈ T, e.legal) → 1 ≤ T.length → T.length ≤ 256 → slen < 2 ^ 32 →
    PicksUniquely T E (unpack Q) rest → E.length < slen →
    overCap s.params.inCap s.inLen.toNat = false →
    (matchesOf T rest = [] →
      ∃ t, exec .sdec s = .next t ∧ EndsWithError .noMatch ((E.map Entry.len).sum) s t) ∧
    (2 ≤ (matchesOf T rest).length →
      ∃ t, exec .sdec s = .next t ∧ EndsWithError .ambiguousMatch ((E.map Entry.len).sum) s t)

/-- R173, R175: a header that is malformed at the entry after the legal entries `T`, at offset
`p = 7 + ` their bytes, and a header_size that is not where the entries end. `H` is the fixed part. -/
def Obligations.SdecReportsMalformedHeaders : Prop :=
  ∀ s : State, overCap s.params.inCap s.inLen.toNat = false →
    (1 ≤ s.inLen.toNat → s.inLen.toNat < 7 →
      ∃ t, exec .sdec s = .next t ∧ EndsWithError .headerTruncated 0 s t) ∧
    ∀ (H : List Byte) (T : List Entry) (tail : List Byte) (k p : Nat),
      H.length = 7 → k = (H.getD 2 0).toNat + 1 → (∀ e ∈ T, e.legal) →
      s.inBytes = H ++ serialize (T.map fun e => (e.sym, { len := e.len, val := e.val })) ++ tail →
      p = 7 + (serialize (T.map fun e => (e.sym, { len := e.len, val := e.val }))).length →
      (T.length < k → tail.length < 2 →
        ∃ t, exec .sdec s = .next t ∧ EndsWithError .headerTruncated p s t) ∧
      (∀ sym more, T.length < k → tail = sym :: 0 :: more →
        ∃ t, exec .sdec s = .next t ∧ EndsWithError .zeroLengthCodeword p s t) ∧
      (∀ sym L more, T.length < k → tail = sym :: L :: more → L ≠ 0 → more.length < ceil8 L.toNat →
        ∃ t, exec .sdec s = .next t ∧ EndsWithError .headerTruncated p s t) ∧
      (∀ sym L more, T.length < k → tail = sym :: L :: more → L ≠ 0 → ceil8 L.toNat ≤ more.length →
        2 ^ L.toNat ≤ fromLE (more.take (ceil8 L.toNat)) →
        ∃ t, exec .sdec s = .next t ∧ EndsWithError .wordOutOfRange p s t) ∧
      (T.length = k → p ≠ (H.getD 0 0).toNat + 256 * (H.getD 1 0).toNat →
        ∃ t, exec .sdec s = .next t ∧ EndsWithError .headerSizeMismatch p s t)

/-! ### RENC and RDEC -/

/-- R190, R193, R194, R195: with a legal factor RENC completes with the 5-byte header and each source bit `n`
times. -/
def Obligations.RencRepeatsEveryBit : Prop :=
  ∀ (s : State) (n : Nat), (n = 3 ∨ n = 5 ∨ n = 7 ∨ n = 9) → s.inLen.toNat < 2 ^ 32 →
    overCap s.params.inCap s.inLen.toNat = false → overCap s.params.outCap (5 + n * s.inLen.toNat) = false →
    ∃ t P, exec (.renc n) s = .next t ∧
      EndsWithResult ([BitVec.ofNat 8 n, BitVec.ofNat 8 (s.inLen.toNat / 2 ^ 24),
        BitVec.ofNat 8 (s.inLen.toNat / 2 ^ 16), BitVec.ofNat 8 (s.inLen.toNat / 2 ^ 8),
        BitVec.ofNat 8 s.inLen.toNat] ++ P) s.inLen.toNat (n * s.inLen.toNat) s t ∧
      P.length = n * s.inLen.toNat ∧
      ∀ j r, j < 8 * s.inLen.toNat → r < n → bitAt P (n * j + r) = bitAt s.inBytes j

/-- R191, R192: any other factor is BAD_REPETITION, the source not examined; then a source too long is
LENGTH_OVERFLOW. INPUT_CAPACITY is tested before both (R93, R239; log 9). -/
def Obligations.RencRefusesBadFactorsAndLongSources : Prop :=
  ∀ (s : State) (n : Nat), overCap s.params.inCap s.inLen.toNat = false →
    (n ≠ 3 → n ≠ 5 → n ≠ 7 → n ≠ 9 →
      ∃ t, exec (.renc n) s = .next t ∧ EndsWithError .badRepetition n s t) ∧
    ((n = 3 ∨ n = 5 ∨ n = 7 ∨ n = 9) → 2 ^ 32 ≤ s.inLen.toNat →
      ∃ t, exec (.renc n) s = .next t ∧ EndsWithError .lengthOverflow s.inLen.toNat s t)

/-- R200, R204, R205, R206: with a header of a legal factor and enough payload RDEC completes with one bit per
group, the strict majority of its `n` bits; surplus payload is not read. -/
def Obligations.RdecTakesTheMajority : Prop :=
  ∀ (s : State) (n slen : Nat) (Q : List Byte), (n = 3 ∨ n = 5 ∨ n = 7 ∨ n = 9) → slen < 2 ^ 32 →
    s.inBytes = [BitVec.ofNat 8 n, BitVec.ofNat 8 (slen / 2 ^ 24), BitVec.ofNat 8 (slen / 2 ^ 16),
      BitVec.ofNat 8 (slen / 2 ^ 8), BitVec.ofNat 8 slen] ++ Q →
    slen * n ≤ Q.length → overCap s.params.inCap s.inLen.toNat = false →
    overCap s.params.outCap slen = false →
    ∃ t B, exec .rdec s = .next t ∧ EndsWithResult B slen Q.length s t ∧ B.length = slen ∧
      ∀ j, j < 8 * slen →
        (bitAt B j = true ↔ n < 2 * (List.range n).countP fun r => bitAt Q (n * j + r))

/-- R201, R202, R203: the three errors of RDEC in their order. -/
def Obligations.RdecRefusesBadFiles : Prop :=
  ∀ s : State, overCap s.params.inCap s.inLen.toNat = false →
    (s.inLen.toNat < 5 → ∃ t, exec .rdec s = .next t ∧ EndsWithError .missingHeader s.inLen.toNat s t) ∧
    ∀ (b0 b1 b2 b3 b4 : Byte) (Q : List Byte), s.inBytes = [b0, b1, b2, b3, b4] ++ Q →
      (b0 ≠ 3 → b0 ≠ 5 → b0 ≠ 7 → b0 ≠ 9 →
        ∃ t, exec .rdec s = .next t ∧ EndsWithError .badRepetition b0.toNat s t) ∧
      ∀ slen, (b0 = 3 ∨ b0 = 5 ∨ b0 = 7 ∨ b0 = 9) →
        slen = b1.toNat * 2 ^ 24 + b2.toNat * 2 ^ 16 + b3.toNat * 2 ^ 8 + b4.toNat →
        8 * Q.length < slen * 8 * b0.toNat →
        ∃ t, exec .rdec s = .next t ∧ EndsWithError .payloadHeaderMismatch (slen * 8 * b0.toNat) s t

/-- R197: what RENC encodes RDEC decodes, the empty source included, on an instance whose buffers can hold them. -/
def Obligations.RepetitionCodecRoundTrips : Prop :=
  ∀ (s t u : State) (n : Nat), exec (.renc n) s = .next t → t.status.state = .done → u.inLen = t.outLen →
    u.inBytes = t.outBytes → overCap u.params.inCap u.inLen.toNat = false →
    overCap u.params.outCap s.inLen.toNat = false →
    ∃ v, exec .rdec u = .next v ∧ EndsWithResult s.inBytes s.inLen.toNat t.payloadLen.toNat u v

/-- R207: on the file of RENC with the payload `P` replaced by a noisy `Q`, the bit decoded from group `j` is the
source bit iff at most `(n - 1) div 2` of the group's `n` bits were flipped, and its complement otherwise. -/
def Obligations.MajorityCorrectsUpToHalf : Prop :=
  ∀ (s t u : State) (n : Nat) (P Q : List Byte), exec (.renc n) s = .next t → t.status.state = .done →
    P = t.outBytes.drop 5 → u.inBytes = t.outBytes.take 5 ++ Q → Q.length = P.length →
    overCap u.params.inCap u.inLen.toNat = false → overCap u.params.outCap s.inLen.toNat = false →
    ∃ v, exec .rdec u = .next v ∧ v.status.state = .done ∧ v.outLen = s.inLen ∧
      ∀ j, j < 8 * s.inLen.toNat →
        (groupFlips n j P Q ≤ (n - 1) / 2 → bitAt v.outBytes j = bitAt s.inBytes j) ∧
        ((n + 1) / 2 ≤ groupFlips n j P Q → bitAt v.outBytes j = !bitAt s.inBytes j)

/-! ### NOISE -/

/-- R215, R216, R217, R220, R221: a mask of `8 * c` bit-values, or else of `c` bytes, is XORed onto the `c` input
bytes. -/
def Obligations.NoiseXorsTheMask : Prop :=
  ∀ s : State, overCap s.params.inCap s.inLen.toNat = false → overCap s.params.maskCap s.maskLen.toNat = false →
    overCap s.params.outCap s.inLen.toNat = false →
    (s.maskLen.toNat = 8 * s.inLen.toNat → (∀ k ∈ s.maskBytes, k = 0 ∨ k = 1) →
      ∃ t B, exec .noise s = .next t ∧ EndsWithResult B s.inLen.toNat 0 s t ∧ B.length = s.inLen.toNat ∧
        ∀ j, j < 8 * s.inLen.toNat → bitAt B j = (bitAt s.inBytes j ^^ (s.maskByte j == 1))) ∧
    (s.maskLen = s.inLen →
      ∃ t B, exec .noise s = .next t ∧ EndsWithResult B s.inLen.toNat 0 s t ∧ B.length = s.inLen.toNat ∧
        ∀ i, i < s.inLen.toNat → B.getD i 0 = s.inByte i ^^^ s.maskByte i)

/-- R218, R219: an element above 1 of a bit-granular mask at the least index, and any other length. -/
def Obligations.NoiseRefusesBadMasks : Prop :=
  ∀ s : State, overCap s.params.inCap s.inLen.toNat = false → overCap s.params.maskCap s.maskLen.toNat = false →
    (∀ j, s.maskLen.toNat = 8 * s.inLen.toNat → j < s.maskLen.toNat → 1 < (s.maskByte j).toNat →
      (∀ i, i < j → (s.maskByte i).toNat ≤ 1) →
      ∃ t, exec .noise s = .next t ∧ EndsWithError .maskElement j s t) ∧
    (s.maskLen.toNat ≠ 8 * s.inLen.toNat → s.maskLen ≠ s.inLen →
      ∃ t, exec .noise s = .next t ∧ EndsWithError .shapeMismatch s.maskLen.toNat s t)

/-- R222: an all-zero mask returns the input, an all-ones mask of either shape its complement, and the same
mask twice returns the original bytes. -/
def Obligations.NoiseIsAnInvolution : Prop :=
  ∀ s t : State, exec .noise s = .next t → t.status.state = .done →
    ((∀ k ∈ s.maskBytes, k = 0) → t.outBytes = s.inBytes) ∧
    (s.maskLen = s.inLen → (∀ k ∈ s.maskBytes, k = 0xFF) → t.outBytes = s.inBytes.map fun b => ~~~ b) ∧
    (s.maskLen.toNat = 8 * s.inLen.toNat → (∀ k ∈ s.maskBytes, k = 1) →
      t.outBytes = s.inBytes.map fun b => ~~~ b) ∧
    ∀ u, u.params = s.params → u.inLen = t.outLen → u.inBytes = t.outBytes → u.maskLen = s.maskLen →
      u.maskBytes = s.maskBytes →
      ∃ v, exec .noise u = .next v ∧ EndsWithResult s.inBytes s.inLen.toNat 0 u v
end

