-- ==== Sys2Proof/Laws/Bits.lean ====
section
/-! SUPPORT. The laws of the bit and byte primitives of R15. -/

namespace Sys2Proof.Machine

theorem le_ceil8 (L : Nat) : L ≤ 8 * ceil8 L := by unfold ceil8; omega

theorem ceil8_lt (L : Nat) : 8 * ceil8 L < L + 8 := by unfold ceil8; omega

@[simp] theorem length_u8 (v : Nat) : (u8 v).length = 1 := rfl

@[simp] theorem length_leBytes (v k : Nat) : (leBytes v k).length = k := by
  induction k generalizing v with
  | zero => rfl
  | succ k ih => simp [leBytes, ih]

@[simp] theorem length_u16le (v : Nat) : (u16le v).length = 2 := length_leBytes v 2
@[simp] theorem length_u32le (v : Nat) : (u32le v).length = 4 := length_leBytes v 4
@[simp] theorem length_u32be (v : Nat) : (u32be v).length = 4 := by simp [u32be]

/-- `from_le` undoes `le_bytes` for every value that fits (R15). -/
theorem fromLE_leBytes (v k : Nat) (h : v < 256 ^ k) : fromLE (leBytes v k) = v := by
  induction k generalizing v with
  | zero => simp only [pow_zero] at h; simp only [leBytes, fromLE]; omega
  | succ k ih =>
    have hv : v / 256 < 256 ^ k := by rw [pow_succ] at h; omega
    simp only [leBytes, fromLE, ih _ hv, BitVec.toNat_ofNat]
    omega

theorem fromBE_u32be (v : Nat) (h : v < 2 ^ 32) : fromBE (u32be v) = v := by
  simp only [fromBE, u32be, List.reverse_reverse]
  exact fromLE_leBytes v 4 (by omega)

/-- A little-endian number of `k` bytes is below `256^k`. -/
theorem fromLE_lt (B : List Byte) : fromLE B < 256 ^ B.length := by
  induction B with
  | nil => simp [fromLE]
  | cons b B ih =>
    have hb := b.isLt
    simp only [fromLE, List.length_cons, pow_succ]
    omega

@[simp] theorem length_byteBits (b : Byte) : (byteBits b).length = 8 := rfl

@[simp] theorem unpack_nil : unpack [] = [] := rfl

@[simp] theorem unpack_cons (b : Byte) (B : List Byte) : unpack (b :: B) = byteBits b ++ unpack B := by
  simp [unpack]

theorem unpack_append (A B : List Byte) : unpack (A ++ B) = unpack A ++ unpack B := by simp [unpack]

@[simp] theorem length_unpack (B : List Byte) : (unpack B).length = 8 * B.length := by
  induction B with
  | nil => rfl
  | cons b B ih => simp [ih]; omega

theorem byteBits_getD (b : Byte) (i : Nat) (h : i < 8) : (byteBits b).getD i false = b.getLsbD (7 - i) := by
  interval_cases i <;> rfl

/-- `bit_at(B, i) = unpack(B)[i]` (R15). -/
theorem unpack_getD (B : List Byte) (i : Nat) : (unpack B).getD i false = bitAt B i := by
  induction B generalizing i with
  | nil => simp [bitAt]
  | cons b B ih =>
    by_cases h : i < 8
    · have h0 : i / 8 = 0 := by omega
      have h1 : i % 8 = i := by omega
      rw [unpack_cons, List.getD_append _ _ _ _ (by simpa using h), byteBits_getD b i h]
      simp [bitAt, h0, h1]
    · obtain ⟨j, rfl⟩ : ∃ j, i = j + 8 := ⟨i - 8, by omega⟩
      rw [unpack_cons, List.getD_append_right _ _ _ _ (by simp)]
      simp only [length_byteBits, Nat.add_sub_cancel, ih]
      simp [bitAt, Nat.add_div_right]

/-- The byte whose bits are those of `b` is `b`. -/
theorem bitsVal_byteBits (b : Byte) : BitVec.ofNat 8 (bitsVal (byteBits b)) = b := by
  revert b; decide

/-- The bits of the byte made of eight bits are those bits. -/
theorem byteBits_bitsVal (b0 b1 b2 b3 b4 b5 b6 b7 : Bool) :
    byteBits (BitVec.ofNat 8 (bitsVal [b0, b1, b2, b3, b4, b5, b6, b7])) = [b0, b1, b2, b3, b4, b5, b6, b7] := by
  revert b0 b1 b2 b3 b4 b5 b6 b7; decide

/-- Packing whole bytes gives them back. -/
@[simp] theorem packFull_unpack (B : List Byte) : packFull (unpack B) = B := by
  induction B with
  | nil => rfl
  | cons b B ih =>
    rw [unpack_cons]
    show BitVec.ofNat 8 (bitsVal (byteBits b)) :: packFull (unpack B) = b :: B
    rw [bitsVal_byteBits, ih]

/-- Unpacking what a whole number of bytes of bits packs to gives the bits back. -/
theorem unpack_packFull (S : List Bool) (k : Nat) (h : S.length = 8 * k) : unpack (packFull S) = S := by
  induction k generalizing S with
  | zero =>
    have : S = [] := List.eq_nil_of_length_eq_zero (by omega)
    subst this; rfl
  | succ k ih =>
    match S, h with
    | b0 :: b1 :: b2 :: b3 :: b4 :: b5 :: b6 :: b7 :: rest, h =>
      have hr : rest.length = 8 * k := by simp only [List.length_cons] at h; omega
      rw [packFull, unpack_cons, byteBits_bitsVal, ih rest hr]
      rfl
    | [], h => simp at h
    | [_], h => simp at h; omega
    | [_, _], h => simp at h; omega
    | [_, _, _], h => simp at h; omega
    | [_, _, _, _], h => simp at h; omega
    | [_, _, _, _, _], h => simp at h; omega
    | [_, _, _, _, _, _], h => simp at h; omega
    | [_, _, _, _, _, _, _], h => simp at h; omega

/-- The bits of a packed stream are the stream and its padding (R15, R64). -/
theorem unpack_pack (S : List Bool) (p : Bool) :
    unpack (pack S p) = S ++ List.replicate ((8 - S.length % 8) % 8) p := by
  refine unpack_packFull _ (ceil8 S.length) ?_
  simp only [List.length_append, List.length_replicate, ceil8]
  omega

/-- `pack(unpack(B), p) = B` (R15). -/
theorem pack_unpack (B : List Byte) (p : Bool) : pack (unpack B) p = B := by
  have h : (8 - (unpack B).length % 8) % 8 = 0 := by rw [length_unpack]; omega
  rw [pack, h]
  simp

/-- A packed stream has `ceil8` of its bits (R106, R157). -/
@[simp] theorem length_pack (S : List Bool) (p : Bool) : (pack S p).length = ceil8 S.length := by
  have h := congrArg List.length (unpack_pack S p)
  simp only [length_unpack, List.length_append, List.length_replicate] at h
  unfold ceil8
  omega

/-- Stream bit `i` of a packed stream (R64). -/
theorem bitAt_pack (S : List Bool) (p : Bool) (i : Nat) (h : i < S.length) :
    bitAt (pack S p) i = S.getD i false := by
  rw [← unpack_getD, unpack_pack, List.getD_append _ _ _ _ h]

@[simp] theorem length_cwBits (L v : Nat) : (cwBits L v).length = L := by simp [cwBits]

theorem cwBits_getD (L v t : Nat) (h : t < L) : (cwBits L v).getD t false = v.testBit (L - 1 - t) := by
  simp [cwBits, h]

theorem bitsVal_append (p q : List Bool) : bitsVal (p ++ q) = bitsVal p * 2 ^ q.length + bitsVal q := by
  have gen : ∀ (q : List Bool) (a : Nat), q.foldl (fun acc b => 2 * acc + b.toNat) a
      = a * 2 ^ q.length + q.foldl (fun acc b => 2 * acc + b.toNat) 0 := by
    intro q
    induction q with
    | nil => intro a; simp
    | cons b q ih =>
      intro a
      simp only [List.foldl_cons, List.length_cons]
      rw [ih (2 * a + b.toNat), ih (2 * 0 + b.toNat)]
      ring
  simp only [bitsVal, List.foldl_append]
  rw [gen]

@[simp] theorem bitsVal_nil : bitsVal [] = 0 := rfl

theorem bitsVal_cons (b : Bool) (p : List Bool) : bitsVal (b :: p) = b.toNat * 2 ^ p.length + bitsVal p := by
  have := bitsVal_append [b] p
  simpa [bitsVal] using this

/-- The value of a bit string fits its length. -/
theorem bitsVal_lt (p : List Bool) : bitsVal p < 2 ^ p.length := by
  induction p with
  | nil => simp
  | cons b p ih =>
    rw [bitsVal_cons, List.length_cons, pow_succ]
    have hb : b.toNat ≤ 1 := by cases b <;> simp
    have : b.toNat * 2 ^ p.length ≤ 1 * 2 ^ p.length := Nat.mul_le_mul_right _ hb
    omega

theorem cwBits_succ (L v : Nat) : cwBits (L + 1) v = v.testBit L :: cwBits L v := by
  simp only [cwBits, List.range_succ_eq_map, List.map_cons, List.map_map]
  congr 1
  apply List.map_congr_left
  intro i _
  simp only [Function.comp, Nat.succ_eq_add_one]
  congr 1
  omega

/-- The bits of a codeword depend on the low `L` bits of the value only. -/
theorem cwBits_add_mul (L a v : Nat) : cwBits L (a * 2 ^ L + v) = cwBits L v := by
  apply List.map_congr_left
  intro i hi
  have hi := List.mem_range.mp hi
  rw [← Nat.mod_add_div' v (2 ^ L), ← Nat.add_assoc]
  have e : ∀ c, (c * 2 ^ L + v % 2 ^ L).testBit (L - 1 - i) = (v % 2 ^ L).testBit (L - 1 - i) := by
    intro c
    rw [Nat.mul_comm, Nat.testBit_two_pow_mul_add _ (Nat.mod_lt _ (by positivity)), if_pos (by omega)]
  rw [show a * 2 ^ L + v % 2 ^ L + v / 2 ^ L * 2 ^ L = (a + v / 2 ^ L) * 2 ^ L + v % 2 ^ L by ring, e,
    Nat.add_comm, e]

/-- The codeword bits of the value of a path are the path (R136). -/
theorem cwBits_bitsVal (p : List Bool) : cwBits p.length (bitsVal p) = p := by
  induction p with
  | nil => rfl
  | cons b p ih =>
    have hlt := bitsVal_lt p
    rw [List.length_cons, cwBits_succ, bitsVal_cons, cwBits_add_mul, ih]
    congr 1
    rw [Nat.mul_comm, Nat.testBit_two_pow_mul_add _ hlt, if_neg (by omega)]
    cases b <;> simp

/-- A value that fits is the number its codeword bits write (R136). -/
theorem bitsVal_cwBits (L v : Nat) (h : v < 2 ^ L) : bitsVal (cwBits L v) = v := by
  induction L generalizing v with
  | zero => simp at h; subst h; rfl
  | succ L ih =>
    rw [cwBits_succ, bitsVal_cons, length_cwBits]
    have hm : v % 2 ^ L < 2 ^ L := Nat.mod_lt _ (by positivity)
    have hd : v / 2 ^ L < 2 := Nat.div_lt_of_lt_mul (by rw [pow_succ] at h; exact h)
    have e : cwBits L v = cwBits L (v % 2 ^ L) := by
      conv_lhs => rw [← Nat.mod_add_div' v (2 ^ L), Nat.add_comm]
      exact cwBits_add_mul L _ _
    have hb : (v.testBit L).toNat = v / 2 ^ L := by
      rw [Nat.testBit_eq_decide_div_mod_eq]
      have : v / 2 ^ L = 0 ∨ v / 2 ^ L = 1 := Nat.le_one_iff_eq_zero_or_eq_one.mp (Nat.lt_succ_iff.mp hd)
      rcases this with h | h <;> simp [h]
    rw [e, ih _ hm, hb]
    exact Nat.div_add_mod' v (2 ^ L)

end Sys2Proof.Machine
end

