-- ==== Sys2Proof/Laws/State.lean ====
section
/-! SUPPORT. One lemma per field per update of State, so that no later proof unfolds a record update. -/

namespace Sys2Proof.Machine

/-! The error entry (R240). -/

@[simp] theorem State.errorEntry_params (e : CmdError) (s : State) : (s.errorEntry e).params = s.params := rfl
@[simp] theorem State.errorEntry_cmd (e : CmdError) (s : State) : (s.errorEntry e).cmd = s.cmd := rfl
@[simp] theorem State.errorEntry_status (e : CmdError) (s : State) : (s.errorEntry e).status = s.status.failed := rfl
@[simp] theorem State.errorEntry_err (e : CmdError) (s : State) : (s.errorEntry e).err = e.cause.err := rfl
@[simp] theorem State.errorEntry_errInfo (e : CmdError) (s : State) : (s.errorEntry e).errInfo = BitVec.ofNat 64 e.info := rfl
@[simp] theorem State.errorEntry_inLen (e : CmdError) (s : State) : (s.errorEntry e).inLen = s.inLen := rfl
@[simp] theorem State.errorEntry_maskLen (e : CmdError) (s : State) : (s.errorEntry e).maskLen = s.maskLen := rfl
@[simp] theorem State.errorEntry_outLen (e : CmdError) (s : State) : (s.errorEntry e).outLen = 0 := rfl
@[simp] theorem State.errorEntry_srcLen (e : CmdError) (s : State) : (s.errorEntry e).srcLen = 0 := rfl
@[simp] theorem State.errorEntry_payloadLen (e : CmdError) (s : State) : (s.errorEntry e).payloadLen = 0 := rfl
@[simp] theorem State.errorEntry_wt (e : CmdError) (s : State) : (s.errorEntry e).wt = s.wt := rfl
@[simp] theorem State.errorEntry_inBuf (e : CmdError) (s : State) : (s.errorEntry e).inBuf = s.inBuf := rfl
@[simp] theorem State.errorEntry_maskBuf (e : CmdError) (s : State) : (s.errorEntry e).maskBuf = s.maskBuf := rfl
@[simp] theorem State.errorEntry_outBuf (e : CmdError) (s : State) : (s.errorEntry e).outBuf = [] := rfl
@[simp] theorem State.errorEntry_epoch (e : CmdError) (s : State) : (s.errorEntry e).epoch = s.epoch := rfl
@[simp] theorem State.errorEntry_outEpoch (e : CmdError) (s : State) : (s.errorEntry e).outEpoch = s.outEpoch + 1 := rfl
@[simp] theorem State.errorEntry_host (e : CmdError) (s : State) : (s.errorEntry e).host = s.host := rfl
@[simp] theorem State.errorEntry_reads (e : CmdError) (s : State) : (s.errorEntry e).reads = s.reads := rfl

/-! The normal completion (R241). -/

@[simp] theorem State.complete_params (r : Result) (s : State) : (s.complete r).params = s.params := rfl
@[simp] theorem State.complete_cmd (r : Result) (s : State) : (s.complete r).cmd = s.cmd := rfl
@[simp] theorem State.complete_status (r : Result) (s : State) : (s.complete r).status = s.status.completed := rfl
@[simp] theorem State.complete_err (r : Result) (s : State) : (s.complete r).err = 0 := rfl
@[simp] theorem State.complete_errInfo (r : Result) (s : State) : (s.complete r).errInfo = 0 := rfl
@[simp] theorem State.complete_inLen (r : Result) (s : State) : (s.complete r).inLen = s.inLen := rfl
@[simp] theorem State.complete_maskLen (r : Result) (s : State) : (s.complete r).maskLen = s.maskLen := rfl
@[simp] theorem State.complete_outLen (r : Result) (s : State) : (s.complete r).outLen = BitVec.ofNat 64 r.bytes.length := rfl
@[simp] theorem State.complete_srcLen (r : Result) (s : State) : (s.complete r).srcLen = BitVec.ofNat 64 r.srcLen := rfl
@[simp] theorem State.complete_payloadLen (r : Result) (s : State) : (s.complete r).payloadLen = BitVec.ofNat 64 r.payloadLen := rfl
@[simp] theorem State.complete_wt (r : Result) (s : State) : (s.complete r).wt = s.wt := rfl
@[simp] theorem State.complete_inBuf (r : Result) (s : State) : (s.complete r).inBuf = s.inBuf := rfl
@[simp] theorem State.complete_maskBuf (r : Result) (s : State) : (s.complete r).maskBuf = s.maskBuf := rfl
@[simp] theorem State.complete_outBuf (r : Result) (s : State) : (s.complete r).outBuf = Memory.ofBytes r.bytes := rfl
@[simp] theorem State.complete_epoch (r : Result) (s : State) : (s.complete r).epoch = s.epoch := rfl
@[simp] theorem State.complete_outEpoch (r : Result) (s : State) : (s.complete r).outEpoch = s.outEpoch + 1 := rfl
@[simp] theorem State.complete_host (r : Result) (s : State) : (s.complete r).host = s.host := rfl
@[simp] theorem State.complete_reads (r : Result) (s : State) : (s.complete r).reads = s.reads := rfl

/-! The start of a command (R93). -/

@[simp] theorem State.start_params (c : CmdWord) (s : State) : (s.start c).params = s.params := rfl
@[simp] theorem State.start_cmd (c : CmdWord) (s : State) : (s.start c).cmd = c := rfl
@[simp] theorem State.start_status (c : CmdWord) (s : State) : (s.start c).status = s.status.started := rfl
@[simp] theorem State.start_err (c : CmdWord) (s : State) : (s.start c).err = s.err := rfl
@[simp] theorem State.start_errInfo (c : CmdWord) (s : State) : (s.start c).errInfo = s.errInfo := rfl
@[simp] theorem State.start_inLen (c : CmdWord) (s : State) : (s.start c).inLen = s.inLen := rfl
@[simp] theorem State.start_maskLen (c : CmdWord) (s : State) : (s.start c).maskLen = s.maskLen := rfl
@[simp] theorem State.start_outLen (c : CmdWord) (s : State) : (s.start c).outLen = s.outLen := rfl
@[simp] theorem State.start_srcLen (c : CmdWord) (s : State) : (s.start c).srcLen = s.srcLen := rfl
@[simp] theorem State.start_payloadLen (c : CmdWord) (s : State) : (s.start c).payloadLen = s.payloadLen := rfl
@[simp] theorem State.start_wt (c : CmdWord) (s : State) : (s.start c).wt = s.wt := rfl
@[simp] theorem State.start_inBuf (c : CmdWord) (s : State) : (s.start c).inBuf = s.inBuf := rfl
@[simp] theorem State.start_maskBuf (c : CmdWord) (s : State) : (s.start c).maskBuf = s.maskBuf := rfl
@[simp] theorem State.start_outBuf (c : CmdWord) (s : State) : (s.start c).outBuf = s.outBuf := rfl
@[simp] theorem State.start_epoch (c : CmdWord) (s : State) : (s.start c).epoch = s.epoch := rfl
@[simp] theorem State.start_outEpoch (c : CmdWord) (s : State) : (s.start c).outEpoch = s.outEpoch := rfl
@[simp] theorem State.start_host (c : CmdWord) (s : State) : (s.start c).host = s.host := rfl
@[simp] theorem State.start_reads (c : CmdWord) (s : State) : (s.start c).reads = s.reads := rfl

/-! Reset (R42, R260). -/

@[simp] theorem State.resetBlock_params (s : State) : (s.resetBlock).params = s.params := rfl
@[simp] theorem State.resetBlock_cmd (s : State) : (s.resetBlock).cmd = 0 := rfl
@[simp] theorem State.resetBlock_status (s : State) : (s.resetBlock).status = Status.afterReset := rfl
@[simp] theorem State.resetBlock_err (s : State) : (s.resetBlock).err = 0 := rfl
@[simp] theorem State.resetBlock_errInfo (s : State) : (s.resetBlock).errInfo = 0 := rfl
@[simp] theorem State.resetBlock_inLen (s : State) : (s.resetBlock).inLen = 0 := rfl
@[simp] theorem State.resetBlock_maskLen (s : State) : (s.resetBlock).maskLen = 0 := rfl
@[simp] theorem State.resetBlock_outLen (s : State) : (s.resetBlock).outLen = 0 := rfl
@[simp] theorem State.resetBlock_srcLen (s : State) : (s.resetBlock).srcLen = 0 := rfl
@[simp] theorem State.resetBlock_payloadLen (s : State) : (s.resetBlock).payloadLen = 0 := rfl
@[simp] theorem State.resetBlock_wt (s : State) : (s.resetBlock).wt = Vector.replicate 256 0 := rfl
@[simp] theorem State.resetBlock_inBuf (s : State) : (s.resetBlock).inBuf = [] := rfl
@[simp] theorem State.resetBlock_maskBuf (s : State) : (s.resetBlock).maskBuf = [] := rfl
@[simp] theorem State.resetBlock_outBuf (s : State) : (s.resetBlock).outBuf = [] := rfl
@[simp] theorem State.resetBlock_epoch (s : State) : (s.resetBlock).epoch = s.epoch + 1 := rfl
@[simp] theorem State.resetBlock_outEpoch (s : State) : (s.resetBlock).outEpoch = s.outEpoch + 1 := rfl
@[simp] theorem State.resetBlock_host (s : State) : (s.resetBlock).host = s.host := rfl
@[simp] theorem State.resetBlock_reads (s : State) : (s.resetBlock).reads = s.reads := rfl

/-! Taking a host action off the list, and logging a read. -/

@[simp] theorem State.popHost_params (rest : List HostAction) (s : State) : (s.popHost rest).params = s.params := rfl
@[simp] theorem State.popHost_cmd (rest : List HostAction) (s : State) : (s.popHost rest).cmd = s.cmd := rfl
@[simp] theorem State.popHost_status (rest : List HostAction) (s : State) : (s.popHost rest).status = s.status := rfl
@[simp] theorem State.popHost_err (rest : List HostAction) (s : State) : (s.popHost rest).err = s.err := rfl
@[simp] theorem State.popHost_errInfo (rest : List HostAction) (s : State) : (s.popHost rest).errInfo = s.errInfo := rfl
@[simp] theorem State.popHost_inLen (rest : List HostAction) (s : State) : (s.popHost rest).inLen = s.inLen := rfl
@[simp] theorem State.popHost_maskLen (rest : List HostAction) (s : State) : (s.popHost rest).maskLen = s.maskLen := rfl
@[simp] theorem State.popHost_outLen (rest : List HostAction) (s : State) : (s.popHost rest).outLen = s.outLen := rfl
@[simp] theorem State.popHost_srcLen (rest : List HostAction) (s : State) : (s.popHost rest).srcLen = s.srcLen := rfl
@[simp] theorem State.popHost_payloadLen (rest : List HostAction) (s : State) : (s.popHost rest).payloadLen = s.payloadLen := rfl
@[simp] theorem State.popHost_wt (rest : List HostAction) (s : State) : (s.popHost rest).wt = s.wt := rfl
@[simp] theorem State.popHost_inBuf (rest : List HostAction) (s : State) : (s.popHost rest).inBuf = s.inBuf := rfl
@[simp] theorem State.popHost_maskBuf (rest : List HostAction) (s : State) : (s.popHost rest).maskBuf = s.maskBuf := rfl
@[simp] theorem State.popHost_outBuf (rest : List HostAction) (s : State) : (s.popHost rest).outBuf = s.outBuf := rfl
@[simp] theorem State.popHost_epoch (rest : List HostAction) (s : State) : (s.popHost rest).epoch = s.epoch := rfl
@[simp] theorem State.popHost_outEpoch (rest : List HostAction) (s : State) : (s.popHost rest).outEpoch = s.outEpoch := rfl
@[simp] theorem State.popHost_host (rest : List HostAction) (s : State) : (s.popHost rest).host = rest := rfl
@[simp] theorem State.popHost_reads (rest : List HostAction) (s : State) : (s.popHost rest).reads = s.reads := rfl

@[simp] theorem State.logRead_params (v : Nat) (s : State) : (s.logRead v).params = s.params := rfl
@[simp] theorem State.logRead_cmd (v : Nat) (s : State) : (s.logRead v).cmd = s.cmd := rfl
@[simp] theorem State.logRead_status (v : Nat) (s : State) : (s.logRead v).status = s.status := rfl
@[simp] theorem State.logRead_err (v : Nat) (s : State) : (s.logRead v).err = s.err := rfl
@[simp] theorem State.logRead_errInfo (v : Nat) (s : State) : (s.logRead v).errInfo = s.errInfo := rfl
@[simp] theorem State.logRead_inLen (v : Nat) (s : State) : (s.logRead v).inLen = s.inLen := rfl
@[simp] theorem State.logRead_maskLen (v : Nat) (s : State) : (s.logRead v).maskLen = s.maskLen := rfl
@[simp] theorem State.logRead_outLen (v : Nat) (s : State) : (s.logRead v).outLen = s.outLen := rfl
@[simp] theorem State.logRead_srcLen (v : Nat) (s : State) : (s.logRead v).srcLen = s.srcLen := rfl
@[simp] theorem State.logRead_payloadLen (v : Nat) (s : State) : (s.logRead v).payloadLen = s.payloadLen := rfl
@[simp] theorem State.logRead_wt (v : Nat) (s : State) : (s.logRead v).wt = s.wt := rfl
@[simp] theorem State.logRead_inBuf (v : Nat) (s : State) : (s.logRead v).inBuf = s.inBuf := rfl
@[simp] theorem State.logRead_maskBuf (v : Nat) (s : State) : (s.logRead v).maskBuf = s.maskBuf := rfl
@[simp] theorem State.logRead_outBuf (v : Nat) (s : State) : (s.logRead v).outBuf = s.outBuf := rfl
@[simp] theorem State.logRead_epoch (v : Nat) (s : State) : (s.logRead v).epoch = s.epoch := rfl
@[simp] theorem State.logRead_outEpoch (v : Nat) (s : State) : (s.logRead v).outEpoch = s.outEpoch := rfl
@[simp] theorem State.logRead_host (v : Nat) (s : State) : (s.logRead v).host = s.host := rfl
@[simp] theorem State.logRead_reads (v : Nat) (s : State) : (s.logRead v).reads = v :: s.reads := rfl

/-! The word placed for the next step. -/

@[simp] theorem State.awaiting_params (c : CmdWord) (s : State) : (s.awaiting c).params = s.params := rfl
@[simp] theorem State.awaiting_cmd (c : CmdWord) (s : State) : (s.awaiting c).cmd = c := rfl
@[simp] theorem State.awaiting_status (c : CmdWord) (s : State) : (s.awaiting c).status = s.status.started := rfl
@[simp] theorem State.awaiting_err (c : CmdWord) (s : State) : (s.awaiting c).err = s.err := rfl
@[simp] theorem State.awaiting_errInfo (c : CmdWord) (s : State) : (s.awaiting c).errInfo = s.errInfo := rfl
@[simp] theorem State.awaiting_inLen (c : CmdWord) (s : State) : (s.awaiting c).inLen = s.inLen := rfl
@[simp] theorem State.awaiting_maskLen (c : CmdWord) (s : State) : (s.awaiting c).maskLen = s.maskLen := rfl
@[simp] theorem State.awaiting_outLen (c : CmdWord) (s : State) : (s.awaiting c).outLen = s.outLen := rfl
@[simp] theorem State.awaiting_srcLen (c : CmdWord) (s : State) : (s.awaiting c).srcLen = s.srcLen := rfl
@[simp] theorem State.awaiting_payloadLen (c : CmdWord) (s : State) : (s.awaiting c).payloadLen = s.payloadLen := rfl
@[simp] theorem State.awaiting_wt (c : CmdWord) (s : State) : (s.awaiting c).wt = s.wt := rfl
@[simp] theorem State.awaiting_inBuf (c : CmdWord) (s : State) : (s.awaiting c).inBuf = s.inBuf := rfl
@[simp] theorem State.awaiting_maskBuf (c : CmdWord) (s : State) : (s.awaiting c).maskBuf = s.maskBuf := rfl
@[simp] theorem State.awaiting_outBuf (c : CmdWord) (s : State) : (s.awaiting c).outBuf = s.outBuf := rfl
@[simp] theorem State.awaiting_epoch (c : CmdWord) (s : State) : (s.awaiting c).epoch = s.epoch := rfl
@[simp] theorem State.awaiting_outEpoch (c : CmdWord) (s : State) : (s.awaiting c).outEpoch = s.outEpoch := rfl
@[simp] theorem State.awaiting_host (c : CmdWord) (s : State) : (s.awaiting c).host = .wait :: s.host := rfl
@[simp] theorem State.awaiting_reads (c : CmdWord) (s : State) : (s.awaiting c).reads = s.reads := rfl

/-! STATUS. -/

@[simp] theorem Status.started_state (st : Status) : st.started.state = .busy := rfl
@[simp] theorem Status.started_faultLatch (st : Status) : st.started.faultLatch = st.faultLatch := rfl
@[simp] theorem Status.completed_state (st : Status) : st.completed.state = .done := rfl
@[simp] theorem Status.completed_faultLatch (st : Status) : st.completed.faultLatch = st.faultLatch := rfl
@[simp] theorem Status.failed_state (st : Status) : st.failed.state = .error := rfl
@[simp] theorem Status.failed_faultLatch (st : Status) : st.failed.faultLatch = true := rfl
@[simp] theorem Status.afterReset_state : Status.afterReset.state = .idle := rfl
@[simp] theorem Status.afterReset_faultLatch : Status.afterReset.faultLatch = false := rfl

end Sys2Proof.Machine
end

