-- ==== Sys2Proof/Laws/Memory.lean ====
section
/-! SUPPORT. The laws of the buffers: read after write, and that every operation keeps the canonical form. -/

namespace Sys2Proof.Machine

/-- A read of the cell just written gives the byte written. -/
@[simp] theorem Memory.read?_write_same (M : Memory) (i : Nat) (v : Byte) :
    Memory.read? (Memory.write M i v) i = some v := by
  induction M with
  | nil => simp [Memory.write, Memory.read?]
  | cons e M ih =>
    obtain ⟨j, b⟩ := e
    simp only [Memory.write]
    split
    · simp [Memory.read?]
    · split
      · simp [Memory.read?]
      · simp only [Memory.read?, ih]
        rw [if_neg (by omega)]

/-- A write leaves every other cell alone. -/
theorem Memory.read?_write_other (M : Memory) (i j : Nat) (v : Byte) (h : j ≠ i) :
    Memory.read? (Memory.write M i v) j = Memory.read? M j := by
  induction M with
  | nil => simp [Memory.write, Memory.read?, Ne.symm h]
  | cons e M ih =>
    obtain ⟨k, b⟩ := e
    simp only [Memory.write]
    split
    · simp [Memory.read?, Ne.symm h]
    · split
      · rename_i hik
        subst hik
        simp [Memory.read?, Ne.symm h]
      · simp only [Memory.read?, ih]

/-- The canonical form as a fact about the list of indices. -/
theorem Memory.wf_iff (M : Memory) : Memory.wf M = true ↔ (M.map Prod.fst).Pairwise (· < ·) := by
  induction M with
  | nil => simp [Memory.wf]
  | cons e M ih =>
    obtain ⟨i, a⟩ := e
    match M, ih with
    | [], _ => simp [Memory.wf]
    | (j, b) :: M', ih =>
      simp only [Memory.wf, Bool.and_eq_true, decide_eq_true_eq, ih, List.map_cons, List.pairwise_cons,
        List.mem_cons, forall_eq_or_imp]
      constructor
      · rintro ⟨hij, hj, hM⟩
        exact ⟨⟨hij, fun k hk => lt_trans hij (hj k hk)⟩, hj, hM⟩
      · rintro ⟨⟨hij, -⟩, hj, hM⟩
        exact ⟨hij, hj, hM⟩

/-- The cells a write lists are the old ones and the one written. -/
theorem Memory.mem_write {M : Memory} {i : Nat} {v : Byte} {e : Host.Cell} (h : e ∈ Memory.write M i v) :
    e = (i, v) ∨ e ∈ M := by
  induction M with
  | nil => simpa [Memory.write] using h
  | cons c M ih =>
    obtain ⟨j, b⟩ := c
    simp only [Memory.write] at h
    split at h
    · simpa using h
    · split at h
      · rcases List.mem_cons.mp h with h | h
        · exact .inl h
        · exact .inr (List.mem_cons_of_mem _ h)
      · rcases List.mem_cons.mp h with h | h
        · exact .inr (h ▸ List.mem_cons_self)
        · exact (ih h).imp_right (List.mem_cons_of_mem _)

/-- A write keeps the canonical form. -/
theorem Memory.wf_write (M : Memory) (i : Nat) (v : Byte) (h : Memory.wf M = true) :
    Memory.wf (Memory.write M i v) = true := by
  rw [Memory.wf_iff] at h ⊢
  induction M with
  | nil => simp [Memory.write]
  | cons c M ih =>
    obtain ⟨j, b⟩ := c
    simp only [List.map_cons, List.pairwise_cons] at h
    obtain ⟨hj, hM⟩ := h
    simp only [Memory.write]
    split
    · rename_i hij
      simp only [List.map_cons, List.pairwise_cons, List.mem_cons, forall_eq_or_imp]
      exact ⟨⟨hij, fun k hk => lt_trans hij (hj k hk)⟩, hj, hM⟩
    · split
      · rename_i hij
        subst hij
        simp only [List.map_cons, List.pairwise_cons]
        exact ⟨hj, hM⟩
      · simp only [List.map_cons, List.pairwise_cons]
        refine ⟨?_, ih hM⟩
        intro k hk
        obtain ⟨e, he, rfl⟩ := List.mem_map.mp hk
        rcases Memory.mem_write he with rfl | he
        · show j < i
          omega
        · exact hj _ (List.mem_map_of_mem he)

/-- A buffer made from bytes lists exactly their indices. -/
theorem Memory.fst_ofBytesFrom (base : Nat) (B : List Byte) :
    (Memory.ofBytesFrom base B).map Prod.fst = List.range' base B.length := by
  induction B generalizing base with
  | nil => rfl
  | cons b B ih => simp [Memory.ofBytesFrom, ih, List.range'_succ]

@[simp] theorem Memory.fst_ofBytes (B : List Byte) :
    (Memory.ofBytes B).map Prod.fst = List.range B.length := by
  rw [Memory.ofBytes, Memory.fst_ofBytesFrom, List.range_eq_range']

@[simp] theorem Memory.wf_ofBytes (B : List Byte) : Memory.wf (Memory.ofBytes B) = true := by
  rw [Memory.wf_iff, Memory.fst_ofBytes]
  exact List.pairwise_lt_range

theorem Memory.read?_ofBytesFrom (base : Nat) (B : List Byte) (i : Nat) :
    Memory.read? (Memory.ofBytesFrom base B) (base + i) = B[i]? := by
  induction B generalizing base i with
  | nil => rfl
  | cons b B ih =>
    cases i with
    | zero => simp [Memory.ofBytesFrom, Memory.read?]
    | succ i =>
      simp only [Memory.ofBytesFrom, Memory.read?]
      rw [if_neg (by omega), show base + (i + 1) = base + 1 + i by omega, ih]
      simp

/-- Cell `i` of a buffer made from bytes holds byte `i`, and no cell beyond them is listed. -/
@[simp] theorem Memory.read?_ofBytes (B : List Byte) (i : Nat) :
    Memory.read? (Memory.ofBytes B) i = B[i]? := by
  have h := Memory.read?_ofBytesFrom 0 B i
  rw [Nat.zero_add] at h
  exact h

/-- Two states that hold the same cells of IN, of the same reset, read the same bytes. -/
theorem State.inBytes_congr {s t : State} (h1 : t.inBuf = s.inBuf) (h2 : t.epoch = s.epoch)
    (h3 : t.inLen = s.inLen) : t.inBytes = s.inBytes := by
  have : t.inByte = s.inByte := by funext i; simp [State.inByte, h1, h2]
  simp [State.inBytes, this, h3]

theorem State.maskBytes_congr {s t : State} (h1 : t.maskBuf = s.maskBuf) (h2 : t.epoch = s.epoch)
    (h3 : t.maskLen = s.maskLen) : t.maskBytes = s.maskBytes := by
  have : t.maskByte = s.maskByte := by funext i; simp [State.maskByte, h1, h2]
  simp [State.maskBytes, this, h3]

@[simp] theorem State.length_inBytes (s : State) : s.inBytes.length = s.inLen.toNat := by
  simp [State.inBytes]

@[simp] theorem State.length_maskBytes (s : State) : s.maskBytes.length = s.maskLen.toNat := by
  simp [State.maskBytes]

@[simp] theorem State.length_outBytes (s : State) : s.outBytes.length = s.outLen.toNat := by
  simp [State.outBytes]

/-- After a completion OUT holds the result, when its length fits the register OUT_LEN (R241). -/
theorem State.outBytes_complete (r : Result) (s : State) (h : r.bytes.length < 2 ^ 64) :
    (s.complete r).outBytes = r.bytes := by
  have hl : (BitVec.ofNat 64 r.bytes.length).toNat = r.bytes.length := by
    rw [BitVec.toNat_ofNat]; exact Nat.mod_eq_of_lt h
  apply List.ext_getElem
  · simp [State.outBytes, hl]
  · intro i h1 h2
    simp [State.outBytes, State.outByte, h2]

/-- After an error OUT is empty (R240). -/
@[simp] theorem State.outBytes_errorEntry (e : CmdError) (s : State) : (s.errorEntry e).outBytes = [] := by
  simp [State.outBytes]

end Sys2Proof.Machine
end

