-- ==== Sys2Proof/Laws/Ops.lean ====
section
/-! SUPPORT. What the shared operations do: the capacity tests, the two ends of a command, and the frame
that all six commands share. -/

namespace Sys2Proof.Machine

@[simp] theorem outputTest_error (p : Params) (e : CmdError) : outputTest p (.error e) = .error e := rfl

theorem outputTest_fits (p : Params) (r : Result) (h : overCap p.outCap r.bytes.length = false) :
    outputTest p (.ok r) = .ok r := by simp [outputTest, h]

theorem outputTest_over (p : Params) (r : Result) (h : overCap p.outCap r.bytes.length = true) :
    outputTest p (.ok r) = raise .outputCapacity r.bytes.length := by simp [outputTest, h]

theorem inputTest_fits (s : State) (o : CmdOutcome) (h : overCap s.params.inCap s.inLen.toNat = false) :
    inputTest s o = o := by simp [inputTest, h]

theorem inputTest_over (s : State) (o : CmdOutcome) (h : overCap s.params.inCap s.inLen.toNat = true) :
    inputTest s o = raise .inputCapacity s.inLen.toNat := by simp [inputTest, h]

theorem maskTest_fits (s : State) (o : CmdOutcome) (h : overCap s.params.maskCap s.maskLen.toNat = false) :
    maskTest s o = o := by simp [maskTest, h]

theorem maskTest_over (s : State) (o : CmdOutcome) (h : overCap s.params.maskCap s.maskLen.toNat = true) :
    maskTest s o = raise .inputCapacity s.maskLen.toNat := by simp [maskTest, h]

@[simp] theorem State.settle_error (s : State) (e : CmdError) : s.settle (.error e) = s.errorEntry e := rfl
@[simp] theorem State.settle_ok (s : State) (r : Result) : s.settle (.ok r) = s.complete r := rfl

/-- Every end of a command keeps its inputs. -/
theorem State.settle_keeps (s : State) (o : CmdOutcome) : InputsKept s (s.settle o) := by
  cases o <;> exact ⟨rfl, rfl, rfl, rfl, rfl, fun _ => rfl, fun _ => rfl, rfl, rfl, rfl, rfl⟩

/-- An error outcome is the error entry. -/
theorem State.finish_error (s : State) (e : CmdError) : s.finish (.error e) = .next (s.errorEntry e) := rfl

theorem State.errorEntry_ends (s : State) (c : Cause) (info : Nat) :
    EndsWithError c info s (s.errorEntry { cause := c, info := info }) :=
  ⟨rfl, rfl, rfl, rfl, rfl, rfl, rfl, s.settle_keeps (.error _)⟩

/-- A raised error ends the command in the error state of R240. -/
theorem State.finish_raise (s : State) (c : Cause) (info : Nat) :
    ∃ t, s.finish (raise c info) = .next t ∧ EndsWithError c info s t :=
  ⟨_, rfl, s.errorEntry_ends c info⟩

/-- A result that fits OUT ends the command in the state of R241. -/
theorem State.finish_ok (s : State) (r : Result) (h : overCap s.params.outCap r.bytes.length = false) :
    s.finish (.ok r) = .next (s.complete r) := by
  simp [State.finish, outputTest_fits _ _ h]

/-- A result that does not fit OUT ends the command with OUTPUT_CAPACITY (R80, R238). -/
theorem State.finish_over (s : State) (r : Result) (h : overCap s.params.outCap r.bytes.length = true) :
    s.finish (.ok r) = .next (s.errorEntry { cause := .outputCapacity, info := r.bytes.length }) := by
  simp [State.finish, outputTest_over _ _ h, raise]

theorem State.complete_ends (s : State) (r : Result) (hb : r.bytes.length < 2 ^ 64) (hs : r.srcLen < 2 ^ 64)
    (hp : r.payloadLen < 2 ^ 64) : EndsWithResult r.bytes r.srcLen r.payloadLen s (s.complete r) where
  state := rfl
  faultLatch := rfl
  err := rfl
  errInfo := rfl
  outLen := by simpa using Nat.mod_eq_of_lt hb
  outBytes := State.outBytes_complete r s hb
  srcLen := by simpa using Nat.mod_eq_of_lt hs
  payloadLen := by simpa using Nat.mod_eq_of_lt hp
  inputs := s.settle_keeps (.ok r)

/-- Every command is the end of some outcome: exec never faults and never refuses. -/
theorem exec_eq_settle (i : Instr) (s : State) : ∃ o, exec i s = .next (s.settle (outputTest s.params o)) := by
  cases i <;> exact ⟨_, rfl⟩

/-- What a command's end can be: the error entry, or the completion with a result that fits OUT. -/
theorem exec_cases (i : Instr) (s t : State) (h : exec i s = .next t) :
    (∃ e, t = s.errorEntry e) ∨
      ∃ r, overCap s.params.outCap r.bytes.length = false ∧ t = s.complete r := by
  obtain ⟨o, ho⟩ := exec_eq_settle i s
  rw [ho] at h
  injection h with h
  subst h
  match o with
  | .error e => exact .inl ⟨e, rfl⟩
  | .ok r =>
    cases hc : overCap s.params.outCap r.bytes.length with
    | false => exact .inr ⟨r, hc, by simp [outputTest_fits _ _ hc]⟩
    | true => exact .inl ⟨_, by simp [outputTest_over _ _ hc, raise]; rfl⟩

end Sys2Proof.Machine
end

