-- ==== Sys2Proof/Laws/Codebook.lean ====
section
/-! SUPPORT. The merge of the builder: what one pass does to the pool, that the tree's leaves are the
participants, and what a Codebook's entries look like. -/

namespace Sys2Proof.Machine

/-- The symbols at the leaves of a tree, from child 0 to child 1. -/
def Tree.leaves : Tree → List Symbol
  | .leaf s => [s]
  | .node c0 c1 => c0.leaves ++ c1.leaves

theorem Tree.leaves_ne_nil (t : Tree) : t.leaves ≠ [] := by
  induction t with
  | leaf s => simp [Tree.leaves]
  | node c0 c1 ih0 _ => simp [Tree.leaves, ih0]

/-- Taking the least node out of a pool: the pool is that node and the rest. -/
theorem takeLeast_perm {P R : List Node} {a : Node} (h : takeLeast P = some (a, R)) : P.Perm (a :: R) := by
  induction P generalizing a R with
  | nil => simp [takeLeast] at h
  | cons x P ih =>
    simp only [takeLeast] at h
    split at h
    · rename_i hn
      have : P = [] := by
        cases P with
        | nil => rfl
        | cons y P' =>
          simp only [takeLeast] at hn
          split at hn <;> [simp at hn; (split at hn <;> simp at hn)]
      subst this
      simp only [Option.some.injEq, Prod.mk.injEq] at h
      rw [← h.1, ← h.2]
    · rename_i b R' hb
      split at h
      · simp only [Option.some.injEq, Prod.mk.injEq] at h
        rw [← h.1, ← h.2]
        exact ((ih hb).cons x).trans (List.Perm.swap b x R')
      · simp only [Option.some.injEq, Prod.mk.injEq] at h
        rw [← h.1, ← h.2]

theorem takeLeast_isSome {P : List Node} (h : P ≠ []) : ∃ a R, takeLeast P = some (a, R) := by
  cases P with
  | nil => exact absurd rfl h
  | cons x P =>
    simp only [takeLeast]
    split
    · exact ⟨_, _, rfl⟩
    · split <;> exact ⟨_, _, rfl⟩

theorem Node.lt_iff (a b : Node) :
    a.lt b = true ↔ a.weight < b.weight ∨ a.weight = b.weight ∧ a.minsym < b.minsym := by
  simp [Node.lt]

/-- No node of a pool has a lesser key than the one taken (R134). -/
theorem takeLeast_least {P R : List Node} {a : Node} (h : takeLeast P = some (a, R)) :
    ∀ x ∈ P, x.lt a = false := by
  have irr : ∀ x : Node, x.lt x = false := fun x => by simp [Node.lt]
  have key : ∀ x y z : Node, x.lt z = true → y.lt z = false → y.lt x = false := by
    intro x y z hxz hyz
    rw [Bool.eq_false_iff, ne_eq, Node.lt_iff] at hyz ⊢
    rw [Node.lt_iff] at hxz
    omega
  have key2 : ∀ x y z : Node, y.lt x = false → z.lt y = false → z.lt x = false := by
    intro x y z h1 h2
    rw [Bool.eq_false_iff, ne_eq, Node.lt_iff] at h1 h2 ⊢
    omega
  induction P generalizing a R with
  | nil => simp [takeLeast] at h
  | cons x P ih =>
    simp only [takeLeast] at h
    split at h
    · rename_i hn
      have hP : P = [] := by
        by_contra hP
        obtain ⟨b, R', hb⟩ := takeLeast_isSome hP
        rw [hb] at hn
        simp at hn
      subst hP
      simp only [Option.some.injEq, Prod.mk.injEq] at h
      rw [← h.1]
      simpa using irr x
    · rename_i b R' hb
      split at h
      · rename_i hlt
        simp only [Option.some.injEq, Prod.mk.injEq] at h
        rw [← h.1]
        intro y hy
        rcases List.mem_cons.mp hy with rfl | hy
        · exact key _ _ _ hlt (irr _)
        · exact ih hb y hy
      · rename_i hlt
        simp only [Option.some.injEq, Prod.mk.injEq] at h
        rw [← h.1]
        intro y hy
        rcases List.mem_cons.mp hy with rfl | hy
        · exact irr _
        · exact key2 _ _ _ (by simpa using hlt) (ih hb y hy)

/-- One pass on a pool of two or more nodes joins the two least (R133). -/
theorem mergeOnce_spec {P : List Node} (h : 2 ≤ P.length) :
    ∃ a b R, P.Perm (a :: b :: R) ∧ mergeOnce P = a.join b :: R ∧ (∀ x ∈ P, x.lt a = false) ∧
      ∀ x ∈ b :: R, x.lt b = false := by
  obtain ⟨a, P1, ha⟩ := takeLeast_isSome (P := P) (by rintro rfl; simp at h)
  have p1 := takeLeast_perm ha
  have l1 : P1 ≠ [] := by
    rintro rfl
    have := p1.length_eq
    simp only [List.length_cons, List.length_nil] at this
    omega
  obtain ⟨b, P2, hb⟩ := takeLeast_isSome l1
  have p2 := takeLeast_perm hb
  refine ⟨a, b, P2, p1.trans (p2.cons a), by simp [mergeOnce, ha, hb], takeLeast_least ha, ?_⟩
  intro x hx
  exact takeLeast_least hb x (p2.mem_iff.mpr hx)

/-- The symbols at the leaves of all the nodes of a pool. -/
def poolLeaves (P : List Node) : List Symbol := P.flatMap fun n => n.tree.leaves

theorem length_mergeOnce {P : List Node} (h : 2 ≤ P.length) : (mergeOnce P).length = P.length - 1 := by
  obtain ⟨a, b, R, hp, hm, -, -⟩ := mergeOnce_spec h
  have := hp.length_eq
  simp only [List.length_cons] at this
  rw [hm, List.length_cons]
  omega

/-- A pass keeps the leaves (R133). -/
theorem poolLeaves_mergeOnce {P : List Node} (h : 2 ≤ P.length) : (poolLeaves (mergeOnce P)).Perm (poolLeaves P) := by
  obtain ⟨a, b, R, hp, hm, -, -⟩ := mergeOnce_spec h
  have e : poolLeaves (mergeOnce P) = poolLeaves (a :: b :: R) := by
    rw [hm]; simp [poolLeaves, Node.join, Tree.leaves]
  rw [e]
  exact (hp.flatMap_right _).symm

/-- After `n` passes on a pool of more than `n` nodes, `n` fewer are left, with the same leaves. -/
theorem mergeTimes_spec (n : Nat) (P : List Node) (h : n < P.length) :
    (mergeTimes n P).length = P.length - n ∧ (poolLeaves (mergeTimes n P)).Perm (poolLeaves P) := by
  induction n generalizing P with
  | zero => exact ⟨rfl, List.Perm.refl _⟩
  | succ n ih =>
    have h2 : 2 ≤ P.length := by omega
    have hl := length_mergeOnce h2
    obtain ⟨i1, i2⟩ := ih (mergeOnce P) (by omega)
    exact ⟨by rw [mergeTimes, i1, hl]; omega, i2.trans (poolLeaves_mergeOnce h2)⟩

theorem poolLeaves_ofLeaf (w : Symbol → Nat) (A : List Symbol) : poolLeaves (A.map (Node.ofLeaf w)) = A := by
  induction A with
  | nil => rfl
  | cons s A ih =>
    show (Node.ofLeaf w s).tree.leaves ++ poolLeaves (A.map (Node.ofLeaf w)) = s :: A
    rw [ih]
    rfl

/-- The tree of a non-empty list of participants exists, and its leaves are the participants (R133). -/
theorem codeTree_spec (w : Symbol → Nat) (A : List Symbol) (h : A ≠ []) :
    ∃ t, codeTree w A = some t ∧ t.leaves.Perm A := by
  have hlen : 0 < A.length := List.length_pos_iff.mpr h
  obtain ⟨i1, i2⟩ := mergeTimes_spec (A.length - 1) (A.map (Node.ofLeaf w)) (by simp; omega)
  rw [List.length_map] at i1
  obtain ⟨r, hr⟩ : ∃ r, mergeTimes (A.length - 1) (A.map (Node.ofLeaf w)) = [r] :=
    List.length_eq_one_iff.mp (by omega)
  refine ⟨r.tree, by simp [codeTree, hr], ?_⟩
  rw [hr, poolLeaves_ofLeaf] at i2
  simpa [poolLeaves] using i2

/-- A symbol has a path exactly when it is a leaf, and the path is shorter than the leaves are many (R143). -/
theorem Tree.path?_isSome (t : Tree) (s : Symbol) (h : s ∈ t.leaves) :
    ∃ p, t.path? s = some p ∧ p.length < t.leaves.length := by
  induction t with
  | leaf u =>
    simp only [Tree.leaves, List.mem_singleton] at h
    exact ⟨[], by simp [Tree.path?, h], by simp [Tree.leaves]⟩
  | node c0 c1 ih0 ih1 =>
    have n0 := List.length_pos_iff.mpr c0.leaves_ne_nil
    have n1 := List.length_pos_iff.mpr c1.leaves_ne_nil
    simp only [Tree.leaves, List.mem_append] at h
    simp only [Tree.path?, Tree.leaves, List.length_append]
    cases hc : c0.path? s with
    | some p =>
      refine ⟨_, rfl, ?_⟩
      by_cases h0 : s ∈ c0.leaves
      · obtain ⟨q, hq, hl⟩ := ih0 h0
        rw [hc] at hq
        cases hq
        simp only [List.length_cons]
        omega
      · exfalso
        have nomem : ∀ (t : Tree) (q : List Bool), t.path? s = some q → s ∈ t.leaves := by
          intro t
          induction t with
          | leaf u => intro q hq; simp only [Tree.path?] at hq; split at hq <;> simp_all [Tree.leaves]
          | node a b iha ihb =>
            intro q hq
            simp only [Tree.path?] at hq
            simp only [Tree.leaves, List.mem_append]
            cases ha : a.path? s with
            | some p => exact .inl (iha p ha)
            | none =>
              cases hb : b.path? s with
              | some p => exact .inr (ihb p hb)
              | none => simp [ha, hb] at hq
        exact h0 (nomem c0 p hc)
    | none =>
      have h1 : s ∈ c1.leaves := by
        rcases h with h | h
        · obtain ⟨q, hq, -⟩ := ih0 h
          rw [hc] at hq
          simp at hq
        · exact h
      obtain ⟨q, hq, hl⟩ := ih1 h1
      refine ⟨true :: q, by simp [hq], ?_⟩
      simp only [List.length_cons]
      omega

theorem mem_allSymbols (s : Symbol) : s ∈ allSymbols := by
  refine List.mem_map.mpr ⟨s.toNat, List.mem_range.mpr s.isLt, ?_⟩
  simp

theorem nodup_allSymbols : allSymbols.Nodup := by
  refine List.nodup_range.map_on fun i hi j hj h => ?_
  have hi := List.mem_range.mp hi
  have hj := List.mem_range.mp hj
  have := congrArg BitVec.toNat h
  simp only [BitVec.toNat_ofNat] at this
  omega

@[simp] theorem mem_participants (w : Symbol → Nat) (s : Symbol) : s ∈ participants w ↔ 0 < w s := by
  simp [participants, mem_allSymbols]

theorem nodup_participants (w : Symbol → Nat) : (participants w).Nodup := nodup_allSymbols.filter _

theorem length_participants_le (w : Symbol → Nat) : (participants w).length ≤ 256 := by
  have := List.length_filter_le (fun s => decide (0 < w s)) allSymbols
  simpa [participants, allSymbols] using this

/-- What the builder answers (R131, R132, R133, R137): the error on an empty table, the lone codeword for one
participant, and otherwise one entry per participant, its codeword the path of its leaf. -/
theorem codebook_cases (w : Symbol → Nat) :
    (participants w = [] ∧ codebook w = raise .emptyWeightTable 0) ∨
    (∃ s, participants w = [s] ∧ codebook w = .ok [(s, { len := 1, val := 0 })]) ∨
    (2 ≤ (participants w).length ∧ ∃ t, codeTree w (participants w) = some t ∧
      t.leaves.Perm (participants w) ∧
      codebook w = .ok ((participants w).map fun s => (s, t.codeword s))) := by
  unfold codebook
  match hA : participants w with
  | [] => exact .inl ⟨rfl, rfl⟩
  | [s] => exact .inr (.inl ⟨s, rfl, rfl⟩)
  | a :: b :: A =>
    refine .inr (.inr ⟨by simp, ?_⟩)
    obtain ⟨t, ht, hp⟩ := codeTree_spec w (a :: b :: A) (by simp)
    exact ⟨t, ht, hp, by simp [ht]⟩

/-- The symbols of a Codebook are the participants, in ascending order (R131). -/
theorem codebook_symbols {w : Symbol → Nat} {cb : Codebook} (h : codebook w = .ok cb) :
    cb.map Prod.fst = participants w := by
  rcases codebook_cases w with ⟨hA, hc⟩ | ⟨s, hA, hc⟩ | ⟨-, t, -, -, hc⟩
  · rw [hc] at h; simp [raise] at h
  · rw [hc] at h; cases h; simp [hA]
  · rw [hc] at h; cases h; simp [Function.comp_def]

/-- A table with a positive weight has a Codebook. -/
theorem codebook_isOk {w : Symbol → Nat} (s : Symbol) (h : 0 < w s) : ∃ cb, codebook w = .ok cb := by
  rcases codebook_cases w with ⟨hA, -⟩ | ⟨_, -, hc⟩ | ⟨-, t, -, -, hc⟩
  · have := (mem_participants w s).mpr h
    simp [hA] at this
  · exact ⟨_, hc⟩
  · exact ⟨_, hc⟩

/-- Every Codeword has a length of 1 to 255 and a value that fits it (R143, R18). -/
theorem codebook_codeword {w : Symbol → Nat} {cb : Codebook} (h : codebook w = .ok cb) :
    ∀ e ∈ cb, 1 ≤ e.2.len ∧ e.2.len ≤ 255 ∧ e.2.val < 2 ^ e.2.len := by
  rcases codebook_cases w with ⟨hA, hc⟩ | ⟨s, hA, hc⟩ | ⟨h2, t, ht, hp, hc⟩
  · rw [hc] at h; simp [raise] at h
  · rw [hc] at h; cases h; simp
  · rw [hc] at h
    cases h
    intro e he
    obtain ⟨s, hs, rfl⟩ := List.mem_map.mp he
    obtain ⟨p, hpath, hlen⟩ := t.path?_isSome s (hp.mem_iff.mpr hs)
    have hk := length_participants_le w
    have hle := hp.length_eq
    have hne : p ≠ [] := by
      rintro rfl
      match t, hpath, hle with
      | .leaf u, _, hle => simp [Tree.leaves] at hle; omega
      | .node c0 c1, hpath, _ =>
        simp only [Tree.path?] at hpath
        split at hpath
        · simp at hpath
        · split at hpath <;> simp at hpath
    simp only [Tree.codeword, hpath, Option.getD_some, Codeword.ofPath]
    exact ⟨List.length_pos_iff.mpr hne, by omega, bitsVal_lt p⟩

end Sys2Proof.Machine
end

