-- ==== Sys2Proof/Laws/HostAccess.lean ====
section
/-! SUPPORT. What the host accesses do: the frame of every access, and the operands the load statements leave. -/

namespace Sys2Proof.Machine

/-- The fields that only a command or a reset changes are those of `s`. -/
structure EngineKept (s t : State) : Prop where
  params : t.params = s.params
  cmd : t.cmd = s.cmd
  status : t.status = s.status
  err : t.err = s.err
  errInfo : t.errInfo = s.errInfo
  outLen : t.outLen = s.outLen
  srcLen : t.srcLen = s.srcLen
  payloadLen : t.payloadLen = s.payloadLen
  outBuf : t.outBuf = s.outBuf
  epoch : t.epoch = s.epoch
  outEpoch : t.outEpoch = s.outEpoch
  host : t.host = s.host

theorem EngineKept.refl (s : State) : EngineKept s s :=
  ⟨rfl, rfl, rfl, rfl, rfl, rfl, rfl, rfl, rfl, rfl, rfl, rfl⟩

theorem EngineKept.trans {s t u : State} (h : EngineKept s t) (k : EngineKept t u) : EngineKept s u :=
  ⟨k.params.trans h.params, k.cmd.trans h.cmd, k.status.trans h.status, k.err.trans h.err,
    k.errInfo.trans h.errInfo, k.outLen.trans h.outLen, k.srcLen.trans h.srcLen,
    k.payloadLen.trans h.payloadLen, k.outBuf.trans h.outBuf, k.epoch.trans h.epoch,
    k.outEpoch.trans h.outEpoch, k.host.trans h.host⟩

/-- The bytes of OUT are unchanged where the engine's fields are. -/
theorem EngineKept.outByte {s t : State} (h : EngineKept s t) (i : Nat) : t.outByte i = s.outByte i := by
  unfold State.outByte
  rw [h.outBuf, h.outEpoch]

/-- A write outside the register space, or to a length register, is no business of the engine's. -/
theorem State.hostWrite_kept (s : State) (sp : Space) (i v : Nat) (h : sp ≠ .reg ∨ i = 4 ∨ i = 5) :
    EngineKept s (s.hostWrite sp i v) := by
  cases sp with
  | reg =>
    rcases h with h | rfl | rfl
    · exact absurd rfl h
    all_goals constructor <;> rfl
  | wt => simp only [State.hostWrite, State.writeWt]; split <;> constructor <;> rfl
  | input => simp only [State.hostWrite, State.writeIn]; split <;> constructor <;> rfl
  | mask => simp only [State.hostWrite, State.writeMask]; split <;> constructor <;> rfl
  | out => exact EngineKept.refl s

theorem State.writeBytes_kept (sp : Space) (hsp : sp ≠ .reg) (B : List Byte) (i : Nat) (s : State) :
    EngineKept s (State.writeBytes sp i B s) := by
  induction B generalizing i s with
  | nil => exact EngineKept.refl s
  | cons b B ih => exact (s.hostWrite_kept sp i b.toNat (.inl hsp)).trans (ih _ _)

theorem State.loadIn_kept (s : State) (B : List Byte) : EngineKept s (s.loadIn B) :=
  (State.writeBytes_kept .input (by decide) B 0 s).trans (State.hostWrite_kept _ .reg 4 _ (.inr (.inl rfl)))

theorem State.loadMask_kept (s : State) (B : List Byte) : EngineKept s (s.loadMask B) :=
  (State.writeBytes_kept .mask (by decide) B 0 s).trans (State.hostWrite_kept _ .reg 5 _ (.inr (.inr rfl)))

theorem State.clearWeights_kept (s : State) : EngineKept s s.clearWeights := by
  have gen : ∀ (l : List Nat) (s : State), EngineKept s (l.foldl (fun t i => t.hostWrite .wt i 0) s) := by
    intro l
    induction l with
    | nil => exact EngineKept.refl
    | cons i l ih => intro s; exact (s.hostWrite_kept .wt i 0 (.inl (by decide))).trans (ih _)
  exact gen _ s

/-- The three ways the host resets the block (R260, R34, R97). -/
def HostAction.isReset (a : HostAction) : Prop :=
  a = .hardReset ∨ a = .softReset ∨ ∃ v, a = .write .reg 9 v ∧ v % 2 = 1

/-- Everything a host action on a block that runs no command can do to the engine's fields: a reset, the
start of a command, or nothing (R24, R25, R60, R61, R97). -/
theorem State.hostFree_cases (s : State) (a : HostAction) :
    (a.isReset ∧ s.hostFree a = s.resetBlock) ∨
      (∃ v, a = .write .reg 0 v ∧ s.hostFree a = s.start (BitVec.ofNat 16 v)) ∨
      EngineKept s (s.hostFree a) := by
  cases a with
  | read sp i => exact .inr (.inr (by constructor <;> rfl))
  | write sp i v =>
    by_cases h : sp = .reg
    · subst h
      simp only [State.hostFree, State.hostWrite, State.writeReg]
      split
      · exact .inr (.inl ⟨v, rfl, rfl⟩)
      · exact .inr (.inr (by constructor <;> rfl))
      · exact .inr (.inr (by constructor <;> rfl))
      · split
        · rename_i hv
          exact .inl ⟨.inr (.inr ⟨v, rfl, hv⟩), rfl⟩
        · exact .inr (.inr (by constructor <;> rfl))
      · exact .inr (.inr (by constructor <;> rfl))
    · exact .inr (.inr (s.hostWrite_kept sp i v (.inl h)))
  | wait => exact .inr (.inr (EngineKept.refl s))
  | setw i w => exact .inr (.inr (s.hostWrite_kept .wt i w (.inl (by decide))))
  | clrw => exact .inr (.inr s.clearWeights_kept)
  | ldin B => exact .inr (.inr (s.loadIn_kept B))
  | ldmask B => exact .inr (.inr (s.loadMask_kept B))
  | movoi => exact .inr (.inr (s.loadIn_kept _))
  | softReset => exact .inl ⟨.inr (.inl rfl), rfl⟩
  | hardReset => exact .inl ⟨.inl rfl, rfl⟩

/-- An index below a number of cells that the capacity allows is inside the space (R60). -/
theorem inSpace_of_lt {cap : Option Nat} {n j : Nat} (h : overCap cap n = false) (hj : j < n) :
    inSpace cap j = true := by
  cases cap with
  | none => rfl
  | some c =>
    simp only [overCap, decide_eq_false_iff_not, not_lt] at h
    simp only [inSpace, decide_eq_true_eq]
    omega

/-- A run of byte writes inside IN: the bytes stand from index `i` on, every other cell and field is as before. -/
theorem State.writeBytes_input (B : List Byte) (i : Nat) (s : State)
    (h : ∀ j, i ≤ j → j < i + B.length → inSpace s.params.inCap j = true) :
    State.writeBytes .input i B s = { s with inBuf := (State.writeBytes .input i B s).inBuf } ∧
      ∀ j, (State.writeBytes .input i B s).inByte j =
        if i ≤ j ∧ j < i + B.length then B.getD (j - i) 0 else s.inByte j := by
  induction B generalizing i s with
  | nil =>
    refine ⟨rfl, fun j => ?_⟩
    rw [if_neg (by simp only [List.length_nil]; omega)]
    rfl
  | cons b B ih =>
    have hw : s.hostWrite .input i b.toNat = { s with inBuf := s.inBuf.write i b } := by
      simp [State.hostWrite, State.writeIn, h i (le_refl _) (by simp)]
    obtain ⟨i1, i2⟩ := ih (i + 1) (s.hostWrite .input i b.toNat)
      (by rw [hw]; intro j h1 h2; exact h j (by omega) (by simp only [List.length_cons]; omega))
    refine ⟨by rw [State.writeBytes, i1, hw], fun j => ?_⟩
    rw [State.writeBytes, i2 j]
    by_cases hj : j = i
    · subst hj
      rw [if_neg (by omega), if_pos (by simp), hw]
      simp [State.inByte]
    · by_cases hj2 : i + 1 ≤ j ∧ j < i + 1 + B.length
      · rw [if_pos hj2, if_pos (by simp only [List.length_cons]; omega), show j - i = (j - (i + 1)) + 1 by omega]
        simp
      · rw [if_neg hj2, if_neg (by simp only [List.length_cons]; omega), hw]
        simp [State.inByte, Memory.read?_write_other _ _ _ _ hj]

/-- The same for MASK. -/
theorem State.writeBytes_mask (B : List Byte) (i : Nat) (s : State)
    (h : ∀ j, i ≤ j → j < i + B.length → inSpace s.params.maskCap j = true) :
    State.writeBytes .mask i B s = { s with maskBuf := (State.writeBytes .mask i B s).maskBuf } ∧
      ∀ j, (State.writeBytes .mask i B s).maskByte j =
        if i ≤ j ∧ j < i + B.length then B.getD (j - i) 0 else s.maskByte j := by
  induction B generalizing i s with
  | nil =>
    refine ⟨rfl, fun j => ?_⟩
    rw [if_neg (by simp only [List.length_nil]; omega)]
    rfl
  | cons b B ih =>
    have hw : s.hostWrite .mask i b.toNat = { s with maskBuf := s.maskBuf.write i b } := by
      simp [State.hostWrite, State.writeMask, h i (le_refl _) (by simp)]
    obtain ⟨i1, i2⟩ := ih (i + 1) (s.hostWrite .mask i b.toNat)
      (by rw [hw]; intro j h1 h2; exact h j (by omega) (by simp only [List.length_cons]; omega))
    refine ⟨by rw [State.writeBytes, i1, hw], fun j => ?_⟩
    rw [State.writeBytes, i2 j]
    by_cases hj : j = i
    · subst hj
      rw [if_neg (by omega), if_pos (by simp), hw]
      simp [State.maskByte]
    · by_cases hj2 : i + 1 ≤ j ∧ j < i + 1 + B.length
      · rw [if_pos hj2, if_pos (by simp only [List.length_cons]; omega), show j - i = (j - (i + 1)) + 1 by omega]
        simp
      · rw [if_neg hj2, if_neg (by simp only [List.length_cons]; omega), hw]
        simp [State.maskByte, Memory.read?_write_other _ _ _ _ hj]

end Sys2Proof.Machine
end

