-- ==== Sys2Proof/Laws/Merge.lean ====
section
/-! SUPPORT. What the merge of the builder does not depend on: the order in which the pool lists its nodes, and
anything of a node but its key (R134). Two pools with nodes of the same order of keys merge alike. -/

namespace Sys2Proof.Machine

/-- Live nodes have distinct `minsym`, "hence distinct keys" (R134). -/
def DistinctMinsyms (P : List Node) : Prop := (P.map Node.minsym).Nodup

theorem DistinctMinsyms.perm {P Q : List Node} (h : DistinctMinsyms P) (hp : P.Perm Q) : DistinctMinsyms Q :=
  (hp.map Node.minsym).nodup_iff.mp h

/-- The leaves of distinct symbols are such a pool. -/
theorem distinctMinsyms_ofLeaf (w : Symbol → Nat) {A : List Symbol} (h : A.Nodup) :
    DistinctMinsyms (A.map (Node.ofLeaf w)) := by
  have e : (A.map (Node.ofLeaf w)).map Node.minsym = A.map BitVec.toNat := by simp [Function.comp_def, Node.ofLeaf]
  rw [DistinctMinsyms, e]
  exact h.map fun a b hab => BitVec.eq_of_toNat_eq hab

/-- Two nodes neither of which has the lesser key have one `minsym`. -/
theorem Node.minsym_eq_of_not_lt {a b : Node} (h1 : a.lt b = false) (h2 : b.lt a = false) : a.minsym = b.minsym := by
  rw [Bool.eq_false_iff, ne_eq, Node.lt_iff] at h1 h2
  omega

/-- A pool that is two nodes and others, the two first in the order of keys: the pass joins them (R133). -/
theorem mergeOnce_of_least {P R : List Node} {a b : Node} (hd : DistinctMinsyms P) (hp : P.Perm (a :: b :: R))
    (ha : ∀ x ∈ P, x.lt a = false) (hb : ∀ x ∈ b :: R, x.lt b = false) :
    (mergeOnce P).Perm (a.join b :: R) := by
  obtain ⟨a', b', R', hp', hm, ha', hb'⟩ := mergeOnce_spec (P := P) (by rw [hp.length_eq]; simp)
  have mem : ∀ {x}, x ∈ a :: b :: R → x ∈ P := fun h => hp.mem_iff.mpr h
  have mem' : ∀ {x}, x ∈ a' :: b' :: R' → x ∈ P := fun h => hp'.mem_iff.mpr h
  have ea : a = a' := List.inj_on_of_nodup_map hd (mem (by simp)) (mem' (by simp))
    (Node.minsym_eq_of_not_lt (ha' a (mem (by simp))) (ha a' (mem' (by simp))))
  subst ea
  have hr : (b :: R).Perm (b' :: R') := (List.perm_cons a).mp (hp.symm.trans hp')
  have eb : b = b' := List.inj_on_of_nodup_map hd (mem (by simp)) (mem' (by simp))
    (Node.minsym_eq_of_not_lt (hb' b (hr.mem_iff.mp (by simp))) (hb b' (hr.mem_iff.mpr (by simp))))
  subst eb
  rw [hm]
  exact (((List.perm_cons b).mp hr).symm).cons _

/-- A pass keeps the `minsym` of live nodes distinct. -/
theorem DistinctMinsyms.mergeOnce {P : List Node} (h : DistinctMinsyms P) : DistinctMinsyms (mergeOnce P) := by
  by_cases h2 : 2 ≤ P.length
  · obtain ⟨a, b, R, hp, hm, -, -⟩ := mergeOnce_spec h2
    have hd := h.perm hp
    simp only [DistinctMinsyms, List.map_cons, List.nodup_cons, List.mem_cons, not_or] at hd
    rw [hm, DistinctMinsyms, List.map_cons, List.nodup_cons]
    refine ⟨?_, hd.2.2⟩
    show min a.minsym b.minsym ∉ _
    rcases min_choice a.minsym b.minsym with e | e <;> rw [e]
    · exact hd.1.2
    · exact hd.2.1
  · match P, h with
    | [], h => exact h
    | [a], h => exact h
    | _ :: _ :: _, _ => simp at h2

/-- A pass does not depend on the order in which the pool is listed. -/
theorem mergeOnce_congr {P Q : List Node} (hd : DistinctMinsyms P) (hp : P.Perm Q) :
    (mergeOnce P).Perm (mergeOnce Q) := by
  by_cases h2 : 2 ≤ P.length
  · obtain ⟨a, b, R, hq, hm, ha, hb⟩ := mergeOnce_spec h2
    rw [hm]
    exact (mergeOnce_of_least (hd.perm hp) (hp.symm.trans hq) (fun x hx => ha x (hp.mem_iff.mpr hx)) hb).symm
  · match P, hp with
    | [], hp => rw [List.nil_perm.mp hp]
    | [a], hp => rw [List.singleton_perm.mp hp]
    | _ :: _ :: _, _ => simp at h2

/-- Nor do `n` passes. -/
theorem mergeTimes_congr (n : Nat) {P Q : List Node} (hd : DistinctMinsyms P) (hp : P.Perm Q) :
    (mergeTimes n P).Perm (mergeTimes n Q) := by
  induction n generalizing P Q with
  | zero => exact hp
  | succ n ih => exact ih hd.mergeOnce (mergeOnce_congr hd hp)

section Map

variable {f : Node → Node} (hlt : ∀ a b, (f a).lt (f b) = a.lt b)
include hlt

/-- The choice of the least node looks at the order of keys alone. -/
theorem takeLeast_map (P : List Node) :
    takeLeast (P.map f) = (takeLeast P).map fun r => (f r.1, r.2.map f) := by
  induction P with
  | nil => rfl
  | cons a P ih =>
    simp only [List.map_cons, takeLeast, ih]
    cases takeLeast P with
    | none => rfl
    | some r =>
      simp only [Option.map_some, hlt]
      split <;> simp

variable (hjoin : ∀ a b, f (a.join b) = (f a).join (f b))
include hjoin

/-- A change of nodes that keeps the order of keys and goes through a join goes through a pass. -/
theorem mergeOnce_map (P : List Node) : mergeOnce (P.map f) = (mergeOnce P).map f := by
  simp only [mergeOnce, takeLeast_map hlt]
  cases takeLeast P with
  | none => rfl
  | some r =>
    simp only [Option.map_some, takeLeast_map hlt]
    cases takeLeast r.2 with
    | none => rfl
    | some q => simp [hjoin]

/-- And through `n` passes. -/
theorem mergeTimes_map (n : Nat) (P : List Node) : mergeTimes n (P.map f) = (mergeTimes n P).map f := by
  induction n generalizing P with
  | zero => rfl
  | succ n ih => rw [mergeTimes, mergeOnce_map hlt hjoin, ih, mergeTimes]

end Map

end Sys2Proof.Machine
end

