-- ==== Sys2Proof/Laws/PerInstr.lean ====
section
/-! SUPPORT. The statements made once per command of Instr: family Encoding. -/

namespace Sys2Proof.Laws.Encoding

/-- The command word of a well-formed command has OP in bits 7:0 and N in bits 15:8 (R90), as the
encoding's own fields say. -/
def Statement (i : Instr) : Prop :=
  i.wf = true → opField (encode i) = (encodeFields i).1 ∧ immField (encode i) = (encodeFields i).2

/-- A word made of an opcode and an immediate has them as its fields. -/
theorem fields_of_word (op n : Nat) (hop : op < 256) (hn : n < 256) :
    opField (BitVec.ofNat 16 (op + 256 * n)) = op ∧ immField (BitVec.ofNat 16 (op + 256 * n)) = n := by
  simp only [opField, immField, BitVec.toNat_ofNat]
  omega

theorem build : Statement .build := fun _ => fields_of_word 0x01 0 (by decide) (by decide)

theorem senc : Statement .senc := fun _ => fields_of_word 0x02 0 (by decide) (by decide)

theorem sdec : Statement .sdec := fun _ => fields_of_word 0x03 0 (by decide) (by decide)

theorem renc (n : Nat) : Statement (.renc n) := fun h =>
  fields_of_word 0x04 n (by decide) (by simpa [Instr.wf] using h)

theorem rdec : Statement .rdec := fun _ => fields_of_word 0x05 0 (by decide) (by decide)

theorem noise : Statement .noise := fun _ => fields_of_word 0x06 0 (by decide) (by decide)

end Sys2Proof.Laws.Encoding
end

