-- ==== Sys2Proof/Laws/Results.lean ====
section
/-! SUPPORT. What the six commands compute, as one outcome each: every command is the end of its outcome, a
result fits the registers that report it, and the sizes of the parts of a result. -/

namespace Sys2Proof.Machine

/-- What a command comes to before its output test (R93). -/
def outcomeOf (i : Instr) (s : State) : CmdOutcome :=
  match i with
  | .build => buildOutcome s.weight
  | .senc => inputTest s (sencOutcome s.params.padBit s.weight s.inBytes s.inLen.toNat)
  | .sdec => inputTest s (sdecOutcome s.inBytes s.inLen.toNat)
  | .renc n => inputTest s (rencOutcome n s.inBytes s.inLen.toNat)
  | .rdec => inputTest s (rdecOutcome s.inBytes s.inLen.toNat)
  | .noise => inputTest s (maskTest s (noiseOutcome s.inBytes s.maskBytes s.inLen.toNat s.maskLen.toNat))

/-- Every command is the end of its outcome. -/
theorem exec_eq_finish (i : Instr) (s : State) : exec i s = s.finish (outcomeOf i s) := by cases i <;> rfl

/-- The scan emits as many symbols as it is asked for (R176). -/
theorem length_scan {T : List Entry} {Q : List Byte} {nbits n pos : Nat} {D : List Symbol}
    (h : scan T Q nbits n pos = .ok D) : D.length = n := by
  induction n generalizing pos D with
  | zero =>
    simp only [scan, Except.ok.injEq] at h
    rw [← h]
    rfl
  | succ n ih =>
    simp only [scan] at h
    split at h
    · simp [raise] at h
    · split at h
      · cases h
      · rename_i D' hD
        cases h
        simp [ih hD]
    · simp [raise] at h

/-- A little-endian field of `n` bytes is below `256^n`. -/
theorem fromLE_slice_lt (F : List Byte) (a n : Nat) : fromLE (slice F a n) < 256 ^ n :=
  lt_of_lt_of_le (fromLE_lt _) (Nat.pow_le_pow_right (by decide) (by simp [slice]))

/-- The size of a serialized Codebook (R104, R144). -/
theorem length_serialize (cb : Codebook) : (serialize cb).length = (cb.map fun e => 2 + ceil8 e.2.len).sum := by
  induction cb with
  | nil => rfl
  | cons e cb ih =>
    rw [serialize, List.flatMap_cons, List.length_append]
    rw [serialize] at ih
    rw [ih]
    simp only [entryBytes, List.length_append, List.length_cons, length_u8, length_leBytes, List.map_cons,
      List.sum_cons]

/-- It is at most `256 * 34` bytes (R101). -/
theorem length_serialize_le {w : Symbol → Nat} {cb : Codebook} (h : codebook w = .ok cb) :
    (serialize cb).length ≤ 256 * 34 := by
  have hk : cb.length ≤ 256 := by
    have h2 := length_participants_le w
    rw [← codebook_symbols h] at h2
    simpa using h2
  have hle : ∀ x ∈ cb.map (fun e => 2 + ceil8 e.2.len), x ≤ 34 := by
    intro x hx
    obtain ⟨e, he, rfl⟩ := List.mem_map.mp hx
    have := (codebook_codeword h e he).2.1
    simp only [ceil8]
    omega
  have := List.sum_le_card_nsmul _ _ hle
  rw [List.length_map, smul_eq_mul] at this
  rw [length_serialize]
  omega

/-- What `CB[b]` finds is an entry of the Codebook. -/
theorem Codebook.mem_of_find {cb : Codebook} {b : Symbol} {cw : Codeword} (h : cb.find b = some cw) :
    (b, cw) ∈ cb := by
  unfold Codebook.find at h
  induction cb with
  | nil => simp at h
  | cons e cb ih =>
    obtain ⟨s, c⟩ := e
    simp only [List.lookup_cons] at h
    split at h
    · rename_i hb
      cases h
      have : b = s := by simpa using hb
      subst this
      simp
    · exact List.mem_cons_of_mem _ (ih h)

/-- A source byte has at most 255 codeword bits (R143). -/
theorem length_sourceBits_le {w : Symbol → Nat} {cb : Codebook} (h : codebook w = .ok cb) (S : List Byte) :
    (sourceBits cb S).length ≤ 255 * S.length := by
  induction S with
  | nil => simp [sourceBits]
  | cons b S ih =>
    have e : sourceBits cb (b :: S) =
        ((cb.find b).map fun cw => cwBits cw.len cw.val).getD [] ++ sourceBits cb S := by simp [sourceBits]
    have hb : (((cb.find b).map fun cw => cwBits cw.len cw.val).getD []).length ≤ 255 := by
      cases hf : cb.find b with
      | none => simp
      | some cw => simpa using (codebook_codeword h _ (Codebook.mem_of_find hf)).2.1
    rw [e, List.length_append, List.length_cons]
    omega

theorem length_repeatBits (n : Nat) (bits : List Bool) : (repeatBits n bits).length = n * bits.length := by
  induction bits with
  | nil => simp [repeatBits]
  | cons b bits ih =>
    have e : repeatBits n (b :: bits) = List.replicate n b ++ repeatBits n bits := by simp [repeatBits]
    rw [e, List.length_append, ih]
    simp only [List.length_replicate, List.length_cons]
    ring

/-- The payload has `n` bytes for each source byte, and no pad bit (R195, R115). -/
@[simp] theorem length_repPayload (n : Nat) (S : List Byte) : (repPayload n S).length = n * S.length := by
  have : n * (8 * S.length) = 8 * (n * S.length) := by ring
  rw [repPayload, length_pack, length_repeatBits, length_unpack, ceil8]
  omega

/-- Each of the `n` copies of a bit is the bit (R193). -/
theorem repeatBits_getD (n : Nat) (bits : List Bool) (j r : Nat) (hr : r < n) :
    (repeatBits n bits).getD (n * j + r) false = bits.getD j false := by
  induction bits generalizing j with
  | nil => simp [repeatBits]
  | cons b bits ih =>
    have e : repeatBits n (b :: bits) = List.replicate n b ++ repeatBits n bits := by simp [repeatBits]
    rw [e]
    cases j with
    | zero =>
      rw [List.getD_append _ _ _ _ (by simpa using hr)]
      simp [List.getD, hr]
    | succ j =>
      have hs : n * (j + 1) + r - n = n * j + r := by rw [Nat.mul_succ]; omega
      rw [List.getD_append_right _ _ _ _ (by simp only [List.length_replicate, Nat.mul_succ]; omega),
        List.length_replicate, hs, ih]
      simp

/-- The factors RENC and RDEC accept (R191, R202). -/
theorem badFactor_eq_false {n : Nat} : badFactor n = false ↔ n = 3 ∨ n = 5 ∨ n = 7 ∨ n = 9 := by
  constructor
  · intro h
    simp only [badFactor, Bool.or_eq_false_iff, decide_eq_false_iff_not] at h
    simp only [Config.repMin, Config.repMax] at h
    omega
  · rintro (rfl | rfl | rfl | rfl) <;> rfl

/-- Byte `i` of the exclusive or of two sequences of one length (R220). -/
theorem xorBytes_getD (C M : List Byte) (i : Nat) (h : C.length = M.length) :
    (xorBytes C M).getD i 0 = C.getD i 0 ^^^ M.getD i 0 := by
  unfold xorBytes
  by_cases hi : i < C.length
  · have hm : i < M.length := by omega
    simp [List.getD, hi, hm]
  · have hm : ¬ i < M.length := by omega
    simp [List.getD, Nat.not_lt.mp hi, Nat.not_lt.mp hm]

/-- A little-endian entry that stands after `pre` in a file is the row it was written from (R104, R172). -/
theorem parseEntries_cons (pre tail : List Byte) (e : Entry) (he : e.legal) (n : Nat) (F : List Byte)
    (hF : F = pre ++ (entryBytes (e.sym, { len := e.len, val := e.val }) ++ tail)) :
    parseEntries F F.length (n + 1) pre.length =
      match parseEntries F F.length n (pre ++ entryBytes (e.sym, { len := e.len, val := e.val })).length with
      | .error er => .error er
      | .ok (T, q) => .ok (e :: T, q) := by
  obtain ⟨h1, h2, h3⟩ := he
  have getD_app : ∀ (A B : List Byte) (i : Nat), (A ++ B).getD (A.length + i) 0 = B.getD i 0 := by
    intro A B i
    rw [List.getD_append_right _ _ _ _ (by omega)]
    congr 1
    omega
  have hb : (BitVec.ofNat 8 e.len : BitVec 8).toNat = e.len := by simp; omega
  have hF2 : F = pre ++ (e.sym :: BitVec.ofNat 8 e.len :: (leBytes e.val (ceil8 e.len) ++ tail)) := by
    rw [hF]; simp [entryBytes, u8]
  have hlen : F.length = pre.length + 2 + ceil8 e.len + tail.length := by rw [hF2]; simp; omega
  have g0 : F.getD pre.length 0 = e.sym := by
    rw [hF2]
    simp
  have g1 : entryLenAt F pre.length = e.len := by
    unfold entryLenAt
    rw [hF2, getD_app]
    simpa using hb
  have g2 : entryValAt F pre.length = e.val := by
    have hs : slice F (pre.length + 2) (ceil8 e.len) = leBytes e.val (ceil8 e.len) := by
      rw [hF2]
      have hd : List.drop (pre.length + 2) (pre ++
          (e.sym :: BitVec.ofNat 8 e.len :: (leBytes e.val (ceil8 e.len) ++ tail))) =
          leBytes e.val (ceil8 e.len) ++ tail := by
        rw [← List.drop_drop, List.drop_left]
        rfl
      rw [slice, hd, List.take_left' (length_leBytes _ _)]
    unfold entryValAt
    rw [g1, hs]
    apply fromLE_leBytes
    calc e.val < 2 ^ e.len := h3
      _ ≤ 2 ^ (8 * ceil8 e.len) := Nat.pow_le_pow_right (by decide) (le_ceil8 _)
      _ = 256 ^ ceil8 e.len := by rw [pow_mul]; norm_num
  have g3 : entryEndAt F pre.length =
      (pre ++ entryBytes (e.sym, { len := e.len, val := e.val })).length := by
    unfold entryEndAt
    rw [g1]
    simp [entryBytes]
    omega
  have g4 : entryAt F pre.length = e := by unfold entryAt; rw [g0, g1, g2]
  rw [parseEntries, if_neg (by omega), g1, if_neg (by omega),
    if_neg (by rw [g3]; simp [entryBytes]; omega), g2, if_neg (by omega), g3, g4] <;> rfl

/-- An entry matches at a position exactly when its codeword's bits come next (R179). -/
theorem Entry.matchesAt_iff (Q : List Byte) (e : Entry) (pos : Nat) (h0 : 1 ≤ e.len) :
    e.matchesAt Q (8 * Q.length) pos = true ↔ e.bits <+: (unpack Q).drop pos := by
  unfold Entry.matchesAt Entry.bits
  rw [Bool.and_eq_true, decide_eq_true_iff, List.all_eq_true]
  constructor
  · rintro ⟨h1, h2⟩
    rw [List.prefix_iff_eq_take]
    apply List.ext_getElem
    · simp; omega
    · intro i h3 h4
      have := h2 i (List.mem_range.mpr (by simpa using h3))
      rw [beq_iff_eq, ← unpack_getD, List.getD_eq_getElem _ _ h3,
        List.getD_eq_getElem _ _ (by simp at h3 ⊢; omega)] at this
      simp [this]
  · intro h
    have hl := h.length_le
    simp only [length_cwBits, List.length_drop, length_unpack] at hl
    rw [List.prefix_iff_eq_take] at h
    refine ⟨by omega, ?_⟩
    intro i hi
    have hi := List.mem_range.mp hi
    rw [h, beq_iff_eq, ← unpack_getD, length_cwBits]
    simp [List.getD, hi]

/-- The result of a command and the report pair fit their registers: a length of a result never wraps. -/
theorem outcomeOf_bound (i : Instr) (s : State) (r : Result) (h : outcomeOf i s = .ok r) :
    r.bytes.length < 2 ^ 64 ∧ r.srcLen < 2 ^ 64 ∧ r.payloadLen < 2 ^ 64 := by
  have hin : s.inBytes.length = s.inLen.toNat := s.length_inBytes
  have hlt := s.inLen.isLt
  cases i
  case build =>
    simp only [outcomeOf, buildOutcome] at h
    split at h
    · cases h
    · rename_i cb hcb
      cases h
      have := length_serialize_le hcb
      simp only
      omega
  case senc =>
    simp only [outcomeOf, inputTest] at h
    split at h
    · simp [raise] at h
    simp only [sencOutcome] at h
    split at h
    · cases h
      simp
    split at h
    · simp [raise] at h
    split at h
    · cases h
    rename_i h1 h2 _ cb hcb
    simp only [sencWith] at h
    split at h
    · simp [raise] at h
    cases h
    have a1 := length_serialize_le hcb
    have a2 := length_sourceBits_le hcb s.inBytes
    simp only [Config.maxSourceLen] at h2
    simp only [sourceHeader, List.length_append, length_u16le, length_u8, length_u32le, length_pack, ceil8]
    omega
  case sdec =>
    simp only [outcomeOf, inputTest] at h
    split at h
    · simp [raise] at h
    simp only [sdecOutcome] at h
    split at h
    · cases h
      simp
    split at h
    · simp [raise] at h
    split at h
    · cases h
    simp only [sdecWith] at h
    split at h
    · simp [raise] at h
    split at h
    · cases h
    rename_i hD
    cases h
    have hs : sourceLenField s.inBytes < 256 ^ 4 := fromLE_slice_lt _ _ _
    simp only [length_scan hD]
    omega
  case renc n =>
    simp only [outcomeOf, inputTest] at h
    split at h
    · simp [raise] at h
    simp only [rencOutcome] at h
    split at h
    · simp [raise] at h
    split at h
    · simp [raise] at h
    rename_i hb hl
    cases h
    simp only [Config.maxSourceLen] at hl
    simp only [List.length_append, length_u8, length_u32be, length_repPayload, hin]
    rcases badFactor_eq_false.mp (by simpa using hb) with rfl | rfl | rfl | rfl <;> omega
  case rdec =>
    simp only [outcomeOf, inputTest] at h
    split at h
    · simp [raise] at h
    simp only [rdecOutcome] at h
    split at h
    · simp [raise] at h
    simp only [rdecWith] at h
    split at h
    · simp [raise] at h
    split at h
    · simp [raise] at h
    cases h
    have hs : repLenField s.inBytes < 256 ^ 4 :=
      lt_of_lt_of_le (fromLE_lt _) (Nat.pow_le_pow_right (by decide) (by simp))
    simp only [length_pack, decodedBits, List.length_map, List.length_range, ceil8]
    omega
  case noise =>
    simp only [outcomeOf, inputTest, maskTest] at h
    split at h
    · simp [raise] at h
    split at h
    · simp [raise] at h
    simp only [noiseOutcome] at h
    split at h
    · cases h
    cases h
    simp only [xorBytes, List.length_zipWith]
    omega

/-- An outcome that is an error ends the command in the error state. -/
theorem exec_of_error {i : Instr} {s : State} {c : Cause} {info : Nat} (h : outcomeOf i s = raise c info) :
    ∃ t, exec i s = .next t ∧ EndsWithError c info s t :=
  ⟨_, by rw [exec_eq_finish, h]; rfl, s.errorEntry_ends c info⟩

/-- An outcome that is a result and fits OUT ends the command in the completed state. -/
theorem exec_of_result {i : Instr} {s : State} {r : Result} (h : outcomeOf i s = .ok r)
    (hc : overCap s.params.outCap r.bytes.length = false) :
    exec i s = .next (s.complete r) ∧ EndsWithResult r.bytes r.srcLen r.payloadLen s (s.complete r) := by
  obtain ⟨b1, b2, b3⟩ := outcomeOf_bound i s r h
  exact ⟨by rw [exec_eq_finish, h]; exact s.finish_ok r hc, s.complete_ends r b1 b2 b3⟩

/-- A command that ended DONE had a result that fits OUT. -/
theorem result_of_done {i : Instr} {s t : State} (h : exec i s = .next t) (hd : t.status.state = .done) :
    ∃ r, outcomeOf i s = .ok r ∧ t = s.complete r ∧ overCap s.params.outCap r.bytes.length = false := by
  rw [exec_eq_finish, State.finish] at h
  injection h with h
  match ho : outcomeOf i s, h with
  | .error e, h =>
    subst h
    simp [outputTest] at hd
  | .ok r, h =>
    simp only [outputTest] at h
    split at h
    · subst h
      simp [raise] at hd
    · rename_i hc
      subst h
      exact ⟨r, rfl, rfl, by simpa using hc⟩

end Sys2Proof.Machine
end

