-- ==== Sys2Proof/Laws/Step.lean ====
section
/-! SUPPORT. Everything a step can do, said once. -/

namespace Sys2Proof.Machine

/-- The engine's turn is the end of some outcome: it never faults and never refuses. -/
theorem State.engineTurn_eq_settle (s : State) :
    ∃ o, s.engineTurn = .next (s.settle (outputTest s.params o)) := by
  unfold State.engineTurn
  split
  · exact exec_eq_settle _ s
  · exact ⟨raise .illegalCommand s.cmd.toNat, rfl⟩

/-- What the engine's turn can leave: the error entry, or the completion with a result that fits OUT. -/
theorem State.engineTurn_cases (s t : State) (h : s.engineTurn = .next t) :
    (∃ e, t = s.errorEntry e) ∨
      ∃ r, overCap s.params.outCap r.bytes.length = false ∧ t = s.complete r := by
  unfold State.engineTurn at h
  split at h
  · exact exec_cases _ s t h
  · injection h with h
    exact .inl ⟨_, h.symm⟩

/-- The four things a step that answers a next state can have done: nothing (the host waits), the engine's
turn, a host action on a block that runs no command, and a host action R272 allows on one that does. -/
theorem step_cases (s t : State) (h : step s = .next t) :
    (s.status.state ≠ .busy ∧ t = s ∧ (s.host = [] ∨ s.status.state = .idle ∧ ∃ rest, s.host = .wait :: rest)) ∨
    (s.status.state = .busy ∧ ∃ rest, (s.host = [] ∧ rest = [] ∨ s.host = .wait :: rest) ∧
      (s.popHost rest).engineTurn = .next t) ∨
    (s.status.state ≠ .busy ∧ ∃ a rest, s.host = a :: rest ∧ t = (s.popHost rest).hostFree a) ∨
    (s.status.state = .busy ∧ ∃ a rest, s.host = a :: rest ∧ a ≠ .wait ∧
      (s.popHost rest).hostBusy a = .next t) := by
  obtain ⟨params, cmd, ⟨phase, latch⟩, err, errInfo, inLen, maskLen, outLen, srcLen, payloadLen, wt, inBuf,
    maskBuf, outBuf, epoch, outEpoch, host, reads⟩ := s
  match host with
  | [] =>
    cases phase
    case busy => exact .inr (.inl ⟨rfl, [], .inl ⟨rfl, rfl⟩, h⟩)
    all_goals
      injection h with h
      exact .inl ⟨by simp, h.symm, .inl rfl⟩
  | a :: rest =>
    by_cases hw : a = .wait
    · subst hw
      cases phase
      case busy => exact .inr (.inl ⟨rfl, rest, .inr rfl, h⟩)
      case idle =>
        injection h with h
        exact .inl ⟨by simp, h.symm, .inr ⟨rfl, rest, rfl⟩⟩
      all_goals
        injection h with h
        exact .inr (.inr (.inl ⟨by simp, .wait, rest, rfl, h.symm⟩))
    · have hs : ∀ u : State, u.host = a :: rest → step u = (u.popHost rest).hostAct a := by
        intro u hu
        unfold step State.turn
        rw [hu]
        cases a <;> first | rfl | exact absurd rfl hw
      rw [hs _ rfl] at h
      cases phase
      case busy => exact .inr (.inr (.inr ⟨rfl, a, rest, rfl, hw, h⟩))
      all_goals
        injection h with h
        exact .inr (.inr (.inl ⟨by simp, a, rest, rfl, h.symm⟩))

/-- The host actions R272 allows on a running command: a poll, an ignored CMD write, a reset. -/
theorem State.hostBusy_cases (s t : State) (a : HostAction) (h : s.hostBusy a = .next t) :
    t = s.logRead (s.hostRead .reg 1) ∨ t = s ∨ t = s.resetBlock := by
  unfold State.hostBusy at h
  split at h
  all_goals first
    | (injection h with h; simp [← h])
    | (split at h <;> first | (injection h with h; simp [← h]) | cases h)
    | cases h

end Sys2Proof.Machine
end

