-- ==== Sys2Proof/Tests/Slice0.lean ====
section
/-! SUPPORT. Tests. Expected values are those of spec/95_test_vectors.md, whose row is named at each test, or
bits written out from the encodings of spec/30_encoding.md. The second half shows, for every obligation with
hypotheses, concrete values that meet them together. -/

namespace Sys2Proof.Tests

open Sys2Proof Sys2Proof.Machine

/-! ### Helpers -/

/-- The reset state with IN loaded. -/
def loaded (B : List Byte) : State :=
  { State.reset with inLen := BitVec.ofNat 64 B.length, inBuf := Memory.ofBytes B }

/-- A state with MASK loaded. -/
def masked (K : List Byte) (s : State) : State :=
  { s with maskLen := BitVec.ofNat 64 K.length, maskBuf := Memory.ofBytes K }

/-- A state with weights set, as (symbol, weight) pairs. -/
def weighted (ws : List (Nat × Nat)) (s : State) : State := ws.foldl (fun t p => t.hostWrite .wt p.1 p.2) s

/-- A state with all three capacities finite. -/
def capped (c : Nat) (s : State) : State :=
  { s with params := { inCap := some c, maskCap := some c, outCap := some c, padBit := false } }

/-- A state in the given STATE, with the host's actions still to come. -/
def phased (p : Phase) (h : List HostAction) (s : State) : State :=
  { s with status := { s.status with state := p }, host := h }

/-- What a test looks at: STATUS, ERR, ERR_INFO, the result, SRC_LEN, PAYLOAD_LEN. -/
def report (o : Host.Outcome State Fault Refusal) : Option (Nat × Nat × Nat × List Nat × Nat × Nat) :=
  match o with
  | .next t =>
    some (t.status.word.toNat, t.err.toNat, t.errInfo.toNat, t.outBytes.map BitVec.toNat, t.srcLen.toNat,
      t.payloadLen.toNat)
  | .fault _ => none
  | .refused _ => none

/-! ### WellFormed -/

theorem test_wf_renc_256_refused : Instr.wf (.renc 256) = false := by decide
theorem test_wf_renc_255 : Instr.wf (.renc 255) = true := by decide
theorem test_wf_others : [Instr.build, .senc, .sdec, .rdec, .noise].all Instr.wf = true := by decide

/-! ### Decode: N in the upper eight bits, OP in the lower eight (R90, R92) -/

theorem test_decode_build : decode 0b0000000000000001 = .ok .build := by decide
theorem test_decode_senc : decode 0b0000000000000010 = .ok .senc := by decide
theorem test_decode_sdec : decode 0b0000000000000011 = .ok .sdec := by decide
theorem test_decode_renc_9 : decode 0b0000100100000100 = .ok (.renc 9) := by decide
theorem test_decode_renc_0 : decode 0b0000000000000100 = .ok (.renc 0) := by decide
theorem test_decode_rdec : decode 0b0000000000000101 = .ok .rdec := by decide
theorem test_decode_noise : decode 0b0000000000000110 = .ok .noise := by decide
theorem test_decode_illegal_opcode : decode 0b0000000000000111 = .error (.illegalOpcode 7) := by decide
theorem test_decode_immediate_not_zero : decode 0b0000000100000011 = .error (.immediateNotZero 3 1) := by decide
theorem test_decode_table_word : decodeTableWord 16 0x0304 = some (.renc 3) := by decide

/-! ### One command each, two vectors -/

/-- BU2 -/
theorem test_build_bu2 : report (exec .build (weighted [(0x61, 3), (0x62, 2), (0x63, 1)] State.reset)) =
    some (2, 0, 0, [0x61, 1, 0, 0x62, 2, 3, 0x63, 2, 2], 0, 0) := by decide +kernel

/-- BU5: the tie at weight 2 is won by the internal node -/
theorem test_build_bu5 : report (exec .build (weighted [(0, 1), (1, 1), (2, 2)] State.reset)) =
    some (2, 0, 0, [0, 2, 0, 1, 2, 1, 2, 1, 1], 0, 0) := by decide +kernel

/-- SE3 -/
theorem test_senc_se3 :
    report (exec .senc (weighted [(0x61, 3), (0x62, 2), (0x63, 1)]
      (loaded [0x61, 0x62, 0x61, 0x63, 0x61, 0x62]))) =
    some (2, 0, 0, [0x10, 0, 2, 6, 0, 0, 0, 0x61, 1, 0, 0x62, 2, 3, 0x63, 2, 2, 0x69, 0x80], 6, 2) := by decide +kernel

/-- SE14 -/
theorem test_senc_se14 : report (exec .senc (weighted [(0x41, 9)] (loaded [0x41, 0x42]))) =
    some (7, 0x0333, 1, [], 0, 0) := by decide +kernel

/-- SD3 -/
theorem test_sdec_sd3 :
    report (exec .sdec (loaded [0x10, 0, 2, 6, 0, 0, 0, 0x61, 1, 0, 0x62, 2, 3, 0x63, 2, 2, 0x69, 0x80])) =
    some (2, 0, 0, [0x61, 0x62, 0x61, 0x63, 0x61, 0x62], 6, 2) := by decide

/-- SD9: the payload is exhausted after five symbols -/
theorem test_sdec_sd9 :
    report (exec .sdec (loaded [0x10, 0, 2, 6, 0, 0, 0, 0x61, 1, 0, 0x62, 2, 3, 0x63, 2, 2, 0x69])) =
    some (7, 0x0220, 7, [], 0, 0) := by decide

/-- RE1, the document's own example (S5) -/
theorem test_renc_re1 : report (exec (.renc 3) (loaded [0xAA])) =
    some (2, 0, 0, [3, 0, 0, 0, 1, 0xE3, 0x8E, 0x38], 1, 3) := by decide

/-- RE11 -/
theorem test_renc_re11 : report (exec (.renc 11) (loaded [])) = some (7, 0x0330, 11, [], 0, 0) := by decide

/-- RD2: one flip in every group -/
theorem test_rdec_rd2 : report (exec .rdec (loaded [3, 0, 0, 0, 1, 0x71, 0xC7, 0x1C])) =
    some (2, 0, 0, [0xAA], 1, 3) := by decide

/-- RD15 -/
theorem test_rdec_rd15 : report (exec .rdec (loaded [3, 0, 0, 0, 1, 0xE3, 0x8E])) =
    some (7, 0x0111, 24, [], 0, 0) := by decide

/-- N5: a bit-granular mask, its first element on bit 7 -/
theorem test_noise_n5 : report (exec .noise (masked [1, 0, 0, 0, 0, 0, 0, 1] (loaded [0xA5]))) =
    some (2, 0, 0, [0x24], 1, 0) := by decide

/-- N10 -/
theorem test_noise_n10 : report (exec .noise (masked [1, 0, 2, 0, 0, 0, 0, 0] (loaded [0xA5]))) =
    some (7, 0x0336, 2, [], 0, 0) := by decide

/-! ### Steps -/

/-- X4 -/
theorem test_step_x4 : report (step (State.reset.withFetchWord 16 0x0103)) =
    some (7, 0x0335, 259, [], 0, 0) := by decide

/-- BU18: BUILD as the first command after reset -/
theorem test_step_bu18 : report (step (State.reset.withFetchWord 16 0x0001)) =
    some (7, 0x0331, 0, [], 0, 0) := by decide +kernel

/-- RE6 through the step -/
theorem test_step_re6 : report (step (State.reset.withFetchWord 16 0x0304)) =
    some (2, 0, 0, [3, 0, 0, 0, 0], 0, 0) := by decide

/-- X7: a host write of 0x10002 to CMD is stored as 0x0002 -/
theorem test_cmd_write_x7 : (State.reset.hostWrite .reg 0 0x10002).hostRead .reg 0 = 0x0002 := by decide

/-! ### Witnesses: the hypotheses of the obligations can be met -/

/-- FullWordsDecode: the greatest factor a word carries. -/
theorem witness_full_words : (255 : Nat) < 256 ∧ decode (BitVec.ofNat 16 (0x0004 + 256 * 255)) = .ok (.renc 255) := by
  decide

/-- DecodeEncodeAgree, both directions. -/
theorem witness_decode_encode : Instr.wf (.renc 255) = true ∧ decode 0xFF04 = .ok (.renc 255) := by decide

/-- The state in which the command word `c` is running. -/
def running (c : CmdWord) (h : List HostAction) : State := phased .busy h { State.reset with cmd := c }

/-- IllegalWordsRaiseIllegalCommand: each form of an illegal word, under each form of the host. -/
theorem witness_illegal_words :
    (running 0x0000 []).status.state = .busy ∧ (running 0x0000 []).host = [] ∧
      ((running 0x0000 []).cmd.extractLsb' 0 8 = 0) ∧
    (running 0x0007 [.wait]).host = .wait :: [] ∧ 7 ≤ ((running 0x0007 [.wait]).cmd.extractLsb' 0 8).toNat ∧
    (running 0x0103 [.wait, .movoi]).host = .wait :: [.movoi] ∧
      ((running 0x0103 [.wait, .movoi]).cmd.extractLsb' 0 8 ≠ 4 ∧
        (running 0x0103 [.wait, .movoi]).cmd.extractLsb' 8 8 ≠ 0) := by decide

/-- StepRunsTheDecodedCommand, both clauses. -/
theorem witness_step_runs :
    (running 0x0304 [.wait]).status.state = .busy ∧ decode (running 0x0304 [.wait]).cmd = .ok (.renc 3) ∧
      (running 0x0304 [.wait]).host = .wait :: [] ∧
    (0xFF04 : Nat) < 2 ^ 16 ∧ decode (BitVec.ofNat 16 0xFF04) = .ok (.renc 255) := by decide

/-- CmdWriteStartsCommand, both clauses. -/
theorem witness_cmd_write :
    (phased .idle [.write .reg 0 0x10002] State.reset).host = .write .reg 0 0x10002 :: [] ∧
      (phased .idle [.write .reg 0 0x10002] State.reset).status.state ≠ .busy ∧
    (running 1 [.write .reg 0 2]).host = .write .reg 0 2 :: [] ∧
      (running 1 [.write .reg 0 2]).status.state = .busy := by decide

/-- BusyAccessRules: one state for every clause; the last access differs from a reset in one bit. -/
theorem witness_busy_access :
    (running 1 []).status.state = .busy ∧
    (running 1 [.read .reg 1]).host = .read .reg 1 :: [] ∧
    (running 1 [.write .reg 0 2]).host = .write .reg 0 2 :: [] ∧
    (running 1 [.write .reg 9 0xFF]).host = .write .reg 9 0xFF :: [] ∧ 0xFF % 2 = 1 ∧
    (running 1 [.write .reg 9 0xFE]).host = .write .reg 9 0xFE :: [] ∧ 0xFE % 2 = 0 ∧
    (running 1 [.read .reg 0]).host = .read .reg 0 :: [] := by decide

/-- ResetPutsEveryRegisterToItsResetValue: the three resets, one of them while a command runs, and the write
that is none. -/
theorem witness_reset :
    (running 1 [.hardReset]).host = .hardReset :: [] ∧
    (phased .error [.softReset] State.reset).host = .softReset :: [] ∧
    (phased .done [.write .reg 9 1] State.reset).host = .write .reg 9 1 :: [] ∧ 1 % 2 = 1 ∧
    (phased .done [.write .reg 9 0] State.reset).host = .write .reg 9 0 :: [] ∧ 0 % 2 = 0 ∧
      (phased .done [.write .reg 9 0] State.reset).status.state ≠ .busy := by decide

/-- WaitingChangesNothing, its three clauses. -/
theorem witness_waiting :
    (phased .done [] State.reset).status.state ≠ .busy ∧ (phased .done [] State.reset).host = [] ∧
    (phased .idle [.wait] State.reset).status.state = .idle ∧
      (phased .idle [.wait] State.reset).host = .wait :: [] ∧
    (phased .error [.wait] State.reset).status.state ≠ .busy ∧
      (phased .error [.wait] State.reset).status.state ≠ .idle ∧
      (phased .error [.wait] State.reset).host = .wait :: [] := by decide

/-- HostWriteChangesItsUnitOnly and HostReadReturnsItsUnit: the last index inside each space and the first
one outside it. -/
theorem witness_host_access :
    let s := capped 16 (phased .idle [.write .input 15 0x1FF] State.reset)
    s.status.state ≠ .busy ∧ s.host = .write .input 15 0x1FF :: [] ∧
    inSpace s.params.inCap 15 = true ∧ inSpace s.params.inCap 16 = false ∧
    inSpace s.params.maskCap 15 = true ∧ inSpace s.params.maskCap 16 = false ∧
    (255 : Nat) < 256 ∧ (256 : Nat) ≤ 256 ∧ (10 : Nat) ≠ 0 ∧ (10 : Nat) ≠ 4 ∧ (10 : Nat) ≠ 5 ∧ (10 : Nat) ≠ 9 := by
  decide

theorem witness_host_read :
    let s := capped 16 (phased .idle [.read .out 15] State.reset)
    s.status.state ≠ .busy ∧ s.host = .read .out 15 :: [] ∧ (9 : Nat) ≤ 9 ∧ (0xFF : Symbol).toNat = 255 := by
  decide

/-- LoadStatementsSetTheOperand: a load that fills its buffer. -/
theorem witness_load :
    let s := capped 2 (phased .idle [.ldin [1, 2]] State.reset)
    let u := capped 2 (phased .idle [.ldmask [1, 2]] State.reset)
    s.status.state ≠ .busy ∧ ([1, 2] : List Byte).length < 2 ^ 64 ∧ s.host = .ldin [1, 2] :: [] ∧
      overCap s.params.inCap 2 = false ∧ u.host = .ldmask [1, 2] :: [] ∧ overCap u.params.maskCap 2 = false := by
  decide

/-- MovoiMakesTheResultTheInput: a result as long as the buffers. -/
theorem witness_movoi :
    let s := capped 2 { phased .done [.movoi] State.reset with outLen := 2, outBuf := Memory.ofBytes [7, 8] }
    s.status.state ≠ .busy ∧ s.host = .movoi :: [] ∧ overCap s.params.inCap s.outLen.toNat = false ∧
      overCap s.params.outCap s.outLen.toNat = false := by decide

/-- WeightStatementsSetTheTable, both clauses. -/
theorem witness_weights :
    (phased .idle [.setw 255 (2 ^ 32)] State.reset).status.state ≠ .busy ∧
    (phased .idle [.setw 255 (2 ^ 32)] State.reset).host = .setw (0xFF : Symbol).toNat (2 ^ 32) :: [] ∧
    (phased .idle [.clrw] State.reset).host = .clrw :: [] := by decide

/-- CommandsKeepTheirInputs, and EndsAreReportedWhole for a command that ends with an error and one that does not. -/
theorem witness_ends :
    (∃ t, exec (.renc 4) (loaded [0xAA]) = .next t ∧ t.status.state = .error) ∧
    ∃ t, exec (.renc 3) (loaded [0xAA]) = .next t ∧ t.status.state = .done :=
  ⟨⟨_, rfl, by decide⟩, ⟨_, rfl, by decide⟩⟩

/-- CommandsReadTheirOperandsOnly: two states that differ in what NOISE does not read. -/
theorem witness_operands :
    let s := masked [0xFF] (loaded [0xA5])
    let u := { s with wt := s.wt.set 0 1, err := 0x0330, outLen := 5, cmd := 1, reads := [3] }
    u.params = s.params ∧ u.inLen = s.inLen ∧ u.inBytes = s.inBytes ∧ u.maskLen = s.maskLen ∧
      u.maskBytes = s.maskBytes ∧ (∃ t, exec .noise s = .next t) ∧ ∃ v, exec .noise u = .next v :=
  ⟨rfl, rfl, by decide, rfl, by decide, ⟨_, rfl⟩, ⟨_, rfl⟩⟩

/-- InputCapacityIsTestedFirst: one byte above the capacity, of IN and of MASK. -/
theorem witness_input_capacity :
    let s := capped 16 { State.reset with inLen := 17 }
    let u := capped 16 { State.reset with inLen := 16, maskLen := 17 }
    (Instr.senc ≠ .build) ∧ overCap s.params.inCap s.inLen.toNat = true ∧
      overCap u.params.inCap u.inLen.toNat = false ∧ overCap u.params.maskCap u.maskLen.toNat = true := by decide

/-- OutputCapacityIsTestedLast: RENC 3 on 4 bytes, 17 bytes of result for 16 cells (section 2.7). -/
theorem witness_output_capacity :
    let s := capped 16 (loaded [0x61, 0x62, 0x61, 0x63])
    ∃ u, exec (.renc 3) { s with params := { s.params with outCap := none } } = .next u ∧
      u.status.state = .done ∧ s.params.outCap = some 16 ∧ 16 < u.outLen.toNat :=
  ⟨_, rfl, by decide, by decide, by decide⟩

/-- StepKeepsTheInvariant: a state with a byte of input and a result behind it, and its step. -/
theorem witness_invariant :
    let s := { phased .done [.movoi] (loaded [0xAA]) with outLen := 1, outBuf := Memory.ofBytes [7] }
    s.Inv ∧ ∃ t, step s = .next t :=
  ⟨⟨rfl, rfl, rfl, by decide, by decide, by decide, rfl, .inl rfl, fun h => absurd rfl h, fun h => absurd h (by decide),
    fun _ => ⟨rfl, rfl⟩, fun h => absurd h (by decide)⟩, ⟨_, rfl⟩⟩

/-- FaultLatchIsSticky, StateChangesOnlyByCommandsAndResets, HostCannotWriteResults and StepKeepsTheParameters:
a step from a set latch, a step that sets it, and a step of the host on a block that runs no command. -/
theorem witness_steps :
    let a := phased .error [.movoi] { State.reset with status := { state := .error, faultLatch := true } }
    (∃ t, a.status.faultLatch = true ∧ step a = .next t) ∧
    (∃ t, (running 7 [.wait]).status.faultLatch = false ∧ step (running 7 [.wait]) = .next t ∧
      t.status.state ≠ (running 7 [.wait]).status.state) ∧
    ∃ t, (phased .idle [.clrw] State.reset).status.state ≠ .busy ∧
      step (phased .idle [.clrw] State.reset) = .next t :=
  ⟨⟨_, rfl, rfl⟩, ⟨_, rfl, rfl, by decide⟩, ⟨_, by decide, rfl⟩⟩

/-- BuildReturnsTheSerializedCodebook: a result of 6 bytes on an OUT of 6 cells, and on one of 5. -/
theorem witness_build :
    let s := capped 6 (weighted [(0x41, 1), (0x42, 1)] State.reset)
    let u := capped 5 s
    0 < s.weight 0x41 ∧ 0 < u.weight 0x41 ∧ overCap s.params.outCap 6 = false ∧
      overCap u.params.outCap 6 = true := by decide

/-- EmptyTableIsRefused: the reset table with one byte of input. -/
theorem witness_empty_table :
    (∀ sym, (loaded [0x41]).weight sym = 0) ∧ 1 ≤ (loaded [0x41]).inLen.toNat ∧
      (loaded [0x41]).inLen.toNat < 2 ^ 32 ∧
      overCap (loaded [0x41]).params.inCap (loaded [0x41]).inLen.toNat = false :=
  ⟨fun sym => by simp [State.weight, loaded, State.reset], by decide, by decide, by decide⟩

/-- Weights 1 on 0x41 and 0x42, and 0 elsewhere (BU1). -/
def twoWeights : Symbol → Nat := fun sym => if sym = 0x41 then 1 else if sym = 0x42 then 1 else 0

/-- Weight 9 on 0x41 alone (BU7). -/
def oneWeight : Symbol → Nat := fun sym => if sym = 0x41 then 9 else 0

theorem witness_codebook_two :
    codebook twoWeights = .ok [(0x41, { len := 1, val := 0 }), (0x42, { len := 1, val := 1 })] := by
  decide +kernel

theorem witness_codebook_one : codebook oneWeight = .ok [(0x41, { len := 1, val := 0 })] := by decide +kernel

/-- LoneSymbolGetsTheOneBitCodeword. -/
theorem witness_lone : 0 < oneWeight 0x41 ∧ ∀ u, u ≠ 0x41 → oneWeight u = 0 :=
  ⟨by decide, fun _ h => if_neg h⟩

/-- CodebookIsPrefixFree, CodebookMeetsKraft, CodewordLengthsAreBounded and CodebookIsOptimal: a Codebook of two
entries, one of one entry, and a prefix-free assignment to compare with. -/
theorem witness_codebooks :
    (∃ cb : Codebook, codebook twoWeights = .ok cb ∧ 2 ≤ cb.length ∧
      PrefixFreeOn (cb.map Prod.fst) fun sym => if sym = 0x41 then [true] else [false, true]) ∧
    ∃ cb : Codebook, codebook oneWeight = .ok cb ∧ cb.length = 1 :=
  ⟨⟨_, witness_codebook_two, by decide, by simp [PrefixFreeOn]⟩, ⟨_, witness_codebook_one, rfl⟩⟩

/-- CodebookIsScaleInvariant. -/
theorem witness_scale : (0 : Nat) < 1 := by decide

/-- Weights 1 on 0 and 1, and 2 on 2 (BU5): the second merge is a tie of a leaf and an internal node. -/
def tieWeights : Symbol → Nat := fun sym => if sym = 0 then 1 else if sym = 1 then 1 else if sym = 2 then 2 else 0

theorem witness_codebook_tie :
    codebook tieWeights =
      .ok [(0, { len := 2, val := 0 }), (1, { len := 2, val := 1 }), (2, { len := 1, val := 1 })] := by
  decide +kernel

/-- LeastTwoSymbolsAreSiblings: equal weights, so the symbols decide; the clause of two entries. -/
theorem witness_siblings :
    (∃ cb : Codebook, codebook twoWeights = .ok cb ∧ cb.length = 2) ∧ 0 < twoWeights 0x41 ∧
      0 < twoWeights 0x42 ∧ keyLt twoWeights 0x41 0x42 ∧
      ∀ z, 0 < twoWeights z → z ≠ 0x41 → z ≠ 0x42 → keyLt twoWeights 0x42 z :=
  ⟨⟨_, witness_codebook_two, rfl⟩, by decide, by decide, .inr ⟨by decide, by decide⟩, fun z h h1 h2 => by
    rw [twoWeights, if_neg h1, if_neg h2] at h
    exact absurd h (by decide)⟩

/-- LeastTwoSymbolsAreSiblings: the clause of three entries, where the merged node ties with the leaf of 2. -/
theorem witness_siblings_three :
    (∃ cb : Codebook, codebook tieWeights = .ok cb ∧ 3 ≤ cb.length) ∧ 0 < tieWeights 0 ∧ 0 < tieWeights 1 ∧
      keyLt tieWeights 0 1 ∧ (∀ z, 0 < tieWeights z → z ≠ 0 → z ≠ 1 → keyLt tieWeights 1 z) ∧
      (0 : Symbol).toNat = min (0 : Symbol).toNat (1 : Symbol).toNat :=
  ⟨⟨_, witness_codebook_tie, by decide⟩, by decide, by decide, .inr ⟨by decide, by decide⟩, fun z h h1 h2 => by
    by_cases h3 : z = 2
    · subst h3; exact .inl (by decide)
    · rw [tieWeights, if_neg h1, if_neg h2, if_neg h3] at h
      exact absurd h (by decide), by decide⟩

/-- EqualWeightsGiveTheFixedLengthCode: the least of its powers of two, and the uniform table. -/
theorem witness_equal_weights :
    (0 < 1 ∧ (∀ sym, twoWeights sym = 0 ∨ twoWeights sym = 1) ∧ ∃ cb : Codebook,
      codebook twoWeights = .ok cb ∧ cb.length = 2 ^ 1) ∧ 0 < 7 ∧ ∀ sym : Symbol, (fun _ => 7) sym = 7 :=
  ⟨⟨by decide, fun sym => by
    unfold twoWeights
    split
    · exact .inr rfl
    · split
      · exact .inr rfl
      · exact .inl rfl, ⟨_, witness_codebook_two, rfl⟩⟩, by decide,
    fun _ => rfl⟩

/-- SencOfTheEmptySourceIsEmpty and SdecOfTheEmptyFileIsEmpty. -/
theorem witness_empty : State.reset.inLen = 0 := rfl

/-- SencWritesTheFile: SE1's first byte, on an OUT that the 11 bytes of the file fill. -/
theorem witness_senc :
    let s := capped 11 (weighted [(0x41, 9)] (loaded [0x41]))
    1 ≤ s.inLen.toNat ∧ s.inLen.toNat < 2 ^ 32 ∧ overCap s.params.inCap s.inLen.toNat = false ∧
      (∀ b ∈ s.inBytes, 0 < s.weight b) ∧ overCap s.params.outCap 11 = false := by decide +kernel

/-- SencRefusesLongAndUncodedSources: the least length that is too long, and SE14. -/
theorem witness_senc_refuses :
    let s := { State.reset with inLen := BitVec.ofNat 64 (2 ^ 32) }
    let u := weighted [(0x41, 9)] (loaded [0x41, 0x42])
    (overCap s.params.inCap s.inLen.toNat = false ∧ 2 ^ 32 ≤ s.inLen.toNat) ∧
      overCap u.params.inCap u.inLen.toNat = false ∧ u.inLen.toNat < 2 ^ 32 ∧ (∃ sym, 0 < u.weight sym) ∧
      1 < u.inLen.toNat ∧ u.weight (u.inByte 1) = 0 ∧ ∀ j, j < 1 → 0 < u.weight (u.inByte j) :=
  ⟨by decide, by decide, by decide, ⟨0x41, by decide⟩, by decide, by decide, by decide⟩

/-- SourceCodecRoundTrips: SE2 and its file. -/
theorem witness_source_round_trip :
    let s := weighted [(0x41, 9)] (loaded [0x41])
    let u := loaded [0x0A, 0, 0, 1, 0, 0, 0, 0x41, 1, 0, 0]
    ∃ t, exec .senc s = .next t ∧ t.status.state = .done ∧ u.inLen = t.outLen ∧ u.inBytes = t.outBytes ∧
      overCap u.params.inCap u.inLen.toNat = false ∧ overCap u.params.outCap s.inLen.toNat = false :=
  ⟨_, rfl, by decide +kernel, by decide +kernel, by decide +kernel, by decide +kernel, by decide +kernel⟩

/-- The table of SE1, one entry. -/
def oneRow : List Entry := [{ sym := 0x41, len := 1, val := 0 }]

/-- A table with one entry twice (SD14). -/
def twoRows : List Entry := [{ sym := 0x41, len := 1, val := 0 }, { sym := 0x41, len := 1, val := 0 }]

/-- SdecDecodesByMatching: one symbol; seven bits are left. -/
theorem witness_sdec :
    let s := loaded (sourceFile oneRow 1 [0])
    s.inBytes = sourceFile oneRow 1 [0] ∧ (∀ e ∈ oneRow, e.legal) ∧ 1 ≤ oneRow.length ∧ oneRow.length ≤ 256 ∧
      PicksUniquely oneRow oneRow (unpack [0]) (List.replicate 7 false) ∧ oneRow.length = 1 ∧
      overCap s.params.inCap s.inLen.toNat = false ∧ overCap s.params.outCap 1 = false :=
  ⟨by decide, by simp [oneRow, Entry.legal], by decide, by decide, ⟨by decide, rfl⟩, by decide, by decide,
    by decide⟩

/-- SdecReportsNoMatchAndAmbiguity: SD10, where the bit 1 matches nothing, and SD14, where an entry stands twice. -/
theorem witness_sdec_scan_errors :
    (PicksUniquely oneRow [] (unpack [0x80]) (unpack [0x80]) ∧ ([] : List Entry).length < 1 ∧
      matchesOf oneRow (unpack [0x80]) = []) ∧
    PicksUniquely twoRows [] (unpack [0]) (unpack [0]) ∧ (∀ e ∈ twoRows, e.legal) ∧
      2 ≤ (matchesOf twoRows (unpack [0])).length :=
  ⟨⟨rfl, by decide, by decide⟩, rfl, by simp [twoRows, Entry.legal], by decide⟩

/-- SdecReportsMalformedHeaders: its first clause at both ends of its range, and a header for each other clause
(SD16, SD19, SD17, SD20, SD21), all with no entry before the malformed one but SD21. -/
theorem witness_sdec_headers :
    (1 ≤ (loaded [0x0A]).inLen.toNat ∧ (loaded [0x0A]).inLen.toNat < 7) ∧
    ((loaded [0x0A, 0, 0, 5, 0, 0]).inLen.toNat = 6) ∧
    (let H : List Byte := [0x0A, 0, 0, 5, 0, 0, 0]
     H.length = 7 ∧ 1 = (H.getD 2 0).toNat + 1 ∧
      (loaded (H ++ [0x41])).inBytes = H ++ serialize [] ++ [0x41] ∧ ([0x41] : List Byte).length < 2 ∧
      (loaded (H ++ [0x41, 0, 0, 0])).inBytes = H ++ serialize [] ++ [0x41, 0, 0, 0] ∧
      (loaded (H ++ [0x41, 9, 0])).inBytes = H ++ serialize [] ++ [0x41, 9, 0] ∧
        ([0] : List Byte).length < ceil8 9 ∧
      (loaded (H ++ [0x41, 1, 2, 0])).inBytes = H ++ serialize [] ++ [0x41, 1, 2, 0] ∧
        ceil8 1 ≤ ([2, 0] : List Byte).length ∧ 2 ^ 1 ≤ fromLE (([2, 0] : List Byte).take (ceil8 1))) ∧
    (let H : List Byte := [0x0B, 0, 0, 5, 0, 0, 0]
     (loaded (H ++ [0x41, 1, 0, 0])).inBytes =
        H ++ serialize (oneRow.map fun e => (e.sym, { len := e.len, val := e.val })) ++ [0] ∧
      oneRow.length = (H.getD 2 0).toNat + 1 ∧ 10 ≠ (H.getD 0 0).toNat + 256 * (H.getD 1 0).toNat) := by
  decide

/-- RencRepeatsEveryBit: the least and the greatest factor, on an OUT that the file of one byte fills. -/
theorem witness_renc :
    let s := capped 8 (loaded [0xAA])
    let u := capped 14 (loaded [0x80])
    (s.inLen.toNat < 2 ^ 32 ∧ overCap s.params.inCap s.inLen.toNat = false ∧
      overCap s.params.outCap (5 + 3 * s.inLen.toNat) = false) ∧
    u.inLen.toNat < 2 ^ 32 ∧ overCap u.params.inCap u.inLen.toNat = false ∧
      overCap u.params.outCap (5 + 9 * u.inLen.toNat) = false := by decide

/-- RencRefusesBadFactorsAndLongSources: the factor 11, and the least length that is too long. -/
theorem witness_renc_refuses :
    let s := { State.reset with inLen := BitVec.ofNat 64 (2 ^ 32) }
    overCap s.params.inCap s.inLen.toNat = false ∧ 2 ^ 32 ≤ s.inLen.toNat ∧ (11 : Nat) ≠ 3 ∧ (11 : Nat) ≠ 5 ∧
      (11 : Nat) ≠ 7 ∧ (11 : Nat) ≠ 9 := by decide

/-- RdecTakesTheMajority: RD1, the payload as long as it must be. -/
theorem witness_rdec :
    let s := loaded [3, 0, 0, 0, 1, 0xE3, 0x8E, 0x38]
    s.inBytes = [BitVec.ofNat 8 3, BitVec.ofNat 8 (1 / 2 ^ 24), BitVec.ofNat 8 (1 / 2 ^ 16),
      BitVec.ofNat 8 (1 / 2 ^ 8), BitVec.ofNat 8 1] ++ [0xE3, 0x8E, 0x38] ∧
      1 * 3 ≤ ([0xE3, 0x8E, 0x38] : List Byte).length ∧ overCap s.params.inCap s.inLen.toNat = false ∧
      overCap s.params.outCap 1 = false := by decide

/-- RdecRefusesBadFiles: RD12, RD13, RD15. -/
theorem witness_rdec_refuses :
    ((loaded [3, 0, 0, 0]).inLen.toNat < 5) ∧
    ((loaded [4, 0, 0, 0, 0]).inBytes = [4, 0, 0, 0, 0] ++ [] ∧ (4 : Byte) ≠ 3 ∧ (4 : Byte) ≠ 5 ∧
      (4 : Byte) ≠ 7 ∧ (4 : Byte) ≠ 9) ∧
    ((loaded [3, 0, 0, 0, 1, 0xE3, 0x8E]).inBytes = [3, 0, 0, 0, 1] ++ [0xE3, 0x8E] ∧
      8 * ([0xE3, 0x8E] : List Byte).length < 1 * 8 * (3 : Byte).toNat) := by decide

/-- RepetitionCodecRoundTrips: RE1 and its file. -/
theorem witness_repetition_round_trip :
    let s := loaded [0xAA]
    let u := loaded [3, 0, 0, 0, 1, 0xE3, 0x8E, 0x38]
    ∃ t, exec (.renc 3) s = .next t ∧ t.status.state = .done ∧ u.inLen = t.outLen ∧ u.inBytes = t.outBytes ∧
      overCap u.params.inCap u.inLen.toNat = false ∧ overCap u.params.outCap s.inLen.toNat = false :=
  ⟨_, rfl, by decide, by decide, by decide, by decide, by decide⟩

/-- MajorityCorrectsUpToHalf: RD2 with one flip in each group, and RD4 with two. -/
theorem witness_majority :
    let s := loaded [0xAA]
    let u := loaded [3, 0, 0, 0, 1, 0x71, 0xC7, 0x1C]
    let v := loaded [3, 0, 0, 0, 1, 0x38, 0xE3, 0x8E]
    ∃ t, exec (.renc 3) s = .next t ∧ t.status.state = .done ∧
      u.inBytes = t.outBytes.take 5 ++ [0x71, 0xC7, 0x1C] ∧ v.inBytes = t.outBytes.take 5 ++ [0x38, 0xE3, 0x8E] ∧
      (t.outBytes.drop 5).length = 3 ∧ groupFlips 3 7 (t.outBytes.drop 5) [0x71, 0xC7, 0x1C] = 1 ∧
      groupFlips 3 7 (t.outBytes.drop 5) [0x38, 0xE3, 0x8E] = 2 :=
  ⟨_, rfl, by decide, by decide, by decide, by decide, by decide, by decide⟩

/-- NoiseXorsTheMask and NoiseIsAnInvolution: N5 with a bit-granular mask, N2's shape with a byte-granular one. -/
theorem witness_noise :
    let s := capped 8 (masked [1, 0, 0, 0, 0, 0, 0, 1] (loaded [0xA5]))
    let u := capped 8 (masked [0xFF] (loaded [0xA5]))
    (overCap s.params.inCap s.inLen.toNat = false ∧ overCap s.params.maskCap s.maskLen.toNat = false ∧
      overCap s.params.outCap s.inLen.toNat = false ∧ s.maskLen.toNat = 8 * s.inLen.toNat ∧
      ∀ k ∈ s.maskBytes, k = 0 ∨ k = 1) ∧
    u.maskLen = u.inLen ∧ ∀ k ∈ u.maskBytes, k = 0xFF := by decide

/-- NoiseRefusesBadMasks: N10 and N8. -/
theorem witness_noise_refuses :
    let s := masked [1, 0, 2, 0, 0, 0, 0, 0] (loaded [0xA5])
    let u := masked [0xFF] (loaded [0xA5, 0x5A])
    (s.maskLen.toNat = 8 * s.inLen.toNat ∧ 2 < s.maskLen.toNat ∧ 1 < (s.maskByte 2).toNat ∧
      ∀ i, i < 2 → (s.maskByte i).toNat ≤ 1) ∧
    u.maskLen.toNat ≠ 8 * u.inLen.toNat ∧ u.maskLen ≠ u.inLen := by decide

/-- NoiseIsAnInvolution: NOISE of N2 and the state in which its result is the input again. -/
theorem witness_involution :
    let s := masked [0xFF] (loaded [0xA5])
    let u := masked [0xFF] (loaded [0x5A])
    ∃ t, exec .noise s = .next t ∧ t.status.state = .done ∧ u.params = s.params ∧ u.inLen = t.outLen ∧
      u.inBytes = t.outBytes ∧ u.maskLen = s.maskLen ∧ u.maskBytes = s.maskBytes :=
  ⟨_, rfl, by decide, rfl, by decide, by decide, rfl, by decide⟩

end Sys2Proof.Tests
end

section
/-! The parameters are constants (R11, R20): the frame of each of the four things a step can do. -/

namespace Sys2Proof.Machine

/-- The engine's turn ends a command, so it has the frame that every end of a command has (R22). -/
theorem State.engineTurn_keeps {s t : State} (h : s.engineTurn = .next t) : InputsKept s t := by
  obtain ⟨o, ho⟩ := s.engineTurn_eq_settle
  rw [ho] at h
  injection h with h
  subst h
  exact s.settle_keeps _

/-- A reset and the start of a command keep the parameters too, not only the accesses that leave the engine alone. -/
@[simp] theorem State.hostFree_params (s : State) (a : HostAction) : (s.hostFree a).params = s.params := by
  obtain ⟨-, hreset⟩ | ⟨v, -, hstart⟩ | hkept := s.hostFree_cases a
  · rw [hreset, State.resetBlock_params]
  · rw [hstart, State.start_params]
  · exact hkept.params

theorem State.hostBusy_params {s t : State} {a : HostAction} (h : s.hostBusy a = .next t) : t.params = s.params := by
  obtain rfl | rfl | rfl := s.hostBusy_cases t a h
  · exact s.logRead_params _
  · rfl
  · exact s.resetBlock_params

/-- Settles O27, by what a step can do: wait, run the command, or act for the host in or outside BUSY. -/
theorem stepKeepsTheParameters : Obligations.StepKeepsTheParameters := by
  intro s t h
  obtain ⟨-, rfl, -⟩ | ⟨-, rest, -, hengine⟩ | ⟨-, a, rest, -, rfl⟩ | ⟨-, a, rest, -, -, hbusy⟩ := step_cases s t h
  · rfl
  · exact (State.engineTurn_keeps hengine).params.trans (s.popHost_params rest)
  · rw [State.hostFree_params, State.popHost_params]
  · exact (State.hostBusy_params hbusy).trans (s.popHost_params rest)

end Sys2Proof.Machine
end

section
/-! Whose turn a step is and what it does to the engine's fields, for every later statement about all steps: nothing,
a reset, the start of a command, or the end of one (R24, R25, R26, R240, R241, R261). -/

namespace Sys2Proof.Machine

/-- An action of the host other than the wait takes the step (log 1). -/
theorem step_eq_hostAct {s : State} {a : HostAction} {rest : List HostAction} (h : s.host = a :: rest)
    (ha : a ≠ .wait) : step s = (s.popHost rest).hostAct a := by
  unfold step State.turn
  rw [h]
  cases a
  case wait => exact absurd rfl ha
  all_goals rfl

theorem State.hostAct_of_busy {s : State} (a : HostAction) (h : s.status.state = .busy) :
    s.hostAct a = s.hostBusy a := by
  rw [State.hostAct, h]

theorem State.hostAct_of_not_busy {s : State} (a : HostAction) (h : s.status.state ≠ .busy) :
    s.hostAct a = .next (s.hostFree a) := by
  unfold State.hostAct
  split
  · contradiction
  all_goals rfl

/-- R272 for the engine's fields: a host action on a running command is a reset, or it changes none of them. -/
theorem State.hostBusy_reset_or_kept {s t : State} {a : HostAction} (h : s.hostBusy a = .next t) :
    (a.isReset ∧ t = s.resetBlock) ∨ EngineKept s t := by
  unfold State.hostBusy at h
  split at h
  case h_1 =>
    cases h
    exact .inr ⟨rfl, rfl, rfl, rfl, rfl, rfl, rfl, rfl, rfl, rfl, rfl, rfl⟩
  case h_2 | h_6 =>
    cases h
    exact .inr (EngineKept.refl s)
  case h_3 v =>
    split at h
    · rename_i hv
      cases h
      exact .inl ⟨.inr (.inr ⟨v, rfl, hv⟩), rfl⟩
    · cases h
  case h_4 =>
    cases h
    exact .inl ⟨.inr (.inl rfl), rfl⟩
  case h_5 =>
    cases h
    exact .inl ⟨.inl rfl, rfl⟩
  all_goals cases h

/-- A command ended from `s` in `t`: in the error entry, or in a completion whose result fits OUT and the
register OUT_LEN. -/
def EndsCommand (s t : State) : Prop :=
  (∃ e, t = s.errorEntry e) ∨
    ∃ r : Result, overCap s.params.outCap r.bytes.length = false ∧ r.bytes.length < 2 ^ 64 ∧ t = s.complete r

theorem endsCommand_of_exec {i : Instr} {s t : State} (h : exec i s = .next t) : EndsCommand s t := by
  obtain herror | ⟨r, -, rfl⟩ := exec_cases i s t h
  · exact .inl herror
  · obtain ⟨r', houtcome, ht, hfits⟩ := result_of_done h rfl
    exact .inr ⟨r', hfits, (outcomeOf_bound i s r' houtcome).1, ht⟩

theorem State.engineTurn_endsCommand {s t : State} (h : s.engineTurn = .next t) : EndsCommand s t := by
  unfold State.engineTurn at h
  split at h
  · exact endsCommand_of_exec h
  · cases h
    exact .inl ⟨_, rfl⟩

/-- Everything a step can do to the engine's fields; taking the action off the host's list is no matter of the
block's. -/
theorem step_engine_cases {s t : State} (h : step s = .next t) :
    (∃ rest, EngineKept (s.popHost rest) t) ∨
    (∃ a rest, s.host = a :: rest ∧ a.isReset ∧ t = (s.popHost rest).resetBlock) ∨
    (s.status.state ≠ .busy ∧
      ∃ v rest, s.host = .write .reg 0 v :: rest ∧ t = (s.popHost rest).start (BitVec.ofNat 16 v)) ∨
    (s.status.state = .busy ∧ ∃ rest, EndsCommand (s.popHost rest) t) := by
  obtain ⟨-, rfl, -⟩ | ⟨hbusy, rest, -, hengine⟩ | ⟨hfree, a, rest, hhost, rfl⟩ | ⟨-, a, rest, hhost, -, hact⟩ :=
    step_cases s t h
  · exact .inl ⟨t.host, EngineKept.refl t⟩
  · exact .inr (.inr (.inr ⟨hbusy, rest, State.engineTurn_endsCommand hengine⟩))
  · obtain ⟨hreset, ht⟩ | ⟨v, rfl, ht⟩ | hkept := (s.popHost rest).hostFree_cases a
    · exact .inr (.inl ⟨a, rest, hhost, hreset, ht⟩)
    · exact .inr (.inr (.inl ⟨hfree, v, rest, hhost, ht⟩))
    · exact .inl ⟨rest, hkept⟩
  · obtain ⟨hreset, ht⟩ | hkept := State.hostBusy_reset_or_kept hact
    · exact .inr (.inl ⟨a, rest, hhost, hreset, ht⟩)
    · exact .inl ⟨rest, hkept⟩

end Sys2Proof.Machine
end

section
/-! The invariant of a run (R26, R43, R61, R232, R240, R241, R245). It falls into the part on IN and MASK, which the
host's writes touch, and the part on the engine's fields, which only a reset and a command touch. -/

namespace Sys2Proof.Machine

/-- A buffer in canonical form whose cells are all inside the capacity (R60). -/
structure Memory.Canonical (cap : Option Nat) (M : Memory) : Prop where
  wf : Memory.wf M = true
  cells : ∀ e ∈ M, inSpace cap e.1 = true

theorem Memory.Canonical.nil (cap : Option Nat) : Memory.Canonical cap [] := ⟨rfl, by simp⟩

theorem Memory.Canonical.write {cap : Option Nat} {M : Memory} (h : Memory.Canonical cap M) {i : Nat}
    (hi : inSpace cap i = true) (v : Byte) : Memory.Canonical cap (Memory.write M i v) where
  wf := Memory.wf_write M i v h.wf
  cells e he := by
    obtain rfl | hold := Memory.mem_write he
    · exact hi
    · exact h.cells e hold

/-- The part of the invariant that speaks of IN and MASK. -/
structure State.InputsCanonical (s : State) : Prop where
  input : Memory.Canonical s.params.inCap s.inBuf
  mask : Memory.Canonical s.params.maskCap s.maskBuf

theorem State.Inv.inputs {s : State} (h : s.Inv) : s.InputsCanonical :=
  ⟨⟨h.inWf, h.inCells⟩, ⟨h.maskWf, h.maskCells⟩⟩

theorem State.resetBlock_inputsCanonical (s : State) : s.resetBlock.InputsCanonical :=
  ⟨Memory.Canonical.nil _, Memory.Canonical.nil _⟩

/-- What keeps the inputs keeps their canonical form. -/
theorem State.InputsCanonical.of_kept {s t : State} (h : s.InputsCanonical) (k : InputsKept s t) :
    t.InputsCanonical where
  input := by rw [k.params, k.inBuf]; exact h.input
  mask := by rw [k.params, k.maskBuf]; exact h.mask

/-- A host write reaches only the cells inside the space (R61). -/
theorem State.InputsCanonical.hostWrite {s : State} (h : s.InputsCanonical) (sp : Space) (i v : Nat) :
    (s.hostWrite sp i v).InputsCanonical := by
  cases sp with
  | reg =>
    simp only [State.hostWrite, State.writeReg]
    split
    case h_4 =>
      split
      · exact s.resetBlock_inputsCanonical
      · exact h
    all_goals exact ⟨h.input, h.mask⟩
  | wt =>
    simp only [State.hostWrite, State.writeWt]
    split
    · exact ⟨h.input, h.mask⟩
    · exact h
  | input =>
    simp only [State.hostWrite, State.writeIn]
    split
    · rename_i hi
      exact ⟨h.input.write hi _, h.mask⟩
    · exact h
  | mask =>
    simp only [State.hostWrite, State.writeMask]
    split
    · rename_i hi
      exact ⟨h.input, h.mask.write hi _⟩
    · exact h
  | out => exact h

theorem State.InputsCanonical.writeBytes {s : State} (h : s.InputsCanonical) (sp : Space) (i : Nat) (B : List Byte) :
    (State.writeBytes sp i B s).InputsCanonical := by
  induction B generalizing i s with
  | nil => exact h
  | cons b B ih => exact ih (h.hostWrite sp i b.toNat) (i + 1)

theorem State.InputsCanonical.clearWeights {s : State} (h : s.InputsCanonical) : s.clearWeights.InputsCanonical :=
  List.foldlRecOn (motive := State.InputsCanonical) _ _ h fun _ ht i _ => ht.hostWrite .wt i 0

theorem State.InputsCanonical.loadIn {s : State} (h : s.InputsCanonical) (B : List Byte) :
    (s.loadIn B).InputsCanonical :=
  (h.writeBytes .input 0 B).hostWrite .reg 4 _

theorem State.InputsCanonical.loadMask {s : State} (h : s.InputsCanonical) (B : List Byte) :
    (s.loadMask B).InputsCanonical :=
  (h.writeBytes .mask 0 B).hostWrite .reg 5 _

theorem State.InputsCanonical.hostFree {s : State} (h : s.InputsCanonical) (a : HostAction) :
    (s.hostFree a).InputsCanonical := by
  cases a with
  | read sp i => exact ⟨h.input, h.mask⟩
  | write sp i v => exact h.hostWrite sp i v
  | wait => exact h
  | setw i w => exact h.hostWrite .wt i w
  | clrw => exact h.clearWeights
  | ldin B => exact h.loadIn B
  | ldmask B => exact h.loadMask B
  | movoi => exact h.loadIn _
  | softReset => exact h.hostWrite .reg 9 1
  | hardReset => exact s.resetBlock_inputsCanonical

theorem State.InputsCanonical.hostBusy {s t : State} {a : HostAction} (h : s.InputsCanonical)
    (hact : s.hostBusy a = .next t) : t.InputsCanonical := by
  obtain rfl | rfl | rfl := s.hostBusy_cases t a hact
  · exact ⟨h.input, h.mask⟩
  · exact h
  · exact s.resetBlock_inputsCanonical

theorem State.InputsCanonical.popHost {s : State} (h : s.InputsCanonical) (rest : List HostAction) :
    (s.popHost rest).InputsCanonical :=
  ⟨h.input, h.mask⟩

theorem State.InputsCanonical.step {s t : State} (h : s.InputsCanonical) (hstep : step s = .next t) :
    t.InputsCanonical := by
  obtain ⟨-, rfl, -⟩ | ⟨-, rest, -, hengine⟩ | ⟨-, a, rest, -, rfl⟩ | ⟨-, a, rest, -, -, hact⟩ := step_cases s t hstep
  · exact h
  · exact (h.popHost rest).of_kept (State.engineTurn_keeps hengine)
  · exact (h.popHost rest).hostFree a
  · exact (h.popHost rest).hostBusy hact

@[simp] theorem overCap_zero (cap : Option Nat) : overCap cap 0 = false := by
  cases cap <;> simp [overCap]

/-- No cause has the code of "no error" (R231, R232). -/
theorem Cause.err_ne_zero (c : Cause) : c.err ≠ 0 := by
  cases c <;> decide

/-- The reset values have the invariant, for every choice of the parameters (R42, R11). -/
theorem State.resetWith_inv (p : Params) : State.Inv { State.reset with params := p } where
  inWf := rfl
  maskWf := rfl
  outWf := rfl
  inCells := (Memory.Canonical.nil _).cells
  maskCells := (Memory.Canonical.nil _).cells
  outCells := rfl
  outFits := overCap_zero _
  errListed := .inl rfl
  errLatched h := absurd rfl h
  errorReport h := nomatch h
  doneReport h := nomatch h
  idleReport _ := ⟨rfl, rfl, rfl, rfl, rfl, rfl, rfl⟩

/-- Settles O22: the defaults of R11 are one choice of the parameters. -/
theorem invariantHoldsAtReset : Obligations.InvariantHoldsAtReset :=
  State.resetWith_inv Params.default

/-- The invariant does not look at the model's own fields. -/
theorem State.Inv.setOwnFields {s : State} (h : s.Inv) (epoch outEpoch : Nat) (host : List HostAction)
    (reads : List Nat) :
    State.Inv { s with epoch := epoch, outEpoch := outEpoch, host := host, reads := reads } :=
  ⟨h.inWf, h.maskWf, h.outWf, h.inCells, h.maskCells, h.outCells, h.outFits, h.errListed, h.errLatched,
    h.errorReport, h.doneReport, h.idleReport⟩

theorem State.Inv.popHost {s : State} (h : s.Inv) (rest : List HostAction) : (s.popHost rest).Inv :=
  h.setOwnFields _ _ rest _

theorem State.resetBlock_inv (s : State) : s.resetBlock.Inv :=
  (State.resetWith_inv s.params).setOwnFields _ _ _ _

/-- What leaves the engine's fields alone needs to care for IN and MASK only. -/
theorem State.Inv.of_engineKept {s t : State} (h : s.Inv) (k : EngineKept s t) (hin : t.InputsCanonical) : t.Inv where
  inWf := hin.input.wf
  maskWf := hin.mask.wf
  inCells := hin.input.cells
  maskCells := hin.mask.cells
  outWf := by rw [k.outBuf]; exact h.outWf
  outCells := by rw [k.outBuf, k.outLen]; exact h.outCells
  outFits := by rw [k.params, k.outLen]; exact h.outFits
  errListed := by rw [k.err]; exact h.errListed
  errLatched := by rw [k.err, k.status]; exact h.errLatched
  errorReport := by rw [k.status, k.err, k.outLen, k.srcLen, k.payloadLen]; exact h.errorReport
  doneReport := by rw [k.status, k.err, k.errInfo]; exact h.doneReport
  idleReport := by
    rw [k.status, k.cmd, k.err, k.errInfo, k.outLen, k.srcLen, k.payloadLen]
    exact h.idleReport

theorem State.Inv.start {s : State} (h : s.Inv) (c : CmdWord) : (s.start c).Inv :=
  ⟨h.inWf, h.maskWf, h.outWf, h.inCells, h.maskCells, h.outCells, h.outFits, h.errListed, h.errLatched,
    nofun, nofun, nofun⟩

theorem State.Inv.errorEntry {s : State} (h : s.Inv) (e : CmdError) : (s.errorEntry e).Inv where
  inWf := h.inWf
  maskWf := h.maskWf
  outWf := rfl
  inCells := h.inCells
  maskCells := h.maskCells
  outCells := rfl
  outFits := overCap_zero _
  errListed := .inr ⟨e.cause, rfl⟩
  errLatched _ := rfl
  errorReport _ := ⟨e.cause.err_ne_zero, rfl, rfl, rfl⟩
  doneReport h := nomatch h
  idleReport h := nomatch h

theorem State.Inv.complete {s : State} (h : s.Inv) {r : Result}
    (hfits : overCap s.params.outCap r.bytes.length = false) (hlen : r.bytes.length < 2 ^ 64) :
    (s.complete r).Inv := by
  have houtLen : (s.complete r).outLen.toNat = r.bytes.length := by simpa using Nat.mod_eq_of_lt hlen
  exact
  { inWf := h.inWf
    maskWf := h.maskWf
    outWf := Memory.wf_ofBytes r.bytes
    inCells := h.inCells
    maskCells := h.maskCells
    outCells := by rw [houtLen]; exact Memory.fst_ofBytes r.bytes
    outFits := by rw [houtLen]; exact hfits
    errListed := .inl rfl
    errLatched := fun herr => absurd rfl herr
    errorReport := nofun
    doneReport := fun _ => ⟨rfl, rfl⟩
    idleReport := nofun }

theorem State.Inv.endsCommand {s t : State} (h : s.Inv) (hend : EndsCommand s t) : t.Inv := by
  obtain ⟨e, rfl⟩ | ⟨r, hfits, hlen, rfl⟩ := hend
  · exact h.errorEntry e
  · exact h.complete hfits hlen

/-- Settles O23, by what a step can do to the engine's fields; the form of IN and MASK is kept apart. -/
theorem stepKeepsTheInvariant : Obligations.StepKeepsTheInvariant := by
  intro s t h hstep
  obtain ⟨rest, hkept⟩ | ⟨a, rest, -, -, rfl⟩ | ⟨-, v, rest, -, rfl⟩ | ⟨-, rest, hend⟩ := step_engine_cases hstep
  · exact (h.popHost rest).of_engineKept hkept (h.inputs.step hstep)
  · exact State.resetBlock_inv _
  · exact (h.popHost rest).start _
  · exact (h.popHost rest).endsCommand hend

end Sys2Proof.Machine
end

section
/-! What a command changes and what it depends on (R21, R22). -/

namespace Sys2Proof.Machine

/-- The same outcome is reported alike from every state (R240, R241): FAULT_LATCH alone is not of the outcome. -/
theorem State.settle_reports_outcome (s u : State) (o : CmdOutcome) :
    (u.settle o).status.state = (s.settle o).status.state ∧ (u.settle o).err = (s.settle o).err ∧
      (u.settle o).errInfo = (s.settle o).errInfo ∧ (u.settle o).outLen = (s.settle o).outLen ∧
      (u.settle o).srcLen = (s.settle o).srcLen ∧ (u.settle o).payloadLen = (s.settle o).payloadLen ∧
      (u.settle o).outBuf = (s.settle o).outBuf := by
  cases o <;> exact ⟨rfl, rfl, rfl, rfl, rfl, rfl, rfl⟩

theorem inputTest_congr {s u : State} (hp : u.params = s.params) (hlen : u.inLen = s.inLen) (o : CmdOutcome) :
    inputTest u o = inputTest s o := by
  rw [inputTest, inputTest, hp, hlen]

theorem maskTest_congr {s u : State} (hp : u.params = s.params) (hlen : u.maskLen = s.maskLen) (o : CmdOutcome) :
    maskTest u o = maskTest s o := by
  rw [maskTest, maskTest, hp, hlen]

theorem State.weight_congr {s u : State} (h : u.wt = s.wt) : u.weight = s.weight := by
  funext sym
  simp only [State.weight, h]

/-- R21: the outcome is a function of the parameters and the operands that the command reads. -/
theorem outcomeOf_congr {i : Instr} {s u : State} (hp : u.params = s.params)
    (hwt : i = .build ∨ i = .senc → u.wt = s.wt)
    (hin : i ≠ .build → u.inLen = s.inLen ∧ u.inBytes = s.inBytes)
    (hmask : i = .noise → u.maskLen = s.maskLen ∧ u.maskBytes = s.maskBytes) : outcomeOf i u = outcomeOf i s := by
  by_cases hb : i = .build
  · subst hb
    simp only [outcomeOf, State.weight_congr (hwt (.inl rfl))]
  · obtain ⟨hlen, hbytes⟩ := hin hb
    cases i with
    | build => contradiction
    | senc => simp only [outcomeOf, inputTest_congr hp hlen, hp, State.weight_congr (hwt (.inr rfl)), hbytes, hlen]
    | sdec | renc | rdec => simp only [outcomeOf, inputTest_congr hp hlen, hbytes, hlen]
    | noise =>
      obtain ⟨hmlen, hmbytes⟩ := hmask rfl
      simp only [outcomeOf, inputTest_congr hp hlen, maskTest_congr hp hmlen, hbytes, hlen, hmbytes, hmlen]

/-- Settles O16: a command is the end of an outcome, and every end has the frame. -/
theorem commandsKeepTheirInputs : Obligations.CommandsKeepTheirInputs := by
  intro i s t h
  obtain ⟨o, ho⟩ := exec_eq_settle i s
  rw [ho] at h
  cases h
  exact s.settle_keeps _

/-- Settles O19: equal operands give equal outcomes, which are reported alike. -/
theorem commandsReadTheirOperandsOnly : Obligations.CommandsReadTheirOperandsOnly := by
  intro i s u t v hp hwt hin hmask ht hv
  rw [exec_eq_finish, State.finish] at ht hv
  rw [outcomeOf_congr hp hwt hin hmask, hp] at hv
  cases ht
  cases hv
  exact s.settle_reports_outcome u _

end Sys2Proof.Machine
end

section
/-! STATUS, the results and the CMD write, at the step (R24, R25, R26, R42, R60, R246, R261). -/

namespace Sys2Proof.Machine

/-- The `done` output by STATE (R246). -/
theorem Status.doneOut_iff (st : Status) : st.doneOut = true ↔ st.state = .done ∨ st.state = .error := by
  obtain ⟨phase, latch⟩ := st
  cases phase <;> simp [Status.doneOut]

theorem Status.doneOut_of_busy {st : Status} (h : st.state = .busy) : st.doneOut = false := by
  rw [Status.doneOut, h]

/-- The end of a command leaves BUSY for DONE or ERROR (R240, R241). -/
theorem EndsCommand.state {s t : State} (h : EndsCommand s t) : t.status.state = .done ∨ t.status.state = .error := by
  obtain ⟨e, rfl⟩ | ⟨r, -, -, rfl⟩ := h
  · exact .inr rfl
  · exact .inl rfl

/-- Settles O25, by what a step can do to the engine's fields. -/
theorem stateChangesOnlyByCommandsAndResets : Obligations.StateChangesOnlyByCommandsAndResets := by
  refine ⟨fun s => s.status.doneOut_iff, fun s t hstep hne => ?_⟩
  obtain ⟨rest, hkept⟩ | ⟨a, rest, hhost, hreset, rfl⟩ | ⟨hfree, v, rest, hhost, rfl⟩ | ⟨hbusy, rest, hend⟩ :=
    step_engine_cases hstep
  · exact absurd (congrArg Status.state hkept.status) hne
  · exact .inl ⟨a, rest, hhost, .inl ⟨hreset, rfl, rfl⟩⟩
  · exact .inl ⟨_, rest, hhost, .inr ⟨⟨v, rfl⟩, hfree, rfl, rfl⟩⟩
  · exact .inr ⟨hbusy, Status.doneOut_of_busy hbusy, hend.state, t.status.doneOut_iff.mpr hend.state⟩

/-- The result in OUT is unchanged where the engine's fields are. -/
theorem EngineKept.outBytes {s t : State} (h : EngineKept s t) : t.outBytes = s.outBytes := by
  have hbyte : t.outByte = s.outByte := funext h.outByte
  rw [State.outBytes, State.outBytes, hbyte, h.outLen]

/-- Settles O26: outside BUSY a step that is no reset leaves the engine's fields alone or starts a command, and the
start leaves the results of the one before. -/
theorem hostCannotWriteResults : Obligations.HostCannotWriteResults := by
  intro s t hfree hstep
  obtain ⟨rest, hkept⟩ | ⟨a, rest, hhost, hreset, -⟩ | ⟨-, v, rest, -, rfl⟩ | ⟨hbusy, -⟩ := step_engine_cases hstep
  · exact .inr ⟨hkept.err, hkept.errInfo, hkept.outLen, hkept.srcLen, hkept.payloadLen, hkept.outBytes, hkept.outByte⟩
  · exact .inl ⟨a, rest, hhost, hreset⟩
  · exact .inr ⟨rfl, rfl, rfl, rfl, rfl, rfl, fun _ => rfl⟩
  · exact absurd hbusy hfree

/-- Settles O6: the CMD write is the host's step, and R272 ignores it while a command runs. -/
theorem cmdWriteStartsCommand : Obligations.CmdWriteStartsCommand := by
  intro s v rest hhost
  have hstep : step s = (s.popHost rest).hostAct (.write .reg 0 v) := step_eq_hostAct hhost nofun
  constructor
  · intro hfree
    have hact := State.hostAct_of_not_busy (s := s.popHost rest) (.write .reg 0 v) hfree
    exact ⟨_, hstep.trans hact, rfl, BitVec.toNat_ofNat v 16⟩
  · intro hbusy
    have hact := State.hostAct_of_busy (s := s.popHost rest) (.write .reg 0 v) hbusy
    exact hstep.trans hact

/-- Settles O9: each register is 0 in the record itself, and each weight is a cell of the table of zeros. -/
theorem startStateIsTheResetState : Obligations.StartStateIsTheResetState := by
  have hweight : ∀ sym, State.reset.weight sym = 0 := by
    intro sym
    simp [State.weight, State.reset]
  exact ⟨rfl, rfl, rfl, rfl, rfl, rfl, rfl, rfl, rfl, rfl, hweight, rfl⟩

end Sys2Proof.Machine
end

section
/-! The capacity of OUT (R80, R93): the outcome of a command does not depend on it, so the output test alone does. -/

namespace Sys2Proof.Machine

/-- No command looks at OUT_CAP before its output test (R93). -/
theorem outcomeOf_setOutCap (i : Instr) (s : State) (cap : Option Nat) :
    outcomeOf i { s with params := { s.params with outCap := cap } } = outcomeOf i s := by
  cases i <;> rfl

/-- An outcome that is a result and does not fit OUT ends the command with OUTPUT_CAPACITY. -/
theorem exec_of_result_over {i : Instr} {s : State} {r : Result} (h : outcomeOf i s = .ok r)
    (hc : overCap s.params.outCap r.bytes.length = true) :
    ∃ t, exec i s = .next t ∧ EndsWithError .outputCapacity r.bytes.length s t :=
  ⟨_, by rw [exec_eq_finish, h]; exact s.finish_over r hc, s.errorEntry_ends .outputCapacity r.bytes.length⟩

/-- Settles O21: the result on the unbounded OUT is the outcome on the bounded one too, and OUT_LEN is its length,
since a length of a result never wraps. -/
theorem outputCapacityIsTestedLast : Obligations.OutputCapacityIsTestedLast := by
  intro i s u cap hexec hdone hcap hover
  obtain ⟨r, hr, rfl, -⟩ := result_of_done hexec hdone
  rw [outcomeOf_setOutCap] at hr
  have houtLen : (State.complete r { s with params := { s.params with outCap := none } }).outLen.toNat =
      r.bytes.length := by
    simpa using Nat.mod_eq_of_lt (outcomeOf_bound i s r hr).1
  rw [houtLen] at hover ⊢
  exact exec_of_result_over hr (by simpa [overCap, hcap] using hover)

end Sys2Proof.Machine
end

section
/-! The host's single accesses outside BUSY, unit by unit (R24, R60, R61): what a write leaves in its unit and in the
others, what the accesses outside a space do, and what a read returns. -/

namespace Sys2Proof.Machine

/-! The registers. -/

/-- The host writes CMD, IN_LEN, MASK_LEN and CTRL, and no other register (R24). -/
theorem State.writeReg_ignored (s : State) {k : Nat} (v : Nat) (h0 : k ≠ 0) (h4 : k ≠ 4) (h5 : k ≠ 5) (h9 : k ≠ 9) :
    s.writeReg k v = s := by
  unfold State.writeReg
  split
  case h_5 => rfl
  all_goals contradiction

/-- CTRL and the registers that do not exist read 0 (R24, R34). -/
theorem State.readReg_of_ge (s : State) {k : Nat} (h : 9 ≤ k) : s.readReg k = 0 := by
  unfold State.readReg
  split
  case h_10 => rfl
  all_goals contradiction

/-- STATE in bits 1:0 and FAULT_LATCH in bit 2 fit the byte (R26). -/
theorem Status.toNat_word (st : Status) : st.word.toNat = st.state.code + 4 * st.faultLatch.toNat := by
  obtain ⟨phase, latch⟩ := st
  cases phase <;> cases latch <;> rfl

/-! The weight table. -/

theorem State.writeWt_outside (s : State) {i : Nat} (v : Nat) (h : 256 ≤ i) : s.writeWt i v = s :=
  dif_neg (by omega)

theorem State.writeWt_inside (s : State) {i : Nat} (v : Nat) (h : i < 256) :
    s.writeWt i v = { s with wt := s.wt.set i (BitVec.ofNat 32 v) } :=
  dif_pos h

theorem State.writeWt_frame (s : State) (i v : Nat) : s.writeWt i v = { s with wt := (s.writeWt i v).wt } := by
  unfold State.writeWt
  split <;> rfl

theorem State.readWt_outside (s : State) {i : Nat} (h : 256 ≤ i) : s.readWt i = 0 :=
  dif_neg (by omega)

/-- The host reads at a symbol's number the weight the commands read (R35). -/
theorem State.readWt_symbol (s : State) (sym : Symbol) : s.readWt sym.toNat = s.weight sym :=
  dif_pos sym.isLt

theorem State.readWt_writeWt_same (s : State) {i : Nat} (v : Nat) (h : i < 256) :
    (s.writeWt i v).readWt i = v % 2 ^ 32 := by
  simp [State.writeWt_inside s v h, State.readWt, h]

theorem State.readWt_writeWt_other (s : State) {i j : Nat} (v : Nat) (h : j ≠ i) :
    (s.writeWt i v).readWt j = s.readWt j := by
  by_cases hi : i < 256
  · simp [State.writeWt_inside s v hi, State.readWt, Ne.symm h]
  · rw [s.writeWt_outside v (by omega)]

/-! The buffers IN and MASK. -/

theorem State.writeIn_outside (s : State) {i : Nat} (v : Nat) (h : inSpace s.params.inCap i = false) :
    s.writeIn i v = s :=
  if_neg (by simp [h])

theorem State.writeIn_inside (s : State) {i : Nat} (v : Nat) (h : inSpace s.params.inCap i = true) :
    s.writeIn i v = { s with inBuf := s.inBuf.write i (BitVec.ofNat 8 v) } :=
  if_pos h

theorem State.writeIn_frame (s : State) (i v : Nat) : s.writeIn i v = { s with inBuf := (s.writeIn i v).inBuf } := by
  unfold State.writeIn
  split <;> rfl

theorem State.inByte_writeIn_same (s : State) {i : Nat} (v : Nat) (h : inSpace s.params.inCap i = true) :
    (s.writeIn i v).inByte i = BitVec.ofNat 8 v := by
  simp [State.writeIn_inside s v h, State.inByte]

theorem State.inByte_writeIn_other (s : State) {i j : Nat} (v : Nat) (h : j ≠ i) :
    (s.writeIn i v).inByte j = s.inByte j := by
  cases hi : inSpace s.params.inCap i with
  | true => simp [State.writeIn_inside s v hi, State.inByte, Memory.read?_write_other _ _ _ _ h]
  | false => rw [s.writeIn_outside v hi]

theorem State.writeMask_outside (s : State) {i : Nat} (v : Nat) (h : inSpace s.params.maskCap i = false) :
    s.writeMask i v = s :=
  if_neg (by simp [h])

theorem State.writeMask_inside (s : State) {i : Nat} (v : Nat) (h : inSpace s.params.maskCap i = true) :
    s.writeMask i v = { s with maskBuf := s.maskBuf.write i (BitVec.ofNat 8 v) } :=
  if_pos h

theorem State.writeMask_frame (s : State) (i v : Nat) : s.writeMask i v = { s with maskBuf := (s.writeMask i v).maskBuf } := by
  unfold State.writeMask
  split <;> rfl

theorem State.maskByte_writeMask_same (s : State) {i : Nat} (v : Nat) (h : inSpace s.params.maskCap i = true) :
    (s.writeMask i v).maskByte i = BitVec.ofNat 8 v := by
  simp [State.writeMask_inside s v h, State.maskByte]

theorem State.maskByte_writeMask_other (s : State) {i j : Nat} (v : Nat) (h : j ≠ i) :
    (s.writeMask i v).maskByte j = s.maskByte j := by
  cases hi : inSpace s.params.maskCap i with
  | true => simp [State.writeMask_inside s v hi, State.maskByte, Memory.read?_write_other _ _ _ _ h]
  | false => rw [s.writeMask_outside v hi]

/-! What the host reads back from the buffer cell it has written. -/

theorem State.hostRead_writeIn_same (s : State) {i : Nat} (v : Nat) (h : inSpace s.params.inCap i = true) :
    (s.writeIn i v).hostRead .input i = v % 2 ^ 8 := by
  have hparams : (s.writeIn i v).params = s.params := (s.hostWrite_kept .input i v (.inl nofun)).params
  simp [State.hostRead, hparams, h, s.inByte_writeIn_same v h]

theorem State.hostRead_writeMask_same (s : State) {i : Nat} (v : Nat) (h : inSpace s.params.maskCap i = true) :
    (s.writeMask i v).hostRead .mask i = v % 2 ^ 8 := by
  have hparams : (s.writeMask i v).params = s.params := (s.hostWrite_kept .mask i v (.inl nofun)).params
  simp [State.hostRead, hparams, h, s.maskByte_writeMask_same v h]

/-! The step of an access. -/

/-- Outside BUSY the step of an action other than the wait is that action (log 1). -/
theorem step_eq_hostFree {s : State} {a : HostAction} {rest : List HostAction} (hfree : s.status.state ≠ .busy)
    (hhost : s.host = a :: rest) (ha : a ≠ .wait) : step s = .next ((s.popHost rest).hostFree a) :=
  (step_eq_hostAct hhost ha).trans (State.hostAct_of_not_busy (s := s.popHost rest) a hfree)

/-- Settles O11: the step is the write, and each clause is the law of its unit. -/
theorem hostWriteChangesItsUnitOnly : Obligations.HostWriteChangesItsUnitOnly := by
  intro s rest sp i v hfree hhost
  have hstep : step s = .next ((s.popHost rest).hostWrite sp i v) := step_eq_hostFree hfree hhost nofun
  have hignored (h : (s.popHost rest).hostWrite sp i v = s.popHost rest) : step s = .next { s with host := rest } :=
    hstep.trans (congrArg _ h)
  refine ⟨?inLen, ?maskLen, ?reg, ?wtOutside, ?wtInside, ?inOutside, ?inInside, ?maskOutside, ?maskInside, ?out⟩
  case inLen | maskLen =>
    rintro rfl rfl
    exact hstep
  case reg =>
    rintro rfl h0 h4 h5 h9
    exact hignored (State.writeReg_ignored _ v h0 h4 h5 h9)
  case wtOutside =>
    rintro rfl hi
    exact hignored (State.writeWt_outside _ v hi)
  case wtInside =>
    rintro rfl hi
    exact ⟨_, hstep, State.writeWt_frame _ i v, State.readWt_writeWt_same _ v hi,
      fun j hj => State.readWt_writeWt_other _ v hj⟩
  case inOutside =>
    rintro rfl hi
    exact hignored (State.writeIn_outside _ v hi)
  case inInside =>
    rintro rfl hi
    exact ⟨_, hstep, State.writeIn_frame _ i v, State.hostRead_writeIn_same _ v hi,
      fun j hj => State.inByte_writeIn_other _ v hj⟩
  case maskOutside =>
    rintro rfl hi
    exact hignored (State.writeMask_outside _ v hi)
  case maskInside =>
    rintro rfl hi
    exact ⟨_, hstep, State.writeMask_frame _ i v, State.hostRead_writeMask_same _ v hi,
      fun j hj => State.maskByte_writeMask_other _ v hj⟩
  case out =>
    rintro rfl
    exact hstep

/-- Settles O12: the step logs the value of the read, which is that of `s` with the action taken off the list. -/
theorem hostReadReturnsItsUnit : Obligations.HostReadReturnsItsUnit := by
  intro s rest sp i hfree hhost
  refine ⟨(s.popHost rest).hostRead sp i, step_eq_hostFree hfree hhost nofun, ?cmd, ?status, ?err, ?errInfo, ?inLen,
    ?maskLen, ?outLen, ?srcLen, ?payloadLen, ?noReg, ?wt, ?wtOutside, ?input, ?mask, ?out⟩
  case cmd | err | errInfo | inLen | maskLen | outLen | srcLen | payloadLen =>
    rintro rfl rfl
    rfl
  case status =>
    rintro rfl rfl
    refine s.status.toNat_word.trans ?_
    cases s.status.state <;> cases s.status.faultLatch <;> rfl
  case noReg =>
    rintro rfl hi
    exact State.readReg_of_ge _ hi
  case wt =>
    rintro rfl sym rfl
    exact State.readWt_symbol _ sym
  case wtOutside =>
    rintro rfl hi
    exact State.readWt_outside _ hi
  case input | mask | out =>
    rintro rfl
    rfl

end Sys2Proof.Machine
end

section
/-! The command word (R90 to R94): the encoder and the decoder agree field by field, an illegal word decodes to no
command, and the running command is the one CMD decodes to (R75, R93). -/

namespace Sys2Proof

/-- The well-formed commands are those whose N fits bits 15:8 (R90). -/
theorem Instr.wf_iff (i : Instr) : i.wf = true ↔ (encodeFields i).2 < 256 := by
  cases i <;> simp [Instr.wf, encodeFields]

/-- A command without an operand is decoded from N = 0 alone (R90). -/
theorem decodeBare_eq_ok_iff {i j : Instr} {op n : Nat} : decodeBare i op n = .ok j ↔ n = 0 ∧ i = j := by
  by_cases hn : n = 0 <;> simp [decodeBare, hn]

/-- The opcode map inverts the encoder's fields, and accepts no others (R92). -/
theorem decodeFields_eq_ok_iff {op n : Nat} {i : Instr} : decodeFields op n = .ok i ↔ encodeFields i = (op, n) := by
  constructor
  · intro h
    unfold decodeFields at h
    split at h
    case h_4 =>
      cases h
      rfl
    case h_7 => cases h
    all_goals
      obtain ⟨rfl, rfl⟩ := decodeBare_eq_ok_iff.mp h
      rfl
  · intro h
    cases i <;> cases h <;> rfl

theorem decode_eq_ok_iff {c : CmdWord} {i : Instr} :
    decode c = .ok i ↔ encodeFields i = (opField c, immField c) :=
  decodeFields_eq_ok_iff

theorem fields_encode {i : Instr} (h : i.wf = true) : encodeFields i = (opField (encode i), immField (encode i)) := by
  have hstatement : Laws.Encoding.Statement i := by
    cases i with
    | build => exact Laws.Encoding.build
    | senc => exact Laws.Encoding.senc
    | sdec => exact Laws.Encoding.sdec
    | renc n => exact Laws.Encoding.renc n
    | rdec => exact Laws.Encoding.rdec
    | noise => exact Laws.Encoding.noise
  obtain ⟨hop, himm⟩ := hstatement h
  rw [hop, himm]

theorem immField_lt (c : CmdWord) : immField c < 256 :=
  Nat.div_lt_of_lt_mul c.isLt

/-- A word is its OP and its N (R90). -/
theorem word_of_fields (c : CmdWord) : BitVec.ofNat 16 (opField c + 256 * immField c) = c := by
  rw [opField, immField, Nat.mod_add_div, BitVec.ofNat_toNat, BitVec.setWidth_eq]

theorem decode_encode {i : Instr} (h : i.wf = true) : decode (encode i) = .ok i :=
  decode_eq_ok_iff.mpr (fields_encode h)

theorem wf_of_decode {c : CmdWord} {i : Instr} (h : decode c = .ok i) : i.wf = true := by
  rw [Instr.wf_iff, decode_eq_ok_iff.mp h]
  exact immField_lt c

theorem encode_of_decode {c : CmdWord} {i : Instr} (h : decode c = .ok i) : encode i = c := by
  rw [encode, decode_eq_ok_iff.mp h]
  exact word_of_fields c

/-- Settles O2: both directions are the agreement of the fields, for a word is its two fields. -/
theorem decodeEncodeAgree : Obligations.DecodeEncodeAgree :=
  ⟨fun _ h => decode_encode h, fun _ _ h => ⟨wf_of_decode h, encode_of_decode h⟩⟩

/-- Settles O1: each full word is the encoding of its command. -/
theorem fullWordsDecode : Obligations.FullWordsDecode :=
  ⟨decode_encode (i := .build) rfl, decode_encode (i := .senc) rfl, decode_encode (i := .sdec) rfl,
    decode_encode (i := .renc 3) rfl, decode_encode (i := .renc 9) rfl, decode_encode (i := .rdec) rfl,
    decode_encode (i := .noise) rfl, fun n hn => decode_encode (i := .renc n) (decide_eq_true hn)⟩

/-- OP and N as the bit ranges of R90. -/
theorem opField_eq_extractLsb' (c : CmdWord) : opField c = (c.extractLsb' 0 8).toNat := by
  simp [opField]

theorem immField_eq_extractLsb' (c : CmdWord) : immField c = (c.extractLsb' 8 8).toNat := by
  have hlt := immField_lt c
  rw [immField] at hlt ⊢
  simp [Nat.shiftRight_eq_div_pow, Nat.mod_eq_of_lt hlt]

/-- The OP of a command is 1 to 6, and a command other than RENC has N = 0 (R90, R92). -/
theorem encodeFields_legal (i : Instr) :
    (encodeFields i).1 ≠ 0 ∧ (encodeFields i).1 < 7 ∧ ((encodeFields i).1 = 4 ∨ (encodeFields i).2 = 0) := by
  cases i <;> simp [encodeFields]

/-- R94: a word of one of the two illegal forms stands for no command. -/
theorem decode_illegal {c : CmdWord}
    (h : c.extractLsb' 0 8 = 0 ∨ 7 ≤ (c.extractLsb' 0 8).toNat ∨
      c.extractLsb' 0 8 ≠ 4 ∧ c.extractLsb' 8 8 ≠ 0) (i : Instr) : decode c ≠ .ok i := by
  intro hok
  obtain ⟨hzero, hlt, hbare⟩ := encodeFields_legal i
  rw [decode_eq_ok_iff.mp hok, opField_eq_extractLsb', immField_eq_extractLsb'] at hzero hlt hbare
  bv_omega

end Sys2Proof

namespace Sys2Proof.Machine

/-- While a command runs, a host that waits or has nothing to do leaves the step to the engine (log 1). -/
theorem step_eq_engineTurn {s : State} {rest : List HostAction} (hbusy : s.status.state = .busy)
    (hhost : s.host = [] ∧ rest = [] ∨ s.host = .wait :: rest) : step s = (s.popHost rest).engineTurn := by
  unfold step State.turn
  obtain ⟨hnil, rfl⟩ | hwait := hhost
  · simp only [hnil, hbusy]
    rw [State.popHost, ← hnil]
  · simp only [hwait, hbusy]

theorem State.engineTurn_of_decode {s : State} {i : Instr} (h : decode s.cmd = .ok i) : s.engineTurn = exec i s := by
  rw [State.engineTurn, h]

/-- R94: a word that stands for no command is the error entry with the word as its information. -/
theorem State.engineTurn_illegal {s : State} (h : ∀ i, decode s.cmd ≠ .ok i) :
    s.engineTurn = .next (s.errorEntry { cause := .illegalCommand, info := s.cmd.toNat }) := by
  unfold State.engineTurn
  split
  · exact absurd ‹_› (h _)
  · rfl

/-- Settles O3: the step is the engine's, and the word in CMD decodes to no command. -/
theorem illegalWordsRaiseIllegalCommand : Obligations.IllegalWordsRaiseIllegalCommand := by
  intro s rest hbusy hhost hillegal
  have hturn := State.engineTurn_illegal (s := s.popHost rest) (decode_illegal hillegal)
  exact ⟨_, (step_eq_engineTurn hbusy hhost).trans hturn, (s.popHost rest).errorEntry_ends _ _⟩

/-- The table's 16-bit word is the number itself (log 11). -/
theorem tableWord_16 {w : Nat} (h : w < 2 ^ 16) : tableWord 16 w = BitVec.ofNat 16 w := by
  rw [tableWord, Nat.mod_eq_of_lt h]

theorem step_eq_exec {s : State} {i : Instr} {rest : List HostAction} (hbusy : s.status.state = .busy)
    (hdecode : decode s.cmd = .ok i) (hhost : s.host = [] ∧ rest = [] ∨ s.host = .wait :: rest) :
    step s = exec i (s.popHost rest) :=
  (step_eq_engineTurn hbusy hhost).trans (State.engineTurn_of_decode (s := s.popHost rest) hdecode)

/-- Settles O5: the word placed stands in CMD, with STATE BUSY and the host waiting, so it is the first clause's. -/
theorem stepRunsTheDecodedCommand : Obligations.StepRunsTheDecodedCommand := by
  refine ⟨fun s i rest hbusy hdecode hhost => step_eq_exec hbusy hdecode hhost, fun s i w hw hdecode => ?_⟩
  rw [State.withFetchWord, tableWord_16 hw]
  exact step_eq_exec (s := s.awaiting (BitVec.ofNat 16 w)) rfl hdecode (.inr rfl)

end Sys2Proof.Machine
end

section
/-! The statements of R97: LDIN, LDMASK and MOVOI make bytes the operand, SETW and CLRW set the weight table. -/

namespace Sys2Proof.Machine

/-- Cells that are the bytes `B` from index 0 and those of `old` beyond them. -/
theorem bytes_of_cells {B : List Byte} {cell old : Nat → Byte}
    (h : ∀ j, cell j = if j < B.length then B.getD j 0 else old j) :
    (List.range B.length).map cell = B ∧ ∀ j, B.length ≤ j → cell j = old j := by
  constructor
  · refine List.ext_getElem (by simp) fun j _ hj => ?_
    simp [h j, hj]
  · intro j hj
    rw [h j, if_neg (by omega)]

/-- LDIN of bytes that IN can hold. -/
theorem State.loadIn_spec (s : State) {B : List Byte} (hlen : B.length < 2 ^ 64)
    (hcap : overCap s.params.inCap B.length = false) :
    (s.loadIn B).inBytes = B ∧ (s.loadIn B).inLen.toNat = B.length ∧
      (∀ j, B.length ≤ j → (s.loadIn B).inByte j = s.inByte j) ∧
      s.loadIn B = { s with inLen := (s.loadIn B).inLen, inBuf := (s.loadIn B).inBuf } := by
  obtain ⟨hframe, hcells⟩ := State.writeBytes_input B 0 s fun j _ hj => inSpace_of_lt hcap (by omega)
  obtain ⟨hbytes, hbeyond⟩ := bytes_of_cells (B := B) (cell := (s.loadIn B).inByte) (old := s.inByte)
    fun j => (hcells j).trans (by simp)
  have hlenReg : (s.loadIn B).inLen.toNat = B.length := (BitVec.toNat_ofNat _ _).trans (Nat.mod_eq_of_lt hlen)
  refine ⟨?operand, hlenReg, hbeyond, ?frame⟩
  case operand => rwa [State.inBytes, hlenReg]
  case frame => exact congrArg (fun t : State => { t with inLen := BitVec.ofNat 64 B.length }) hframe

/-- LDMASK of bytes that MASK can hold. -/
theorem State.loadMask_spec (s : State) {B : List Byte} (hlen : B.length < 2 ^ 64)
    (hcap : overCap s.params.maskCap B.length = false) :
    (s.loadMask B).maskBytes = B ∧ (s.loadMask B).maskLen.toNat = B.length ∧
      (∀ j, B.length ≤ j → (s.loadMask B).maskByte j = s.maskByte j) ∧
      s.loadMask B = { s with maskLen := (s.loadMask B).maskLen, maskBuf := (s.loadMask B).maskBuf } := by
  obtain ⟨hframe, hcells⟩ := State.writeBytes_mask B 0 s fun j _ hj => inSpace_of_lt hcap (by omega)
  obtain ⟨hbytes, hbeyond⟩ := bytes_of_cells (B := B) (cell := (s.loadMask B).maskByte) (old := s.maskByte)
    fun j => (hcells j).trans (by simp)
  have hlenReg : (s.loadMask B).maskLen.toNat = B.length := (BitVec.toNat_ofNat _ _).trans (Nat.mod_eq_of_lt hlen)
  refine ⟨?operand, hlenReg, hbeyond, ?frame⟩
  case operand => rwa [State.maskBytes, hlenReg]
  case frame => exact congrArg (fun t : State => { t with maskLen := BitVec.ofNat 64 B.length }) hframe

/-- Settles O13: the step is the load. -/
theorem loadStatementsSetTheOperand : Obligations.LoadStatementsSetTheOperand := by
  intro s B rest hfree hlen
  exact ⟨fun hhost hcap => ⟨_, step_eq_hostFree hfree hhost nofun, (s.popHost rest).loadIn_spec hlen hcap⟩,
    fun hhost hcap => ⟨_, step_eq_hostFree hfree hhost nofun, (s.popHost rest).loadMask_spec hlen hcap⟩⟩

/-- The host reads the whole last result from an OUT that holds it (R32, R97). -/
theorem State.outAsBytes_eq_outBytes (s : State) (hcap : overCap s.params.outCap s.outLen.toNat = false) :
    s.outAsBytes = s.outBytes := by
  refine List.map_congr_left fun j hj => ?_
  have hin : inSpace s.params.outCap j = true := inSpace_of_lt hcap (List.mem_range.mp hj)
  simp [State.hostRead, hin]

/-- Settles O14: MOVOI is LDIN of the last result, whose length is OUT_LEN. -/
theorem movoiMakesTheResultTheInput : Obligations.MovoiMakesTheResultTheInput := by
  intro s rest hfree hhost hin hout
  have hresult : (s.popHost rest).outAsBytes = s.outBytes := State.outAsBytes_eq_outBytes _ hout
  have hstep : step s = .next ((s.popHost rest).loadIn s.outBytes) := by
    rw [← hresult]
    exact step_eq_hostFree hfree hhost nofun
  obtain ⟨hbytes, hinLen, hbeyond, hframe⟩ := (s.popHost rest).loadIn_spec (B := s.outBytes)
    (by simpa using s.outLen.isLt) (by simpa using hin)
  rw [State.length_outBytes] at hinLen hbeyond
  exact ⟨_, hstep, hbytes, BitVec.eq_of_toNat_eq hinLen, hbeyond, hframe⟩

theorem State.setWt_writeWt (s : State) (i v : Nat) (W : Vector Weight 256) :
    { s.writeWt i v with wt := W } = { s with wt := W } := by
  unfold State.writeWt
  split <;> rfl

/-- A run of weight writes of 0 touches only the table. -/
theorem State.foldl_clear_frame (l : List Nat) (s : State) :
    l.foldl (fun t i => t.writeWt i 0) s = { s with wt := (l.foldl (fun t i => t.writeWt i 0) s).wt } := by
  induction l generalizing s with
  | nil => rfl
  | cons i l ih => exact (ih _).trans (s.setWt_writeWt i 0 _)

/-- A run of weight writes of 0 clears the weights it names and keeps the zeros there are. -/
theorem State.readWt_foldl_clear {l : List Nat} {s : State} {j : Nat} (hj : j < 256) (h : j ∈ l ∨ s.readWt j = 0) :
    (l.foldl (fun t i => t.writeWt i 0) s).readWt j = 0 := by
  induction l generalizing s with
  | nil => exact h.resolve_left List.not_mem_nil
  | cons i l ih =>
    refine ih ?_
    by_cases hij : j = i
    · subst hij
      exact .inr (s.readWt_writeWt_same 0 hj)
    · rw [s.readWt_writeWt_other 0 hij]
      exact h.imp_left fun hmem => (List.mem_cons.mp hmem).resolve_left hij

theorem State.clearWeights_frame (s : State) : s.clearWeights = { s with wt := s.clearWeights.wt } :=
  State.foldl_clear_frame (List.range 256) s

theorem State.weight_clearWeights (s : State) (sym : Symbol) : s.clearWeights.weight sym = 0 := by
  rw [← State.readWt_symbol]
  exact State.readWt_foldl_clear sym.isLt (.inl (List.mem_range.mpr sym.isLt))

theorem State.weight_writeWt_same (s : State) (sym : Symbol) (w : Nat) :
    (s.writeWt sym.toNat w).weight sym = w % 2 ^ 32 := by
  rw [← State.readWt_symbol]
  exact s.readWt_writeWt_same w sym.isLt

theorem State.weight_writeWt_other (s : State) {sym u : Symbol} (w : Nat) (h : u ≠ sym) :
    (s.writeWt sym.toNat w).weight u = s.weight u := by
  rw [← State.readWt_symbol, ← State.readWt_symbol]
  exact s.readWt_writeWt_other w fun hnum => h (BitVec.eq_of_toNat_eq hnum)

/-- Settles O15: SETW is one weight write, CLRW a write of 0 for every symbol. -/
theorem weightStatementsSetTheTable : Obligations.WeightStatementsSetTheTable := by
  intro s rest hfree
  constructor
  · intro sym w hhost
    exact ⟨_, step_eq_hostFree hfree hhost nofun, State.weight_writeWt_same _ sym w,
      fun u hu => State.weight_writeWt_other (s.popHost rest) w hu, State.writeWt_frame _ _ w⟩
  · intro hhost
    exact ⟨_, step_eq_hostFree hfree hhost nofun, State.weight_clearWeights _, State.clearWeights_frame _⟩

end Sys2Proof.Machine
end

section
/-! The input capacity tests (R93, R238, R239). -/

namespace Sys2Proof.Machine

theorem exec_of_raise {i : Instr} {s : State} {c : Cause} {info : Nat} (h : outcomeOf i s = raise c info) :
    ∃ t, exec i s = .next t ∧ EndsWithError c info s t := by
  rw [exec_eq_finish, h]
  exact s.finish_raise c info

/-- Every command but BUILD has the test of IN_LEN outermost (R93; for RENC the model's reading, log 9). -/
theorem outcomeOf_of_input_over {i : Instr} {s : State} (hi : i ≠ .build)
    (h : overCap s.params.inCap s.inLen.toNat = true) : outcomeOf i s = raise .inputCapacity s.inLen.toNat := by
  cases i with
  | build => contradiction
  | senc | sdec | renc | rdec | noise => exact inputTest_over s _ h

/-- Settles O20: IN_LEN is tested outermost, and NOISE tests MASK_LEN next. -/
theorem inputCapacityIsTestedFirst : Obligations.InputCapacityIsTestedFirst := by
  refine fun s => ⟨fun i hi hover => exec_of_raise (outcomeOf_of_input_over hi hover), fun hfits hover => ?_⟩
  exact exec_of_raise ((inputTest_fits s _ hfits).trans (maskTest_over s _ hover))

end Sys2Proof.Machine
end

section
/-! The Codebook as a list (R131, R132, R137, R138): its entries, what `find` answers, and what BUILD and SENC make of
the table. -/

namespace Sys2Proof.Machine

/-- What a Codebook is: the lone symbol's entry, or one entry per participant with its path in the tree (R133, R137). -/
theorem codebook_ok_cases {w : Symbol → Nat} {cb : Codebook} (h : codebook w = .ok cb) :
    (∃ s, participants w = [s] ∧ cb = [(s, { len := 1, val := 0 })]) ∨
    (2 ≤ (participants w).length ∧ ∃ t, codeTree w (participants w) = some t ∧ t.leaves.Perm (participants w) ∧
      cb = (participants w).map fun s => (s, t.codeword s)) := by
  obtain ⟨-, hc⟩ | ⟨s, hA, hc⟩ | ⟨h2, t, ht, hp, hc⟩ := codebook_cases w
  · rw [hc] at h
    nomatch h
  · rw [hc] at h
    exact .inl ⟨s, hA, (Except.ok.inj h).symm⟩
  · rw [hc] at h
    exact .inr ⟨h2, t, ht, hp, (Except.ok.inj h).symm⟩

theorem length_codebook {w : Symbol → Nat} {cb : Codebook} (h : codebook w = .ok cb) :
    cb.length = (participants w).length := by
  rw [← codebook_symbols h, List.length_map]

theorem Codebook.find_isSome_iff (cb : Codebook) (s : Symbol) : (cb.find s).isSome = true ↔ s ∈ cb.map Prod.fst := by
  simp [Codebook.find, List.lookup_isSome_iff]

/-- An entry that is a function of its symbol is found by its symbol. -/
theorem Codebook.find_graph (f : Symbol → Codeword) {A : List Symbol} {s : Symbol} (h : s ∈ A) :
    Codebook.find (A.map fun s => (s, f s)) s = some (f s) :=
  List.lookup_graph f h

theorem map_toNat_allSymbols : allSymbols.map BitVec.toNat = List.range 256 := by
  rw [allSymbols, List.map_map]
  conv_rhs => rw [← List.map_id (List.range 256)]
  exact List.map_congr_left fun i hi => Nat.mod_eq_of_lt (List.mem_range.mp hi)

/-- The participants are in ascending order (R131). -/
theorem participants_ascending (w : Symbol → Nat) : ((participants w).map BitVec.toNat).Pairwise (· < ·) := by
  refine List.Pairwise.sublist (List.filter_sublist.map BitVec.toNat) ?_
  rw [map_toNat_allSymbols]
  exact List.pairwise_lt_range

theorem codebook_ascending {w : Symbol → Nat} {cb : Codebook} (h : codebook w = .ok cb) :
    (cb.map fun e => e.1.toNat).Pairwise (· < ·) := by
  have := participants_ascending w
  rwa [← codebook_symbols h, List.map_map] at this

theorem codebook_of_zero {w : Symbol → Nat} (h : ∀ s, w s = 0) : codebook w = raise .emptyWeightTable 0 := by
  have hA : participants w = [] := List.eq_nil_iff_forall_not_mem.mpr fun s => by simp [h s]
  simp [codebook, hA]

/-- Settles O28: the outcome of BUILD is the serialized Codebook, whose bytes OUT holds or does not. -/
theorem buildReturnsTheSerializedCodebook : Obligations.BuildReturnsTheSerializedCodebook := by
  rintro s ⟨sym, hpos⟩
  obtain ⟨cb, hcb⟩ := codebook_isOk sym hpos
  have hout : outcomeOf .build s = .ok { bytes := serialize cb, srcLen := 0, payloadLen := 0 } := by
    simp [outcomeOf, buildOutcome, hcb]
  exact ⟨cb, serialize cb, hcb, fun sym => by rw [codebook_symbols hcb, mem_participants], codebook_ascending hcb, rfl,
    length_serialize cb, fun hfits => ⟨_, exec_of_result hout hfits⟩, fun hover => exec_of_result_over hout hover⟩

/-- Settles O29: the builder's error is the outcome of both commands. -/
theorem emptyTableIsRefused : Obligations.EmptyTableIsRefused := by
  intro s hzero
  have hcb := codebook_of_zero hzero
  refine ⟨exec_of_raise (by simp [outcomeOf, buildOutcome, hcb, raise]), fun hpos hlt hfits => exec_of_raise ?_⟩
  have hsenc : sencOutcome s.params.padBit s.weight s.inBytes s.inLen.toNat = raise .emptyWeightTable 0 := by
    rw [sencOutcome, if_neg (by omega), if_neg (by simp only [Config.maxSourceLen]; omega), hcb]
    rfl
  exact (inputTest_fits s _ hfits).trans hsenc

/-- Settles O30: the symbols of a Codebook are the participants. -/
theorem codebookCoversThePositiveSymbols : Obligations.CodebookCoversThePositiveSymbols := by
  refine fun w => ⟨⟨?_, fun ⟨s, hs⟩ => codebook_isOk s hs⟩, fun cb hcb => ⟨fun s => ?_, codebook_ascending hcb, ?_, ?_⟩⟩
  · rintro ⟨cb, hcb⟩
    by_contra! hzero
    rw [codebook_of_zero fun s => Nat.le_zero.mp (hzero s)] at hcb
    nomatch hcb
  · rw [cb.find_isSome_iff, codebook_symbols hcb, mem_participants]
  · rw [length_codebook hcb]
    obtain ⟨s, hA, -⟩ | ⟨h2, -⟩ := codebook_ok_cases hcb
    · simp [hA]
    · omega
  · rw [length_codebook hcb]
    exact length_participants_le w

/-- Settles O31: the symbol is the only participant. -/
theorem loneSymbolGetsTheOneBitCodeword : Obligations.LoneSymbolGetsTheOneBitCodeword := by
  intro w sym hpos hzero
  have hA : participants w = [sym] := by
    refine List.perm_singleton.mp ((List.perm_ext_iff_of_nodup (nodup_participants w) (List.nodup_singleton sym)).mpr ?_)
    intro u
    rw [mem_participants, List.mem_singleton]
    exact ⟨fun hu => by_contra fun hne => by simp [hzero u hne] at hu, fun hu => hu ▸ hpos⟩
  simp [codebook, hA]

/-- A node with its weight multiplied by `c`. -/
def Node.scale (c : Nat) (n : Node) : Node := { n with weight := c * n.weight }

theorem Node.scale_lt {c : Nat} (hc : 0 < c) (a b : Node) : (a.scale c).lt (b.scale c) = a.lt b := by
  rw [Bool.eq_iff_iff, Node.lt_iff, Node.lt_iff]
  simp [Node.scale, Nat.mul_lt_mul_left hc, Nat.mul_left_cancel_iff hc]

theorem Node.scale_join (c : Nat) (a b : Node) : (a.join b).scale c = (a.scale c).join (b.scale c) := by
  simp [Node.scale, Node.join, Nat.mul_add]

theorem codeTree_scale (w : Symbol → Nat) {c : Nat} (hc : 0 < c) (A : List Symbol) :
    codeTree (fun s => c * w s) A = codeTree w A := by
  have hleaves : A.map (Node.ofLeaf fun s => c * w s) = (A.map (Node.ofLeaf w)).map (Node.scale c) := by
    rw [List.map_map]
    rfl
  rw [codeTree, hleaves, mergeTimes_map (Node.scale_lt hc) (Node.scale_join c), List.head?_map, Option.map_map]
  rfl

/-- Settles O36: scaling keeps the participants and the order of all keys. -/
theorem codebookIsScaleInvariant : Obligations.CodebookIsScaleInvariant := by
  intro w c hc
  have hA : participants (fun s => c * w s) = participants w := by simp [participants, Nat.mul_pos_iff_of_pos_left hc]
  simp only [codebook, hA, codeTree_scale w hc]

end Sys2Proof.Machine
end

section
/-! The codewords of a tree (R136, R139, R141, R143): paths from the root to the leaves, none of which begins another,
and whose Kraft sum is 1. -/

namespace Sys2Proof.Machine

/-- The path from the root to the leaf of a symbol, as the Codeword reads it (R136). -/
def Tree.path (t : Tree) (s : Symbol) : List Bool := (t.path? s).getD []

theorem Tree.codeword_eq (t : Tree) (s : Symbol) : t.codeword s = Codeword.ofPath (t.path s) := rfl

@[simp] theorem Tree.codeword_len (t : Tree) (s : Symbol) : (t.codeword s).len = (t.path s).length := rfl

@[simp] theorem Tree.codeword_val (t : Tree) (s : Symbol) : (t.codeword s).val = bitsVal (t.path s) := rfl

@[simp] theorem Tree.path_leaf (u s : Symbol) : (Tree.leaf u).path s = [] := by
  simp only [Tree.path, Tree.path?]
  split <;> rfl

theorem Tree.path?_of_not_mem {t : Tree} {s : Symbol} (h : s ∉ t.leaves) : t.path? s = none := by
  induction t with
  | leaf u =>
    rw [Tree.leaves, List.mem_singleton] at h
    exact if_neg (Ne.symm h)
  | node c0 c1 ih0 ih1 =>
    rw [Tree.leaves, List.mem_append, not_or] at h
    simp [Tree.path?, ih0 h.1, ih1 h.2]

theorem Tree.path?_eq_path {t : Tree} {s : Symbol} (h : s ∈ t.leaves) : t.path? s = some (t.path s) := by
  obtain ⟨p, hp, -⟩ := t.path?_isSome s h
  simp [Tree.path, hp]

/-- A leaf is not as deep as the leaves are many (R143). -/
theorem Tree.length_path_lt {t : Tree} {s : Symbol} (h : s ∈ t.leaves) : (t.path s).length < t.leaves.length := by
  obtain ⟨p, hp, hlt⟩ := t.path?_isSome s h
  simpa [Tree.path, hp] using hlt

theorem Tree.path_node_left {c0 : Tree} (c1 : Tree) {s : Symbol} (h : s ∈ c0.leaves) :
    (Tree.node c0 c1).path s = false :: c0.path s := by
  rw [Tree.path, Tree.path?, Tree.path?_eq_path h]
  rfl

theorem Tree.path_node_right {c0 c1 : Tree} {s : Symbol} (h0 : s ∉ c0.leaves) (h1 : s ∈ c1.leaves) :
    (Tree.node c0 c1).path s = true :: c1.path s := by
  rw [Tree.path, Tree.path?, Tree.path?_of_not_mem h0, Tree.path?_eq_path h1]
  rfl

/-- No path to a leaf begins the path to another (R139). -/
theorem Tree.prefixFreeOn_path {t : Tree} (h : t.leaves.Nodup) : PrefixFreeOn t.leaves t.path := by
  induction t with
  | leaf u =>
    intro a ha b hb hne
    rw [Tree.leaves, List.mem_singleton] at ha hb
    exact absurd (ha.trans hb.symm) hne
  | node c0 c1 ih0 ih1 =>
    obtain ⟨hd0, hd1, hdisj⟩ := List.nodup_append'.mp h
    have right := fun {s} (hs : s ∈ c1.leaves) => Tree.path_node_right (fun h0 => hdisj h0 hs) hs
    intro a ha b hb hne
    rcases List.mem_append.mp ha with ha | ha <;> rcases List.mem_append.mp hb with hb | hb
    · rw [Tree.path_node_left c1 ha, Tree.path_node_left c1 hb, List.cons_prefix_cons]
      exact fun hp => ih0 hd0 a ha b hb hne hp.2
    · rw [Tree.path_node_left c1 ha, right hb, List.cons_prefix_cons]
      exact fun hp => Bool.false_ne_true hp.1
    · rw [right ha, Tree.path_node_left c1 hb, List.cons_prefix_cons]
      exact fun hp => Bool.false_ne_true hp.1.symm
    · rw [right ha, right hb, List.cons_prefix_cons]
      exact fun hp => ih1 hd1 a ha b hb hne hp.2

/-- The Kraft sum of an assignment of lengths to symbols (R141). -/
def kraftOf (A : List Symbol) (len : Symbol → Nat) : ℚ := (A.map fun s => 1 / (2 : ℚ) ^ len s).sum

/-- For the codewords of a tree it is that of the paths. -/
theorem Tree.kraftSum_eq (t : Tree) (A : List Symbol) :
    Codebook.kraftSum (A.map fun s => (s, t.codeword s)) = kraftOf A fun s => (t.path s).length := by
  rw [Codebook.kraftSum, kraftOf, List.map_map]
  rfl

theorem kraftOf_perm {A B : List Symbol} (h : A.Perm B) (len : Symbol → Nat) : kraftOf A len = kraftOf B len :=
  (h.map _).sum_eq

theorem kraftOf_cons (s : Symbol) (A : List Symbol) (len : Symbol → Nat) :
    kraftOf (s :: A) len = 1 / 2 ^ len s + kraftOf A len := by
  rw [kraftOf, List.map_cons, List.sum_cons, kraftOf]

theorem kraftOf_append (A B : List Symbol) (len : Symbol → Nat) :
    kraftOf (A ++ B) len = kraftOf A len + kraftOf B len := by
  rw [kraftOf, List.map_append, List.sum_append, kraftOf, kraftOf]

theorem kraftOf_congr {A : List Symbol} {len len' : Symbol → Nat} (h : ∀ s ∈ A, len s = len' s) :
    kraftOf A len = kraftOf A len' :=
  congrArg List.sum (List.map_congr_left fun s hs => by rw [h s hs])

/-- One bit more in every codeword halves the sum. -/
theorem kraftOf_succ (A : List Symbol) (len : Symbol → Nat) : (kraftOf A fun s => len s + 1) = kraftOf A len / 2 := by
  induction A with
  | nil => simp [kraftOf]
  | cons s A ih =>
    rw [kraftOf_cons, kraftOf_cons, ih, pow_succ]
    ring

/-- A full tree meets Kraft's equality (R141). -/
theorem Tree.kraftOf_path {t : Tree} (h : t.leaves.Nodup) : (kraftOf t.leaves fun s => (t.path s).length) = 1 := by
  induction t with
  | leaf u => simp [kraftOf, Tree.leaves]
  | node c0 c1 ih0 ih1 =>
    obtain ⟨hd0, hd1, hdisj⟩ := List.nodup_append'.mp h
    have hleft := kraftOf_congr (len' := fun s => (c0.path s).length + 1) fun s (hs : s ∈ c0.leaves) =>
      congrArg List.length (Tree.path_node_left c1 hs)
    have hright := kraftOf_congr (len' := fun s => (c1.path s).length + 1) fun s (hs : s ∈ c1.leaves) =>
      congrArg List.length (Tree.path_node_right (fun h0 => hdisj h0 hs) hs)
    rw [Tree.leaves, kraftOf_append, hleft, hright, kraftOf_succ, kraftOf_succ, ih0 hd0, ih1 hd1]
    norm_num

theorem bitsVal_inj {p q : List Bool} (hlen : p.length = q.length) (hval : bitsVal p = bitsVal q) : p = q := by
  rw [← cwBits_bitsVal p, hlen, hval, cwBits_bitsVal]

/-- A bit string whose value stands at the front of another's begins it (R139). -/
theorem isPrefix_of_bitsVal {p q : List Bool} (hlen : p.length ≤ q.length)
    (hval : bitsVal q / 2 ^ (q.length - p.length) = bitsVal p) : p <+: q := by
  have hdrop : bitsVal (q.drop p.length) < 2 ^ (q.length - p.length) := by
    simpa using bitsVal_lt (q.drop p.length)
  have hsplit := bitsVal_append (q.take p.length) (q.drop p.length)
  rw [List.take_append_drop, List.length_drop] at hsplit
  rw [hsplit, Nat.mul_comm, Nat.mul_add_div (by positivity), Nat.div_eq_of_lt hdrop, Nat.add_zero] at hval
  exact List.prefix_iff_eq_take.mpr (bitsVal_inj (by simpa using hlen) hval.symm)

/-- Settles O32: the lone codeword has no other to begin, and paths to leaves do not begin each other. -/
theorem codebookIsPrefixFree : Obligations.CodebookIsPrefixFree := by
  intro w cb hcb
  refine ⟨codebook_symbols hcb ▸ nodup_participants w, ?_⟩
  obtain ⟨s, -, rfl⟩ | ⟨-, t, -, hp, rfl⟩ := codebook_ok_cases hcb
  · intro d hd e he hne
    rw [List.mem_singleton] at hd he
    exact absurd (hd.trans he.symm ▸ rfl) hne
  · intro d hd e he hne hlen hval
    obtain ⟨a, ha, rfl⟩ := List.mem_map.mp hd
    obtain ⟨b, hb, rfl⟩ := List.mem_map.mp he
    exact Tree.prefixFreeOn_path (hp.nodup_iff.mpr (nodup_participants w)) a (hp.mem_iff.mpr ha) b (hp.mem_iff.mpr hb)
      hne (isPrefix_of_bitsVal hlen hval)

/-- Settles O33: the tree is full, and the lone codeword is the bit 0. -/
theorem codebookMeetsKraft : Obligations.CodebookMeetsKraft := by
  intro w cb hcb
  obtain ⟨s, -, rfl⟩ | ⟨h2, t, -, hp, rfl⟩ := codebook_ok_cases hcb
  · exact ⟨fun h => absurd h (by simp), fun _ => ⟨by simp [Codebook.kraftSum], by simp⟩⟩
  · refine ⟨fun _ => ?_, fun h1 => ?_⟩
    · rw [t.kraftSum_eq, ← kraftOf_perm hp]
      exact Tree.kraftOf_path (hp.nodup_iff.mpr (nodup_participants w))
    · rw [List.length_map] at h1
      omega

/-- Settles O34: a leaf of a tree of `k` leaves is at most `k - 1` deep. -/
theorem codewordLengthsAreBounded : Obligations.CodewordLengthsAreBounded := by
  intro w cb hcb e he
  obtain ⟨hpos, h255, hval⟩ := codebook_codeword hcb e he
  refine ⟨hpos, h255, hval, fun h2 => ?_⟩
  obtain ⟨s, -, rfl⟩ | ⟨-, t, -, hp, rfl⟩ := codebook_ok_cases hcb
  · exact absurd h2 (by simp)
  · obtain ⟨s, hs, rfl⟩ := List.mem_map.mp he
    have hlt := Tree.length_path_lt (hp.mem_iff.mpr hs)
    rw [hp.length_eq] at hlt
    rw [List.length_map, Tree.codeword_len]
    omega

end Sys2Proof.Machine
end

section
/-! The recursion of the builder (R133 to R135): the tree of a table is the tree of the table after the first merge, with
the leaf of the merged node split into the two symbols of least key. -/

namespace Sys2Proof.Machine

/-- The key of a symbol (R134) as one number: a symbol value is below 256. -/
def symbolKey (w : Symbol → Nat) (s : Symbol) : Nat := 256 * w s + s.toNat

theorem keyLt_iff (w : Symbol → Nat) (x y : Symbol) : keyLt w x y ↔ symbolKey w x < symbolKey w y := by
  have hx := x.isLt
  have hy := y.isLt
  simp only [keyLt, symbolKey]
  omega

theorem symbolKey_inj {w : Symbol → Nat} {x y : Symbol} (h : symbolKey w x = symbolKey w y) : x = y := by
  have hx := x.isLt
  have hy := y.isLt
  simp only [symbolKey] at h
  exact BitVec.eq_of_toNat_eq (by omega)

theorem keyLt.ne {w : Symbol → Nat} {x y : Symbol} (h : keyLt w x y) : x ≠ y := by
  rintro rfl
  rw [keyLt_iff] at h
  omega

theorem keyLt.trans {w : Symbol → Nat} {x y z : Symbol} (hxy : keyLt w x y) (hyz : keyLt w y z) : keyLt w x z := by
  rw [keyLt_iff] at *
  omega

theorem keyLt.weight_le {w : Symbol → Nat} {x y : Symbol} (h : keyLt w x y) : w x ≤ w y := by
  rcases h with h | h <;> omega

/-- The order of keys of leaves is that of their symbols. -/
theorem Node.ofLeaf_lt (w : Symbol → Nat) (x y : Symbol) :
    (Node.ofLeaf w x).lt (Node.ofLeaf w y) = true ↔ keyLt w x y := by
  rw [Node.lt_iff]
  rfl

theorem Node.ofLeaf_not_lt {w : Symbol → Nat} {x y : Symbol} (h : y = x ∨ keyLt w x y) :
    (Node.ofLeaf w y).lt (Node.ofLeaf w x) = false := by
  rw [Bool.eq_false_iff, ne_eq, Node.ofLeaf_lt, keyLt_iff]
  rcases h with rfl | h
  · omega
  · rw [keyLt_iff] at h
    omega

/-- `x` and `y` are the participants of least key, `x` the first: what the first merge joins (R133, R134). -/
structure LeastTwo (w : Symbol → Nat) (x y : Symbol) : Prop where
  pos_left : 0 < w x
  pos_right : 0 < w y
  lt : keyLt w x y
  least : ∀ z, 0 < w z → z ≠ x → z ≠ y → keyLt w y z

theorem exists_least (w : Symbol → Nat) {A : List Symbol} (h : A ≠ []) :
    ∃ x ∈ A, ∀ z ∈ A, z ≠ x → keyLt w x z := by
  obtain ⟨x, hx, hmin⟩ := A.toFinset.exists_min_image (symbolKey w) (List.toFinset_nonempty_iff A |>.mpr h)
  refine ⟨x, List.mem_toFinset.mp hx, fun z hz hne => (keyLt_iff w x z).mpr ?_⟩
  exact lt_of_le_of_ne (hmin z (List.mem_toFinset.mpr hz)) fun he => hne (symbolKey_inj he.symm)

theorem exists_leastTwo {w : Symbol → Nat} (h : 2 ≤ (participants w).length) : ∃ x y, LeastTwo w x y := by
  obtain ⟨x, hx, hxmin⟩ := exists_least w (A := participants w) (by rintro he; simp [he] at h)
  have hlen := List.length_erase_of_mem hx
  obtain ⟨y, hy, hymin⟩ := exists_least w (A := (participants w).erase x) (by rintro he; simp [he] at hlen; omega)
  have hmem : ∀ {z}, z ∈ (participants w).erase x ↔ z ≠ x ∧ 0 < w z := by
    simp [(nodup_participants w).mem_erase_iff]
  obtain ⟨hyx, hypos⟩ := hmem.mp hy
  exact ⟨x, y, (mem_participants w x).mp hx, hypos, hxmin y ((mem_participants w y).mpr hypos) hyx,
    fun z hz hzx hzy => hymin z (hmem.mpr ⟨hzx, hz⟩) hzy⟩

/-- The symbol that stands for the merged node of `x` and `y`: its `minsym` (R133). -/
def mergedSymbol (x y : Symbol) : Symbol := if x.toNat ≤ y.toNat then x else y

theorem toNat_mergedSymbol (x y : Symbol) : (mergedSymbol x y).toNat = min x.toNat y.toNat := by
  unfold mergedSymbol
  split <;> omega

theorem mergedSymbol_eq_or (x y : Symbol) : mergedSymbol x y = x ∨ mergedSymbol x y = y := by
  unfold mergedSymbol
  split
  · exact .inl rfl
  · exact .inr rfl

theorem ne_mergedSymbol {x y z : Symbol} (hx : z ≠ x) (hy : z ≠ y) : z ≠ mergedSymbol x y := fun he =>
  (mergedSymbol_eq_or x y).elim (hx <| he.trans ·) (hy <| he.trans ·)

theorem mergedWeights_merged (w : Symbol → Nat) (x y : Symbol) :
    mergedWeights w x y (mergedSymbol x y) = w x + w y := by
  rw [mergedWeights, if_pos (mergedSymbol_eq_or x y), if_pos (toNat_mergedSymbol x y)]

theorem mergedWeights_other (w : Symbol → Nat) {x y z : Symbol} (hx : z ≠ x) (hy : z ≠ y) :
    mergedWeights w x y z = w z :=
  if_neg (not_or.mpr ⟨hx, hy⟩)

theorem mergedWeights_removed (w : Symbol → Nat) {x y z : Symbol} (hz : z = x ∨ z = y) (hu : z ≠ mergedSymbol x y) :
    mergedWeights w x y z = 0 := by
  rw [mergedWeights, if_pos hz, if_neg]
  rw [← toNat_mergedSymbol]
  exact fun h => hu (BitVec.eq_of_toNat_eq h)

/-- The participants but `x` and `y`. -/
def otherParticipants (w : Symbol → Nat) (x y : Symbol) : List Symbol :=
  (participants w).filter fun z => decide (z ≠ x ∧ z ≠ y)

theorem mem_otherParticipants {w : Symbol → Nat} {x y z : Symbol} :
    z ∈ otherParticipants w x y ↔ 0 < w z ∧ z ≠ x ∧ z ≠ y := by
  simp [otherParticipants]

theorem nodup_otherParticipants (w : Symbol → Nat) (x y : Symbol) : (otherParticipants w x y).Nodup :=
  (nodup_participants w).filter _

section

variable {w : Symbol → Nat} {x y : Symbol} (h : LeastTwo w x y)
include h

theorem LeastTwo.participants_perm : (participants w).Perm (x :: y :: otherParticipants w x y) := by
  refine (List.perm_ext_iff_of_nodup (nodup_participants w) ?_).mpr fun z => ?_
  · simp [nodup_otherParticipants, mem_otherParticipants, h.lt.ne]
  · simp only [mem_participants, List.mem_cons, mem_otherParticipants]
    refine ⟨fun hz => by tauto, ?_⟩
    rintro (rfl | rfl | hz)
    exacts [h.pos_left, h.pos_right, hz.1]

/-- After the merge the merged symbol stands for both (R133). -/
theorem LeastTwo.participants_merged_perm :
    (participants (mergedWeights w x y)).Perm (mergedSymbol x y :: otherParticipants w x y) := by
  refine (List.perm_ext_iff_of_nodup (nodup_participants _) ?_).mpr fun z => ?_
  · refine List.nodup_cons.mpr ⟨fun hm => ?_, nodup_otherParticipants w x y⟩
    obtain ⟨-, hx, hy⟩ := mem_otherParticipants.mp hm
    exact ne_mergedSymbol hx hy rfl
  · rw [mem_participants, List.mem_cons, mem_otherParticipants]
    by_cases hzu : z = mergedSymbol x y
    · rw [hzu, mergedWeights_merged]
      exact ⟨fun _ => .inl rfl, fun _ => Nat.add_pos_left h.pos_left _⟩
    · by_cases hz : z = x ∨ z = y
      · rw [mergedWeights_removed w hz hzu]
        tauto
      · rw [not_or] at hz
        rw [mergedWeights_other w hz.1 hz.2]
        tauto

theorem LeastTwo.length_participants : (participants w).length = (participants (mergedWeights w x y)).length + 1 := by
  rw [h.participants_perm.length_eq, h.participants_merged_perm.length_eq]
  rfl

end

/-- The tree with `c` in the place of the leaf of `u`. -/
def Tree.graft : Tree → Symbol → Tree → Tree
  | .leaf s, u, c => if s = u then c else .leaf s
  | .node c0 c1, u, c => .node (c0.graft u c) (c1.graft u c)

/-- The path to a leaf of the grafted tree goes through the place of `u`. -/
theorem Tree.path?_graft_of_mem {u s : Symbol} {c t : Tree} (hs : s ∈ c.leaves) (ht : s ∈ t.leaves → s = u) :
    (t.graft u c).path? s = (t.path? u).map (· ++ c.path s) := by
  induction t with
  | leaf v =>
    by_cases hv : v = u
    · simp [Tree.graft, Tree.path?, hv, Tree.path?_eq_path hs]
    · have hne : v ≠ s := fun he => hv (he.trans (ht (by simp [Tree.leaves, he])))
      simp [Tree.graft, Tree.path?, hv, hne]
  | node c0 c1 ih0 ih1 =>
    rw [Tree.graft, Tree.path?, Tree.path?, ih0 fun hm => ht (List.mem_append_left _ hm),
      ih1 fun hm => ht (List.mem_append_right _ hm)]
    cases c0.path? u <;> cases c1.path? u <;> rfl

/-- Other paths stay as they are. -/
theorem Tree.path?_graft_of_not_mem {u s : Symbol} {c : Tree} (t : Tree) (hs : s ∉ c.leaves) (hu : s ≠ u) :
    (t.graft u c).path? s = t.path? s := by
  induction t with
  | leaf v =>
    by_cases hv : v = u
    · simp [Tree.graft, Tree.path?, hv, Tree.path?_of_not_mem hs, hu.symm]
    · simp [Tree.graft, hv]
  | node c0 c1 ih0 ih1 => rw [Tree.graft, Tree.path?, ih0, ih1, Tree.path?]

/-- The tree before the merge of `x` and `y`, from the tree after it (R133, R135). -/
def Tree.split (x y : Symbol) (t : Tree) : Tree := t.graft (mergedSymbol x y) (.node (.leaf x) (.leaf y))

/-- The same for a live node: its key stays. -/
def Node.split (x y : Symbol) (n : Node) : Node := { n with tree := n.tree.split x y }

theorem Node.split_ofLeaf_merged (w : Symbol → Nat) (x y : Symbol) :
    (Node.ofLeaf (mergedWeights w x y) (mergedSymbol x y)).split x y = (Node.ofLeaf w x).join (Node.ofLeaf w y) := by
  simp [Node.split, Node.ofLeaf, Node.join, Tree.split, Tree.graft, mergedWeights_merged, toNat_mergedSymbol]

theorem Node.split_ofLeaf_other (w : Symbol → Nat) {x y z : Symbol} (hx : z ≠ x) (hy : z ≠ y) :
    (Node.ofLeaf (mergedWeights w x y) z).split x y = Node.ofLeaf w z := by
  simp [Node.split, Node.ofLeaf, Tree.split, Tree.graft, ne_mergedSymbol hx hy, mergedWeights_other w hx hy]

/-- The pool after the first merge is the pool of the merged table, up to the split of the merged leaf (R133). -/
theorem LeastTwo.mergeOnce_perm {w : Symbol → Nat} {x y : Symbol} (h : LeastTwo w x y) :
    (mergeOnce ((participants w).map (Node.ofLeaf w))).Perm
      (((participants (mergedWeights w x y)).map (Node.ofLeaf (mergedWeights w x y))).map (Node.split x y)) := by
  have hbefore := h.participants_perm.map (Node.ofLeaf w)
  have hafter := (h.participants_merged_perm.map (Node.ofLeaf (mergedWeights w x y))).map (Node.split x y)
  have hothers : ((otherParticipants w x y).map (Node.ofLeaf (mergedWeights w x y))).map (Node.split x y) =
      (otherParticipants w x y).map (Node.ofLeaf w) := by
    rw [List.map_map]
    refine List.map_congr_left fun z hz => ?_
    obtain ⟨-, hx, hy⟩ := mem_otherParticipants.mp hz
    exact Node.split_ofLeaf_other w hx hy
  rw [List.map_cons, List.map_cons, hothers, Node.split_ofLeaf_merged] at hafter
  refine (mergeOnce_of_least (distinctMinsyms_ofLeaf w (nodup_participants w)) hbefore ?_ ?_).trans hafter.symm
  · simp only [List.forall_mem_map, mem_participants]
    intro z hz
    refine Node.ofLeaf_not_lt ?_
    by_cases hzx : z = x
    · exact .inl hzx
    · by_cases hzy : z = y
      · exact .inr (hzy ▸ h.lt)
      · exact .inr (h.lt.trans (h.least z hz hzx hzy))
  · intro n hn
    obtain ⟨z, hz, rfl⟩ : ∃ z ∈ y :: otherParticipants w x y, Node.ofLeaf w z = n := List.mem_map.mp hn
    rcases List.mem_cons.mp hz with rfl | hz
    · exact Node.ofLeaf_not_lt (.inl rfl)
    · obtain ⟨hpos, hzx, hzy⟩ := mem_otherParticipants.mp hz
      exact Node.ofLeaf_not_lt (.inr (h.least z hpos hzx hzy))

/-- The recursion of the builder: all merges but the first are those of the merged table (R133 to R135). -/
theorem LeastTwo.codeTree_eq {w : Symbol → Nat} {x y : Symbol} (h : LeastTwo w x y) :
    codeTree w (participants w) =
      (codeTree (mergedWeights w x y) (participants (mergedWeights w x y))).map (Tree.split x y) := by
  have hlen := h.length_participants
  set A := participants (mergedWeights w x y)
  set P := A.map (Node.ofLeaf (mergedWeights w x y))
  obtain ⟨n, hn⟩ : ∃ n, A.length = n + 1 := ⟨_, h.participants_merged_perm.length_eq⟩
  have hP : P.length = n + 1 := (List.length_map _).trans hn
  obtain ⟨r, hr⟩ : ∃ r, mergeTimes n P = [r] := by
    have := (mergeTimes_spec n P (by omega)).1
    exact List.length_eq_one_iff.mp (by omega)
  have hrest : (mergeTimes n (mergeOnce ((participants w).map (Node.ofLeaf w)))).Perm [r.split x y] := by
    have := mergeTimes_congr n (distinctMinsyms_ofLeaf w (nodup_participants w)).mergeOnce h.mergeOnce_perm
    rwa [mergeTimes_map (f := Node.split x y) (fun _ _ => rfl) (fun _ _ => rfl), hr] at this
  rw [codeTree, hlen, codeTree, hn, Nat.add_sub_cancel, Nat.add_sub_cancel, mergeTimes,
    List.perm_singleton.mp hrest, hr]
  rfl

theorem codeTree_singleton (w : Symbol → Nat) (s : Symbol) : codeTree w [s] = some (.leaf s) := rfl

/-- Induction along the merges: one leaf, and the split of the merged leaf. -/
theorem codeTree_induction {motive : (Symbol → Nat) → Tree → Prop}
    (lone : ∀ w s, participants w = [s] → motive w (.leaf s))
    (merge : ∀ w x y t, LeastTwo w x y → codeTree (mergedWeights w x y) (participants (mergedWeights w x y)) = some t →
      motive (mergedWeights w x y) t → motive w (t.split x y))
    {w : Symbol → Nat} {t : Tree} (ht : codeTree w (participants w) = some t) : motive w t := by
  induction hn : (participants w).length generalizing w t with
  | zero =>
    rw [List.length_eq_zero_iff.mp hn] at ht
    nomatch ht
  | succ n ih =>
    by_cases h2 : 2 ≤ (participants w).length
    · obtain ⟨x, y, h⟩ := exists_leastTwo h2
      rw [h.codeTree_eq] at ht
      obtain ⟨t', ht', rfl⟩ := Option.map_eq_some_iff.mp ht
      rw [h.length_participants] at hn
      exact merge w x y t' h ht' (ih ht' (by omega))
    · obtain ⟨s, hs⟩ := List.length_eq_one_iff.mp (show (participants w).length = 1 by omega)
      rw [hs, codeTree_singleton] at ht
      exact Option.some.inj ht ▸ lone w s hs

theorem codeTree_leaves {w : Symbol → Nat} {t : Tree} (ht : codeTree w (participants w) = some t) :
    t.leaves.Perm (participants w) := by
  have hne : participants w ≠ [] := by
    intro hnil
    rw [hnil] at ht
    nomatch ht
  obtain ⟨t', ht', hp⟩ := codeTree_spec w _ hne
  rwa [Option.some.inj (ht.symm.trans ht')]

theorem mem_leaves_of_codeTree {w : Symbol → Nat} {t : Tree} (ht : codeTree w (participants w) = some t) {s : Symbol} :
    s ∈ t.leaves ↔ 0 < w s :=
  (codeTree_leaves ht).mem_iff.trans (mem_participants w s)

section

variable {w : Symbol → Nat} {x y : Symbol} {t : Tree} (h : LeastTwo w x y)
  (ht : codeTree (mergedWeights w x y) (participants (mergedWeights w x y)) = some t)
include h ht

/-- The two symbols of least key are the children of the place of the merged symbol (R135, R136). -/
theorem LeastTwo.path_split_of_pair {s : Symbol} (hs : s = x ∨ s = y) :
    (t.split x y).path s = t.path (mergedSymbol x y) ++ (Tree.node (.leaf x) (.leaf y)).path s := by
  have hu : mergedSymbol x y ∈ t.leaves := (mem_leaves_of_codeTree ht).mpr (by
    rw [mergedWeights_merged]
    exact Nat.add_pos_left h.pos_left _)
  have hpath := Tree.path?_graft_of_mem (u := mergedSymbol x y) (c := .node (.leaf x) (.leaf y)) (t := t) (s := s)
    (by simpa [Tree.leaves] using hs) fun hm => by_contra fun hne => by
      have := (mem_leaves_of_codeTree ht).mp hm
      rw [mergedWeights_removed w hs hne] at this
      omega
  rw [Tree.path, Tree.split, hpath, Tree.path?_eq_path hu]
  rfl

theorem LeastTwo.path_split_left : (t.split x y).path x = t.path (mergedSymbol x y) ++ [false] := by
  rw [h.path_split_of_pair ht (.inl rfl), Tree.path_node_left _ (by simp [Tree.leaves]), Tree.path_leaf]

theorem LeastTwo.path_split_right : (t.split x y).path y = t.path (mergedSymbol x y) ++ [true] := by
  rw [h.path_split_of_pair ht (.inr rfl), Tree.path_node_right (by simp [Tree.leaves, h.lt.ne.symm])
    (by simp [Tree.leaves]), Tree.path_leaf]

end

/-- A merge leaves the path to every other symbol as it is. -/
theorem Tree.path_split_other (t : Tree) {x y z : Symbol} (hx : z ≠ x) (hy : z ≠ y) :
    (t.split x y).path z = t.path z := by
  rw [Tree.path, Tree.split, Tree.path?_graft_of_not_mem t (by simp [Tree.leaves, hx, hy]) (ne_mergedSymbol hx hy),
    Tree.path]

end Sys2Proof.Machine
end

section
/-! Every merge in the Codebook (R133 to R136): what the recursion of the tree says of the codewords. -/

namespace Sys2Proof.Machine

/-- The Codebook of two or more participants, from their tree (R136). -/
theorem codebook_of_codeTree {w : Symbol → Nat} {t : Tree} (h2 : 2 ≤ (participants w).length)
    (ht : codeTree w (participants w) = some t) :
    codebook w = .ok ((participants w).map fun s => (s, t.codeword s)) := by
  obtain ⟨hA, -⟩ | ⟨s, hA, -⟩ | ⟨-, t', ht', -, hc⟩ := codebook_cases w
  · simp [hA] at h2
  · simp [hA] at h2
  · rw [hc, Option.some.inj (ht.symm.trans ht')]

/-- What `CB[s]` is in the Codebook of a tree (R36, R131). -/
theorem Codebook.find_of_tree (t : Tree) (w : Symbol → Nat) (s : Symbol) :
    Codebook.find ((participants w).map fun s => (s, t.codeword s)) s =
      if 0 < w s then some (t.codeword s) else none := by
  split
  next hpos => exact Codebook.find_graph t.codeword ((mem_participants w s).mpr hpos)
  next hpos =>
    rw [← Option.not_isSome_iff_eq_none, Codebook.find_isSome_iff]
    simpa using hpos

theorem Codeword.ofPath_append_bit (p : List Bool) (b : Bool) :
    Codeword.ofPath (p ++ [b]) = { len := p.length + 1, val := 2 * bitsVal p + b.toNat } := by
  simp [Codeword.ofPath, bitsVal_append, bitsVal_cons, Nat.mul_comm]

theorem eq_mergedSymbol {x y u : Symbol} (hmin : u.toNat = min x.toNat y.toNat) : u = mergedSymbol x y :=
  BitVec.eq_of_toNat_eq (hmin.trans (toNat_mergedSymbol x y).symm)

/-- Settles O37: the tree is that of the merged table with the leaf of the merged symbol split. -/
theorem leastTwoSymbolsAreSiblings : Obligations.LeastTwoSymbolsAreSiblings := by
  intro w cb x y hcb hx hy hlt hleast
  have h : LeastTwo w x y := ⟨hx, hy, hlt, hleast⟩
  have hlen := h.length_participants
  have hlenMerged := h.participants_merged_perm.length_eq
  rw [List.length_cons] at hlenMerged
  obtain ⟨t, ht, -⟩ := codeTree_spec (mergedWeights w x y) (participants (mergedWeights w x y))
    (List.ne_nil_of_length_pos (by omega))
  have hsplit : codeTree w (participants w) = some (t.split x y) := by rw [h.codeTree_eq, ht, Option.map_some]
  obtain rfl := Except.ok.inj (hcb.symm.trans (codebook_of_codeTree (by omega) hsplit))
  have hfindx := Codebook.find_of_tree (t.split x y) w x
  have hfindy := Codebook.find_of_tree (t.split x y) w y
  rw [if_pos hx, Tree.codeword_eq, h.path_split_left ht, Codeword.ofPath_append_bit] at hfindx
  rw [if_pos hy, Tree.codeword_eq, h.path_split_right ht, Codeword.ofPath_append_bit] at hfindy
  have hmerged : 0 < mergedWeights w x y (mergedSymbol x y) := by
    rw [mergedWeights_merged]
    omega
  refine ⟨⟨_, _, hfindx, hfindy, rfl, by simp, by simp⟩, fun htwo => ?two, fun hthree u _ hmin => ?more⟩
  case two =>
    have hroot : t.path (mergedSymbol x y) = [] := by
      have hlt := Tree.length_path_lt ((mem_leaves_of_codeTree ht).mpr hmerged)
      rw [(codeTree_leaves ht).length_eq] at hlt
      rw [List.length_map] at htwo
      exact List.eq_nil_of_length_eq_zero (by omega)
    rw [hfindx, hfindy, hroot]
    exact ⟨rfl, rfl⟩
  case more =>
    rw [List.length_map] at hthree
    refine ⟨_, t.codeword (mergedSymbol x y), codebook_of_codeTree (by omega) ht, ?_, hfindx, hfindy, fun z hzx hzy => ?_⟩
    · rw [eq_mergedSymbol hmin, Codebook.find_of_tree, if_pos hmerged]
    · rw [Codebook.find_of_tree, Codebook.find_of_tree, mergedWeights_other w hzx hzy, Tree.codeword_eq,
        Tree.path_split_other t hzx hzy, Tree.codeword_eq]

end Sys2Proof.Machine
end

section
/-! Equal weights (R146): the merges go through the pool in rounds, each of which joins neighbours in ascending order, so
the tree is complete and its leaves are in ascending order. -/

namespace Sys2Proof.Machine

/-- All leaves are `m` deep. -/
def Tree.Complete : Nat → Tree → Prop
  | 0, .leaf _ => True
  | m + 1, .node c0 c1 => c0.Complete m ∧ c1.Complete m
  | _, _ => False

theorem Tree.Complete.length_leaves {m : Nat} {t : Tree} (h : t.Complete m) : t.leaves.length = 2 ^ m := by
  induction m generalizing t with
  | zero =>
    match t, h with
    | .leaf _, _ => rfl
  | succ m ih =>
    match t, h with
    | .node c0 c1, ⟨h0, h1⟩ =>
      rw [Tree.leaves, List.length_append, ih h0, ih h1, pow_succ]
      omega

theorem Tree.codeword_node_left {c0 : Tree} (c1 : Tree) {s : Symbol} (h : s ∈ c0.leaves) :
    (Tree.node c0 c1).codeword s = { len := (c0.codeword s).len + 1, val := (c0.codeword s).val } := by
  rw [Tree.codeword_eq, Tree.path_node_left c1 h, Codeword.ofPath, bitsVal_cons]
  simp

theorem Tree.codeword_node_right {c0 c1 : Tree} {s : Symbol} (h0 : s ∉ c0.leaves) (h1 : s ∈ c1.leaves) :
    (Tree.node c0 c1).codeword s =
      { len := (c1.codeword s).len + 1, val := 2 ^ (c1.codeword s).len + (c1.codeword s).val } := by
  rw [Tree.codeword_eq, Tree.path_node_right h0 h1, Codeword.ofPath, bitsVal_cons]
  simp

/-- The `i`-th leaf of a complete tree has the Codeword `(m, i)`. -/
theorem Tree.Complete.codeword {m : Nat} {t : Tree} (h : t.Complete m) (hd : t.leaves.Nodup) {i : Nat} {s : Symbol}
    (hi : t.leaves[i]? = some s) : t.codeword s = { len := m, val := i } := by
  induction m generalizing t i with
  | zero =>
    match t, h with
    | .leaf u, _ =>
      have : i = 0 := by
        have := (List.getElem?_eq_some_iff.mp hi).1
        simpa [Tree.leaves] using this
      simp [Tree.codeword_eq, Codeword.ofPath, this]
  | succ m ih =>
    match t, h with
    | .node c0 c1, ⟨h0, h1⟩ =>
      obtain ⟨hd0, hd1, hdisj⟩ := List.nodup_append'.mp hd
      have hlen0 := h0.length_leaves
      rw [Tree.leaves] at hi
      by_cases hlt : i < 2 ^ m
      · rw [List.getElem?_append_left (by omega)] at hi
        rw [Tree.codeword_node_left c1 (List.mem_of_getElem? hi), ih h0 hd0 hi]
      · rw [List.getElem?_append_right (by omega), hlen0] at hi
        have hs := List.mem_of_getElem? hi
        rw [Tree.codeword_node_right (fun hm => hdisj hm hs) hs, ih h1 hd1 hi, Nat.add_sub_cancel' (Nat.not_lt.mp hlt)]

/-- A pool as it stands between two rounds: nodes of one weight, complete to one depth, in ascending order. -/
structure UniformPool (c m : Nat) (P : List Node) : Prop where
  weight : ∀ n ∈ P, n.weight = c
  complete : ∀ n ∈ P, n.tree.Complete m
  ascending : (P.map Node.minsym).Pairwise (· < ·)

/-- The pool after a round: neighbours joined, in order. -/
def pairUp : List Node → List Node
  | a :: b :: P => a.join b :: pairUp P
  | _ => []

theorem UniformPool.distinctMinsyms {c m : Nat} {P : List Node} (h : UniformPool c m P) : DistinctMinsyms P :=
  h.ascending.imp Nat.ne_of_lt

theorem UniformPool.tail {c m : Nat} {a : Node} {P : List Node} (h : UniformPool c m (a :: P)) : UniformPool c m P where
  weight n hn := h.weight n (List.mem_cons_of_mem a hn)
  complete n hn := h.complete n (List.mem_cons_of_mem a hn)
  ascending := h.ascending.of_cons

/-- The first node of such a pool has the least key. -/
theorem UniformPool.not_lt_head {c m : Nat} {a x : Node} {P : List Node} (h : UniformPool c m (a :: P))
    (hx : x ∈ a :: P) : x.lt a = false := by
  have hmin : a.minsym ≤ x.minsym := by
    rcases List.mem_cons.mp hx with rfl | hx
    · exact le_rfl
    · exact (List.rel_of_pairwise_cons h.ascending (List.mem_map_of_mem hx)).le
  rw [Bool.eq_false_iff, ne_eq, Node.lt_iff, h.weight a List.mem_cons_self, h.weight x hx]
  omega

theorem Node.not_lt_of_weight_lt {a x : Node} (h : a.weight < x.weight) : x.lt a = false := by
  rw [Bool.eq_false_iff, ne_eq, Node.lt_iff]
  omega

/-- A round (R133): with the nodes `Q` it has made so far, all of greater weight, it joins the rest in order. -/
theorem UniformPool.round {c m n : Nat} {P Q : List Node} (hc : 0 < c) (h : UniformPool c m P) (hlen : P.length = 2 * n)
    (hQ : ∀ q ∈ Q, c < q.weight) (hd : DistinctMinsyms (Q ++ P)) : (mergeTimes n (Q ++ P)).Perm (Q ++ pairUp P) := by
  induction n generalizing P Q with
  | zero =>
    rw [List.length_eq_zero_iff.mp hlen]
    exact List.Perm.refl _
  | succ n ih =>
    match P, hlen with
    | a :: b :: P, hlen =>
      have hab : (Q ++ a :: b :: P).Perm (a :: b :: (Q ++ P)) :=
        List.perm_middle.trans (List.perm_middle.cons a)
      have hfirst : (mergeOnce (Q ++ a :: b :: P)).Perm ((a.join b :: Q) ++ P) := by
        refine mergeOnce_of_least hd hab (fun x hx => ?_) (fun x hx => ?_)
        · rcases List.mem_append.mp hx with hx | hx
          · exact Node.not_lt_of_weight_lt (h.weight a (by simp) ▸ hQ x hx)
          · exact h.not_lt_head hx
        · rcases List.mem_append.mp (List.perm_middle.mem_iff.mpr hx) with hx | hx
          · exact Node.not_lt_of_weight_lt (h.weight b (by simp) ▸ hQ x hx)
          · exact h.tail.not_lt_head hx
      have hjoin : c < (a.join b).weight := by
        have ha := h.weight a (by simp)
        have hb := h.weight b (by simp)
        simp only [Node.join]
        omega
      have hrest := ih (Q := a.join b :: Q) h.tail.tail (by simp only [List.length_cons] at hlen; omega)
        (List.forall_mem_cons.mpr ⟨hjoin, hQ⟩) (hd.mergeOnce.perm hfirst)
      exact (mergeTimes_congr n hd.mergeOnce hfirst).trans (hrest.trans List.perm_middle.symm)

theorem length_pairUp {n : Nat} {P : List Node} (hlen : P.length = 2 * n) : (pairUp P).length = n := by
  induction n generalizing P with
  | zero =>
    rw [List.length_eq_zero_iff.mp hlen]
    rfl
  | succ n ih =>
    match P, hlen with
    | a :: b :: P, hlen =>
      rw [pairUp, List.length_cons, ih (by simp only [List.length_cons] at hlen; omega)]

theorem poolLeaves_pairUp {n : Nat} {P : List Node} (hlen : P.length = 2 * n) :
    poolLeaves (pairUp P) = poolLeaves P := by
  induction n generalizing P with
  | zero =>
    rw [List.length_eq_zero_iff.mp hlen]
    rfl
  | succ n ih =>
    match P, hlen with
    | a :: b :: P, hlen =>
      have ih := ih (P := P) (by simp only [List.length_cons] at hlen; omega)
      simp only [poolLeaves] at ih
      simp [pairUp, poolLeaves, Node.join, Tree.leaves, ih]

/-- A join has the `minsym` of its first child, so a round keeps the order. -/
theorem minsyms_pairUp_sublist {P : List Node} (h : (P.map Node.minsym).Pairwise (· < ·)) :
    ((pairUp P).map Node.minsym).Sublist (P.map Node.minsym) := by
  induction P using pairUp.induct with
  | case1 a b P ih =>
    simp only [List.map_cons, List.pairwise_cons, List.mem_cons, forall_eq_or_imp] at h
    obtain ⟨⟨hab, -⟩, -, hP⟩ := h
    have hmin : (a.join b).minsym = a.minsym := min_eq_left hab.le
    rw [pairUp, List.map_cons, hmin]
    exact ((ih hP).cons _).cons_cons _
  | case2 P hne => simp [pairUp]

/-- Every node after a round is a join of two before it. -/
theorem exists_join_of_mem_pairUp {P : List Node} {n : Node} (hn : n ∈ pairUp P) : ∃ a ∈ P, ∃ b ∈ P, n = a.join b := by
  induction P using pairUp.induct with
  | case1 a b P ih =>
    rcases List.mem_cons.mp hn with rfl | hn
    · exact ⟨a, by simp, b, by simp, rfl⟩
    · obtain ⟨a', ha, b', hb, he⟩ := ih hn
      exact ⟨a', by simp [ha], b', by simp [hb], he⟩
  | case2 P hne => simp [pairUp] at hn

theorem UniformPool.uniformPool_pairUp {c m : Nat} {P : List Node} (h : UniformPool c m P) :
    UniformPool (2 * c) (m + 1) (pairUp P) := by
  refine ⟨fun n hn => ?_, fun n hn => ?_, h.ascending.sublist (minsyms_pairUp_sublist h.ascending)⟩
  · obtain ⟨a, ha, b, hb, rfl⟩ := exists_join_of_mem_pairUp hn
    rw [Node.join, h.weight a ha, h.weight b hb, Nat.two_mul]
  · obtain ⟨a, ha, b, hb, rfl⟩ := exists_join_of_mem_pairUp hn
    exact ⟨h.complete a ha, h.complete b hb⟩

theorem mergeTimes_add (a b : Nat) (P : List Node) : mergeTimes (a + b) P = mergeTimes b (mergeTimes a P) := by
  induction a generalizing P with
  | zero => rw [Nat.zero_add, mergeTimes]
  | succ a ih => rw [Nat.succ_add, mergeTimes, mergeTimes, ih]

/-- After all rounds one complete tree is left, its leaves those of the pool in order (R133). -/
theorem UniformPool.mergeTimes_eq {c m k : Nat} {P : List Node} (hc : 0 < c) (h : UniformPool c m P)
    (hlen : P.length = 2 ^ k) :
    ∃ r, mergeTimes (2 ^ k - 1) P = [r] ∧ r.tree.Complete (m + k) ∧ r.tree.leaves = poolLeaves P := by
  induction k generalizing c m P with
  | zero =>
    obtain ⟨r, rfl⟩ := List.length_eq_one_iff.mp hlen
    exact ⟨r, rfl, h.complete r List.mem_cons_self, by simp [poolLeaves]⟩
  | succ k ih =>
    have hhalf : P.length = 2 * 2 ^ k := by rw [hlen, pow_succ, Nat.mul_comm]
    obtain ⟨r, hr, hcomplete, hleaves⟩ := ih (by omega) h.uniformPool_pairUp (length_pairUp hhalf)
    have hround := h.round (Q := []) hc hhalf (by simp) h.distinctMinsyms
    have hrest := mergeTimes_congr (2 ^ k - 1) h.uniformPool_pairUp.distinctMinsyms hround.symm
    rw [hr, List.nil_append, ← mergeTimes_add, List.singleton_perm] at hrest
    have hpos := Nat.two_pow_pos k
    refine ⟨r, ?_, ?_, hleaves.trans (poolLeaves_pairUp hhalf)⟩
    · rw [pow_succ, show 2 ^ k * 2 - 1 = 2 ^ k + (2 ^ k - 1) by omega, hrest]
    · rwa [Nat.add_right_comm, Nat.add_assoc] at hcomplete

/-- The leaves of participants of one weight are such a pool. -/
theorem uniformPool_ofLeaf {w : Symbol → Nat} {c : Nat} (hw : ∀ s, w s = 0 ∨ w s = c) :
    UniformPool c 0 ((participants w).map (Node.ofLeaf w)) := by
  refine ⟨?_, ?_, ?_⟩
  · rw [List.forall_mem_map]
    intro s hs
    have hpos := (mem_participants w s).mp hs
    exact (hw s).resolve_left (Nat.ne_of_gt hpos)
  · rw [List.forall_mem_map]
    exact fun s _ => trivial
  · rw [List.map_map]
    exact participants_ascending w

/-- The `i`-th of `2^m` participants of one weight has the Codeword `(m, i)` (R146). -/
theorem codeword_of_equal_weights {w : Symbol → Nat} {c m : Nat} (hc : 0 < c) (hw : ∀ s, w s = 0 ∨ w s = c)
    (hlen : (participants w).length = 2 ^ m) :
    ∃ t, codeTree w (participants w) = some t ∧
      ∀ i s, (participants w)[i]? = some s → t.codeword s = { len := m, val := i } := by
  obtain ⟨r, hr, hcomplete, hleaves⟩ := (uniformPool_ofLeaf hw).mergeTimes_eq hc ((List.length_map _).trans hlen)
  rw [poolLeaves_ofLeaf] at hleaves
  rw [Nat.zero_add] at hcomplete
  refine ⟨r.tree, by rw [codeTree, hlen, hr]; rfl, fun i s hi => ?_⟩
  exact hcomplete.codeword (hleaves ▸ nodup_participants w) (hleaves ▸ hi)

theorem participants_of_all_pos {w : Symbol → Nat} (h : ∀ s, 0 < w s) : participants w = allSymbols :=
  List.filter_eq_self.mpr fun s _ => decide_eq_true (h s)

theorem getElem?_allSymbols (s : Symbol) : allSymbols[s.toNat]? = some s := by
  have := s.isLt
  simp [allSymbols, this]

/-- Settles O38: the pool is merged in rounds into a complete tree. -/
theorem equalWeightsGiveTheFixedLengthCode : Obligations.EqualWeightsGiveTheFixedLengthCode := by
  constructor
  · intro w cb m c hc hw hm hcb hlen i hi
    rw [length_codebook hcb] at hlen
    obtain ⟨t, ht, hcw⟩ := codeword_of_equal_weights hc hw hlen
    have h2 : 2 ^ 1 ≤ 2 ^ m := Nat.pow_le_pow_right (by omega) hm
    obtain rfl := Except.ok.inj (hcb.symm.trans (codebook_of_codeTree (by omega) ht))
    have hs := List.getElem?_eq_getElem (hlen ▸ hi : i < (participants w).length)
    rw [List.getElem?_map, hs, Option.map_some, Option.map_some, hcw i _ hs]
  · intro w c hc hw
    have hall : participants w = allSymbols := participants_of_all_pos fun s => hw s ▸ hc
    have hlen : (participants w).length = 2 ^ 8 := by simp [hall, allSymbols]
    obtain ⟨t, ht, hcw⟩ := codeword_of_equal_weights hc (fun s => .inr (hw s)) hlen
    refine ⟨_, codebook_of_codeTree (by omega) ht, fun s => ?_⟩
    rw [Codebook.find_of_tree, if_pos (hw s ▸ hc), hcw s.toNat s (hall ▸ getElem?_allSymbols s)]

end Sys2Proof.Machine
end

section
/-! Optimality (R140): Kraft's inequality bounds the codeword lengths of any assignment no member of which begins another,
and among all lengths that meet the inequality those of the tree have the least weighted sum, by induction along the
merges. -/

namespace Sys2Proof.Machine

/-- A code no member of which begins another can be read back from the concatenation of its codewords. -/
theorem uniquelyDecodable_of_isPrefix_eq {S : Set (List Bool)} (hne : [] ∉ S)
    (hS : ∀ p ∈ S, ∀ q ∈ S, p <+: q → p = q) : InformationTheory.UniquelyDecodable S := by
  have ne_nil : ∀ {p}, p ∈ S → p ≠ [] := fun hp he => hne (he ▸ hp)
  intro L₁
  induction L₁ with
  | nil =>
    intro L₂ _ h₂ he
    match L₂ with
    | [] => rfl
    | q :: L₂ => exact absurd (List.append_eq_nil_iff.mp he.symm).1 (ne_nil (h₂ q List.mem_cons_self))
  | cons p L₁ ih =>
    intro L₂ h₁ h₂ he
    match L₂ with
    | [] => exact absurd (List.append_eq_nil_iff.mp he).1 (ne_nil (h₁ p List.mem_cons_self))
    | q :: L₂ =>
      obtain ⟨hp, hrest₁⟩ := List.forall_mem_cons.mp h₁
      obtain ⟨hq, hrest₂⟩ := List.forall_mem_cons.mp h₂
      rw [List.flatten_cons, List.flatten_cons] at he
      have hpq : p = q := by
        rcases List.prefix_or_prefix_of_prefix (List.prefix_append p _) (he ▸ List.prefix_append q _) with hle | hle
        · exact hS p hp q hq hle
        · exact (hS q hq p hp hle).symm
      subst hpq
      rw [ih L₂ hrest₁ hrest₂ (List.append_cancel_left he)]

section

variable {A : List Symbol} {code : Symbol → List Bool} (h : PrefixFreeOn A code)
include h

theorem PrefixFreeOn.eq_of_isPrefix {a b : Symbol} (ha : a ∈ A) (hb : b ∈ A) (hab : code a <+: code b) : a = b :=
  by_contra fun hne => h a ha b hb hne hab

/-- The empty bit string begins every other, so it is no codeword where there are two symbols. -/
theorem PrefixFreeOn.code_ne_nil (hd : A.Nodup) (h2 : 2 ≤ A.length) {a : Symbol} (ha : a ∈ A) : code a ≠ [] := by
  intro hnil
  have only : ∀ b ∈ A, b = a := fun b hb => (h.eq_of_isPrefix ha hb (hnil ▸ List.nil_prefix)).symm
  match A, h2 with
  | b :: c :: A, _ =>
    have hbc : b = c := (only b (by simp)).trans (only c (by simp)).symm
    simp [hbc] at hd

/-- Kraft's inequality for an assignment of bit strings to two or more symbols (R139, R141). -/
theorem PrefixFreeOn.kraftOf_le_one (hd : A.Nodup) (h2 : 2 ≤ A.length) : (kraftOf A fun s => (code s).length) ≤ 1 := by
  have hcodes : (A.map code).Nodup := hd.map_on fun a ha b hb he => h.eq_of_isPrefix ha hb (he ▸ List.prefix_refl _)
  have hdecodable : InformationTheory.UniquelyDecodable ((A.map code).toFinset : Set (List Bool)) := by
    refine uniquelyDecodable_of_isPrefix_eq ?_ ?_ <;> simp only [List.coe_toFinset, List.mem_map, Set.mem_ofPred_eq]
    · exact fun ⟨a, ha, hnil⟩ => h.code_ne_nil hd h2 ha hnil
    · rintro _ ⟨a, ha, rfl⟩ _ ⟨b, hb, rfl⟩ hab
      rw [h.eq_of_isPrefix ha hb hab]
  have hkraft := InformationTheory.kraft_mcmillan_inequality hdecodable
  rw [List.sum_toFinset _ hcodes, List.map_map] at hkraft
  have hcast : ((kraftOf A fun s => (code s).length : ℚ) : ℝ) ≤ 1 := by
    rw [kraftOf, Rat.cast_list_sum, List.map_map]
    exact (congrArg List.sum (List.map_congr_left fun s _ => by simp)).trans_le hkraft
  exact_mod_cast hcast

end

/-- The weighted sum of an assignment of lengths (R140). -/
def weightedLength (A : List Symbol) (w len : Symbol → Nat) : Nat := (A.map fun s => w s * len s).sum

theorem weightedLength_cons (s : Symbol) (A : List Symbol) (w len : Symbol → Nat) :
    weightedLength (s :: A) w len = w s * len s + weightedLength A w len := by
  rw [weightedLength, List.map_cons, List.sum_cons, weightedLength]

theorem weightedLength_perm {A B : List Symbol} (h : A.Perm B) (w len : Symbol → Nat) :
    weightedLength A w len = weightedLength B w len :=
  (h.map _).sum_eq

theorem weightedLength_congr {A : List Symbol} {w w' len len' : Symbol → Nat}
    (h : ∀ s ∈ A, w s = w' s ∧ len s = len' s) : weightedLength A w len = weightedLength A w' len' :=
  congrArg List.sum (List.map_congr_left fun s hs => by rw [(h s hs).1, (h s hs).2])

/-- The cost of the Codebook of a tree is the weighted sum of its paths. -/
theorem Tree.cost_eq (t : Tree) (A : List Symbol) (w : Symbol → Nat) :
    Codebook.cost w (A.map fun s => (s, t.codeword s)) = weightedLength A w fun s => (t.path s).length := by
  rw [Codebook.cost, weightedLength, List.map_map]
  rfl

/-- Exchanging the lengths of two symbols so that the symbol of lesser weight has the greater length does not raise the
weighted sum, and leaves the Kraft sum as it is. -/
theorem exchange_lengths {A : List Symbol} (hd : A.Nodup) {x a : Symbol} (hx : x ∈ A) (ha : a ∈ A) {w len : Symbol → Nat}
    (hw : w x ≤ w a) (hlen : len x ≤ len a) :
    kraftOf A (len ∘ Equiv.swap x a) = kraftOf A len ∧
      weightedLength A w (len ∘ Equiv.swap x a) ≤ weightedLength A w len := by
  by_cases hxa : x = a
  · simp [hxa]
  have ha' : a ∈ A.erase x := (hd.mem_erase_iff).mpr ⟨Ne.symm hxa, ha⟩
  have hperm : A.Perm (x :: a :: (A.erase x).erase a) :=
    (List.perm_cons_erase hx).trans ((List.perm_cons_erase ha').cons x)
  have hrest : ∀ s ∈ (A.erase x).erase a, (len ∘ Equiv.swap x a) s = len s := by
    intro s hs
    obtain ⟨hsa, hs⟩ := (hd.erase x).mem_erase_iff.mp hs
    exact congrArg len (Equiv.swap_apply_of_ne_of_ne (hd.mem_erase_iff.mp hs).1 hsa)
  constructor
  · simp only [kraftOf_perm hperm, kraftOf_cons, kraftOf_congr hrest, Function.comp_apply, Equiv.swap_apply_left,
      Equiv.swap_apply_right]
    ring
  · have hpair := mul_add_mul_le_mul_add_mul hw hlen
    simp only [weightedLength_perm hperm, weightedLength_cons,
      weightedLength_congr (w := w) fun s hs => ⟨rfl, hrest s hs⟩, Function.comp_apply, Equiv.swap_apply_left,
      Equiv.swap_apply_right]
    omega

/-- A symbol of least weight can be given the greatest length. -/
theorem exists_deepest {x : Symbol} {L : List Symbol} (hd : (x :: L).Nodup) {w : Symbol → Nat} (hw : ∀ z ∈ L, w x ≤ w z)
    (len : Symbol → Nat) :
    ∃ len', (∀ z ∈ L, len' z ≤ len' x) ∧ kraftOf (x :: L) len' = kraftOf (x :: L) len ∧
      weightedLength (x :: L) w len' ≤ weightedLength (x :: L) w len ∧ (∃ a ∈ x :: L, len' x = len a) ∧
      ∀ z, z ∉ x :: L → len' z = len z := by
  obtain ⟨a, ha, hmax⟩ := (x :: L).toFinset.exists_max_image len ⟨x, by simp⟩
  simp only [List.mem_toFinset] at ha hmax
  have hwa : w x ≤ w a := by
    rcases List.mem_cons.mp ha with rfl | hL
    exacts [le_rfl, hw a hL]
  obtain ⟨hkraft, hcost⟩ := exchange_lengths hd List.mem_cons_self ha hwa (hmax x List.mem_cons_self)
  have hxa : (len ∘ Equiv.swap x a) x = len a := congrArg len (Equiv.swap_apply_left x a)
  refine ⟨len ∘ Equiv.swap x a, fun z hz => ?_, hkraft, hcost, ⟨a, ha, hxa⟩, fun z hz => ?_⟩
  · rw [hxa]
    refine hmax _ ?_
    by_cases hzx : z = x
    · rw [hzx, Equiv.swap_apply_left]
      exact ha
    · by_cases hza : z = a
      · rw [hza, Equiv.swap_apply_right]
        exact List.mem_cons_self
      · rw [Equiv.swap_apply_of_ne_of_ne hzx hza]
        exact List.mem_cons_of_mem x hz
  · exact congrArg len (Equiv.swap_apply_of_ne_of_ne (fun he => hz (he ▸ List.mem_cons_self)) fun he => hz (he ▸ ha))

/-- The two symbols of least weight can be given the two greatest lengths. -/
theorem exists_two_deepest {x y : Symbol} {L : List Symbol} (hd : (x :: y :: L).Nodup) {w : Symbol → Nat}
    (hxy : w x ≤ w y) (hy : ∀ z ∈ L, w y ≤ w z) (len : Symbol → Nat) :
    ∃ len', len' y ≤ len' x ∧ (∀ z ∈ L, len' z ≤ len' y) ∧
      kraftOf (x :: y :: L) len' = kraftOf (x :: y :: L) len ∧
      weightedLength (x :: y :: L) w len' ≤ weightedLength (x :: y :: L) w len := by
  have hx : ∀ z ∈ y :: L, w x ≤ w z := List.forall_mem_cons.mpr ⟨hxy, fun z hz => hxy.trans (hy z hz)⟩
  obtain ⟨len₁, hmax₁, hkraft₁, hcost₁, -, -⟩ := exists_deepest hd hx len
  obtain ⟨len₂, hmax₂, hkraft₂, hcost₂, ⟨a, ha, hya⟩, hout₂⟩ := exists_deepest hd.of_cons hy len₁
  have hx₂ : len₂ x = len₁ x := hout₂ x (List.nodup_cons.mp hd).1
  refine ⟨len₂, ?_, hmax₂, ?_, ?_⟩
  · rw [hya, hx₂]
    exact hmax₁ a ha
  · rw [kraftOf_cons, hkraft₂, hx₂, ← kraftOf_cons, hkraft₁]
  · refine le_trans ?_ hcost₁
    rw [weightedLength_cons, weightedLength_cons x, hx₂]
    exact Nat.add_le_add_left hcost₂ _

/-- A Kraft sum of lengths up to `m` is a number of parts of size `2^(-m)`. -/
theorem kraftOf_eq_div {A : List Symbol} {len : Symbol → Nat} {m : Nat} (h : ∀ z ∈ A, len z ≤ m) :
    ∃ N : Nat, kraftOf A len = N / 2 ^ m := by
  induction A with
  | nil => exact ⟨0, by simp [kraftOf]⟩
  | cons s A ih =>
    obtain ⟨hs, hA⟩ := List.forall_mem_cons.mp h
    obtain ⟨N, hN⟩ := ih hA
    obtain ⟨d, rfl⟩ := Nat.exists_eq_add_of_le hs
    refine ⟨2 ^ d + N, ?_⟩
    rw [kraftOf_cons, hN, pow_add]
    field_simp
    push_cast
    ring

/-- If lengths up to `m`, with `M` and `m` besides, meet Kraft's inequality, then so they do with `m - 1` in the place of
`M` and `m`: what `M` takes is at least one more part of size `2^(-m)`. -/
theorem kraft_merge {A : List Symbol} {len : Symbol → Nat} {m M : Nat} (h : ∀ z ∈ A, len z ≤ m)
    (hkraft : 1 / 2 ^ M + (1 / 2 ^ m + kraftOf A len) ≤ 1) :
    ∃ k, m = k + 1 ∧ 1 / 2 ^ k + kraftOf A len ≤ 1 := by
  obtain ⟨N, hN⟩ := kraftOf_eq_div h
  have hpos : (0 : ℚ) < 1 / 2 ^ M := by positivity
  have hlt : ((1 + N : Nat) : ℚ) < (2 ^ m : Nat) := by
    have : (1 + N : ℚ) / 2 ^ m < 1 := by rw [add_div, ← hN]; linarith
    rw [div_lt_one (by positivity)] at this
    exact_mod_cast this
  have hlt : 1 + N < 2 ^ m := by exact_mod_cast hlt
  obtain ⟨k, rfl⟩ : ∃ k, m = k + 1 := Nat.exists_eq_succ_of_ne_zero (by rintro rfl; simp at hlt)
  refine ⟨k, rfl, ?_⟩
  have hle : ((2 + N : Nat) : ℚ) ≤ (2 ^ (k + 1) : Nat) := by exact_mod_cast (by omega : 2 + N ≤ 2 ^ (k + 1))
  rw [hN, show (1 : ℚ) / 2 ^ k + N / 2 ^ (k + 1) = (2 + N) / 2 ^ (k + 1) by field_simp; ring,
    div_le_one (by positivity)]
  exact_mod_cast hle

/-- Lengths for a table give lengths for the table after the merge that are cheaper by the merged weight at least. -/
theorem LeastTwo.exists_merged_lengths {w : Symbol → Nat} {x y : Symbol} (h : LeastTwo w x y) {len : Symbol → Nat}
    (hkraft : kraftOf (participants w) len ≤ 1) :
    ∃ len', kraftOf (participants (mergedWeights w x y)) len' ≤ 1 ∧
      weightedLength (participants (mergedWeights w x y)) (mergedWeights w x y) len' + (w x + w y) ≤
        weightedLength (participants w) w len := by
  have hperm := h.participants_perm
  have hwy : ∀ z ∈ otherParticipants w x y, w y ≤ w z := fun z hz => by
    obtain ⟨hpos, hzx, hzy⟩ := mem_otherParticipants.mp hz
    exact (h.least z hpos hzx hzy).weight_le
  obtain ⟨len₂, hyx, hmax, hkraft₂, hcost⟩ :=
    exists_two_deepest (hperm.nodup_iff.mp (nodup_participants w)) h.lt.weight_le hwy len
  rw [kraftOf_perm hperm, ← hkraft₂, kraftOf_cons, kraftOf_cons] at hkraft
  obtain ⟨k, hk, hmerged⟩ := kraft_merge hmax hkraft
  have hothers : ∀ z ∈ otherParticipants w x y,
      mergedWeights w x y z = w z ∧ Function.update len₂ (mergedSymbol x y) k z = len₂ z := fun z hz => by
    obtain ⟨-, hzx, hzy⟩ := mem_otherParticipants.mp hz
    exact ⟨mergedWeights_other w hzx hzy, Function.update_of_ne (ne_mergedSymbol hzx hzy) _ _⟩
  refine ⟨Function.update len₂ (mergedSymbol x y) k, ?_, ?_⟩
  · rwa [kraftOf_perm h.participants_merged_perm, kraftOf_cons, Function.update_self,
      kraftOf_congr fun z hz => (hothers z hz).2]
  · refine le_trans ?_ (hcost.trans_eq (weightedLength_perm hperm w len).symm)
    rw [weightedLength_perm h.participants_merged_perm, weightedLength_cons, Function.update_self,
      mergedWeights_merged, weightedLength_congr hothers, weightedLength_cons, weightedLength_cons, hk]
    have hleft : w x * (k + 1) ≤ w x * len₂ x := Nat.mul_le_mul_left _ (hk ▸ hyx)
    linarith

/-- The merge costs the weight of its node, a bit more for each of the symbols below it. -/
theorem LeastTwo.weightedLength_split {w : Symbol → Nat} {x y : Symbol} {t : Tree} (h : LeastTwo w x y)
    (ht : codeTree (mergedWeights w x y) (participants (mergedWeights w x y)) = some t) :
    weightedLength (participants w) w (fun s => ((t.split x y).path s).length) =
      weightedLength (participants (mergedWeights w x y)) (mergedWeights w x y) (fun s => (t.path s).length) +
        (w x + w y) := by
  have hothers : ∀ z ∈ otherParticipants w x y,
      w z = mergedWeights w x y z ∧ ((t.split x y).path z).length = (t.path z).length := fun z hz => by
    obtain ⟨-, hzx, hzy⟩ := mem_otherParticipants.mp hz
    exact ⟨(mergedWeights_other w hzx hzy).symm, congrArg List.length (t.path_split_other hzx hzy)⟩
  rw [weightedLength_perm h.participants_perm, weightedLength_perm h.participants_merged_perm, weightedLength_cons,
    weightedLength_cons, weightedLength_cons, weightedLength_congr hothers, h.path_split_left ht,
    h.path_split_right ht, mergedWeights_merged, List.length_append, List.length_append]
  simp only [List.length_singleton]
  ring

/-- No lengths that meet Kraft's inequality have a lesser weighted sum than those of the tree (R140). -/
def Tree.Optimal (w : Symbol → Nat) (t : Tree) : Prop :=
  ∀ len, kraftOf (participants w) len ≤ 1 →
    weightedLength (participants w) w (fun s => (t.path s).length) ≤ weightedLength (participants w) w len

theorem optimal_of_codeTree {w : Symbol → Nat} {t : Tree} (ht : codeTree w (participants w) = some t) :
    t.Optimal w := by
  refine codeTree_induction (motive := Tree.Optimal) ?lone ?merge ht
  case lone =>
    intro w s hs len _
    simp [weightedLength, hs]
  case merge =>
    intro w x y t h ht ih len hkraft
    obtain ⟨len', hkraft', hcost⟩ := h.exists_merged_lengths hkraft
    rw [h.weightedLength_split ht]
    exact (Nat.add_le_add_right (ih len' hkraft') _).trans hcost

/-- Settles O35: the lengths of any assignment it speaks of meet Kraft's inequality, and the tree is optimal among those. -/
theorem codebookIsOptimal : Obligations.CodebookIsOptimal := by
  intro w cb hcb
  obtain ⟨s, -, rfl⟩ | ⟨h2, t, ht, -, rfl⟩ := codebook_ok_cases hcb
  · exact ⟨fun h2 => absurd h2 (by simp), fun _ => by simp⟩
  · refine ⟨fun _ code hcode => ?_, fun h1 => ?_⟩
    · rw [codebook_symbols hcb] at hcode ⊢
      rw [t.cost_eq]
      exact optimal_of_codeTree ht _ (hcode.kraftOf_le_one (nodup_participants w) h2)
    · rw [List.length_map] at h1
      omega

end Sys2Proof.Machine
end

section
/-! SENC (R150 to R158): its outcome in each case, from the empty source to the file. -/

namespace Sys2Proof.Machine

/-- `CB[s]` of a symbol that has a Codeword (R36). -/
def Codebook.codeword (cb : Codebook) (s : Symbol) : Codeword := (cb.find s).getD { len := 0, val := 0 }

theorem Codebook.find_eq_codeword {cb : Codebook} {s : Symbol} (h : s ∈ cb.map Prod.fst) :
    cb.find s = some (cb.codeword s) := by
  obtain ⟨c, hc⟩ := Option.isSome_iff_exists.mp ((cb.find_isSome_iff s).mpr h)
  rw [Codebook.codeword, hc, Option.getD_some]

theorem Codebook.mem_codeword {cb : Codebook} {s : Symbol} (h : s ∈ cb.map Prod.fst) : (s, cb.codeword s) ∈ cb :=
  Codebook.mem_of_find (Codebook.find_eq_codeword h)

/-- With one entry a symbol (R105), an entry is what its symbol finds. -/
theorem Codebook.codeword_of_mem {cb : Codebook} (hd : (cb.map Prod.fst).Nodup) {e : Symbol × Codeword} (he : e ∈ cb) :
    cb.codeword e.1 = e.2 := by
  have hmem : (e.1, cb.codeword e.1) ∈ cb := Codebook.mem_codeword (List.mem_map_of_mem he)
  exact congrArg Prod.snd (List.inj_on_of_nodup_map hd hmem he rfl)

theorem nodup_codebook_symbols {w : Symbol → Nat} {cb : Codebook} (h : codebook w = .ok cb) : (cb.map Prod.fst).Nodup :=
  codebook_symbols h ▸ nodup_participants w

/-- Exactly the bytes of positive weight have a Codeword (R131). -/
theorem mem_codebook_symbols {w : Symbol → Nat} {cb : Codebook} (h : codebook w = .ok cb) (s : Symbol) :
    s ∈ cb.map Prod.fst ↔ 0 < w s := by
  rw [codebook_symbols h, mem_participants]

/-- The bit buffer of a source of which every byte has a Codeword (R155). -/
theorem sourceBits_of_coded {cb : Codebook} {S : List Byte} (h : ∀ b ∈ S, b ∈ cb.map Prod.fst) :
    sourceBits cb S = S.flatMap fun b => cwBits (cb.codeword b).len (cb.codeword b).val :=
  List.flatMap_congr fun b hb => by rw [Codebook.find_eq_codeword (h b hb), Option.map_some, Option.getD_some]

theorem firstUncoded_eq_none_iff {cb : Codebook} {S : List Byte} :
    firstUncoded cb S = none ↔ ∀ b ∈ S, b ∈ cb.map Prod.fst := by
  simp only [firstUncoded, List.findIdx?_eq_none_iff, ← cb.find_isSome_iff, Option.isNone_eq_false_iff]

/-- What SENC ends with when every source byte has a Codeword (R158). -/
def sencResult (padBit : Bool) (cb : Codebook) (S : List Byte) (m : Nat) : Result where
  bytes := sourceHeader cb m ++ pack (sourceBits cb S) padBit
  srcLen := m
  payloadLen := (pack (sourceBits cb S) padBit).length

theorem sencWith_of_coded (padBit : Bool) {cb : Codebook} {S : List Byte} (m : Nat)
    (h : ∀ b ∈ S, b ∈ cb.map Prod.fst) : sencWith padBit cb S m = .ok (sencResult padBit cb S m) := by
  rw [sencWith, firstUncoded_eq_none_iff.mpr h]
  rfl

theorem sencWith_of_uncoded (padBit : Bool) {cb : Codebook} {S : List Byte} (m : Nat) {i : Nat}
    (h : firstUncoded cb S = some i) : sencWith padBit cb S m = raise .symbolNotInCodebook i := by
  rw [sencWith, h]

theorem sencWith_ok {padBit : Bool} {cb : Codebook} {S : List Byte} {m : Nat} {r : Result}
    (h : sencWith padBit cb S m = .ok r) : (∀ b ∈ S, b ∈ cb.map Prod.fst) ∧ r = sencResult padBit cb S m := by
  cases hf : firstUncoded cb S with
  | some i =>
    rw [sencWith_of_uncoded padBit m hf] at h
    nomatch h
  | none =>
    have hcoded := firstUncoded_eq_none_iff.mp hf
    rw [sencWith_of_coded padBit m hcoded] at h
    exact ⟨hcoded, (Except.ok.inj h).symm⟩

theorem sencOutcome_of_long (padBit : Bool) (w : Symbol → Nat) (S : List Byte) {m : Nat} (h : 2 ^ 32 ≤ m) :
    sencOutcome padBit w S m = raise .lengthOverflow m := by
  rw [sencOutcome, if_neg (by omega), if_pos (by simp only [Config.maxSourceLen]; omega)]

/-- A source that is neither empty nor too long is encoded with the Codebook of the table (R151 to R153). -/
theorem sencOutcome_of_codebook (padBit : Bool) {w : Symbol → Nat} {cb : Codebook} (hcb : codebook w = .ok cb)
    (S : List Byte) {m : Nat} (hpos : 1 ≤ m) (hlt : m < 2 ^ 32) :
    sencOutcome padBit w S m = sencWith padBit cb S m := by
  rw [sencOutcome, if_neg (by omega), if_neg (by simp only [Config.maxSourceLen]; omega), hcb]

/-- When SENC has a result (R150): the empty one of the empty source, or the file of a source whose every byte has a
Codeword. -/
theorem sencOutcome_ok_cases {padBit : Bool} {w : Symbol → Nat} {S : List Byte} {m : Nat} {r : Result}
    (h : sencOutcome padBit w S m = .ok r) :
    (m = 0 ∧ r = { bytes := [], srcLen := 0, payloadLen := 0 }) ∨
    (1 ≤ m ∧ m < 2 ^ 32 ∧ ∃ cb, codebook w = .ok cb ∧ (∀ b ∈ S, b ∈ cb.map Prod.fst) ∧
      r = sencResult padBit cb S m) := by
  obtain rfl | hpos : m = 0 ∨ 1 ≤ m := by omega
  · exact .inl ⟨rfl, (Except.ok.inj h).symm⟩
  obtain hlong | hlt : 2 ^ 32 ≤ m ∨ m < 2 ^ 32 := by omega
  · rw [sencOutcome_of_long padBit w S hlong] at h
    nomatch h
  cases hcb : codebook w with
  | error e =>
    rw [sencOutcome, if_neg (by omega), if_neg (by simp only [Config.maxSourceLen]; omega), hcb] at h
    nomatch h
  | ok cb =>
    rw [sencOutcome_of_codebook padBit hcb S hpos hlt] at h
    exact .inr ⟨hpos, hlt, cb, rfl, sencWith_ok h⟩

theorem outcomeOf_senc {s : State} (h : overCap s.params.inCap s.inLen.toNat = false) :
    outcomeOf .senc s = sencOutcome s.params.padBit s.weight s.inBytes s.inLen.toNat :=
  inputTest_fits s _ h

/-- No capacity is below a length of 0. -/
theorem outcomeOf_senc_of_empty {s : State} (h : s.inLen = 0) :
    outcomeOf .senc s = .ok { bytes := [], srcLen := 0, payloadLen := 0 } := by
  rw [outcomeOf_senc (by simp [h]), h]
  rfl

/-- Settles O39: the empty result fits every OUT. -/
theorem sencOfTheEmptySourceIsEmpty : Obligations.SencOfTheEmptySourceIsEmpty := fun _ hempty =>
  ⟨_, exec_of_result (outcomeOf_senc_of_empty hempty) (overCap_zero _)⟩

/-- The least index of a source byte of weight 0 is that of the first byte without a Codeword (R154). -/
theorem firstUncoded_eq_some {s : State} {cb : Codebook} (hcb : codebook s.weight = .ok cb) {i : Nat}
    (hi : i < s.inLen.toNat) (hzero : s.weight (s.inByte i) = 0) (hpos : ∀ j, j < i → 0 < s.weight (s.inByte j)) :
    firstUncoded cb s.inBytes = some i := by
  have huncoded : ∀ b, (cb.find b).isNone = true ↔ s.weight b = 0 := fun b => by
    rw [← Option.not_isSome, Bool.not_eq_true', ← Bool.not_eq_true, cb.find_isSome_iff, mem_codebook_symbols hcb,
      Nat.pos_iff_ne_zero, not_not]
  refine List.findIdx?_eq_some_iff_getElem.mpr ⟨by simpa using hi, ?_, fun j hj => ?_⟩
  · simpa [State.inBytes, huncoded] using hzero
  · simpa [State.inBytes, huncoded, Nat.pos_iff_ne_zero] using hpos j hj

/-- Settles O41: the length is tested before the table, and the bytes in order. -/
theorem sencRefusesLongAndUncodedSources : Obligations.SencRefusesLongAndUncodedSources := by
  refine fun s hfits => ⟨fun hlong => exec_of_raise ?_, fun i hlt ⟨sym, hsym⟩ hi hzero hpos => exec_of_raise ?_⟩
  · rw [outcomeOf_senc hfits, sencOutcome_of_long _ _ _ hlong]
  · obtain ⟨cb, hcb⟩ := codebook_isOk sym hsym
    rw [outcomeOf_senc hfits, sencOutcome_of_codebook _ hcb _ (by omega) hlt,
      sencWith_of_uncoded _ _ (firstUncoded_eq_some hcb hi hzero hpos)]

/-- The bytes of the header's fields (R100 to R103). -/
theorem sourceHeader_eq (cb : Codebook) (m : Nat) :
    sourceHeader cb m =
      [BitVec.ofNat 8 (7 + (serialize cb).length), BitVec.ofNat 8 ((7 + (serialize cb).length) / 256),
        BitVec.ofNat 8 (cb.length - 1), BitVec.ofNat 8 m, BitVec.ofNat 8 (m / 2 ^ 8), BitVec.ofNat 8 (m / 2 ^ 16),
        BitVec.ofNat 8 (m / 2 ^ 24)] ++ serialize cb := by
  simp [sourceHeader, u16le, u32le, u8, leBytes, Config.srcHeaderFixed, Nat.div_div_eq_div_mul]

theorem length_sencResult_bytes (padBit : Bool) (cb : Codebook) (S : List Byte) (m : Nat) :
    (sencResult padBit cb S m).bytes.length = 7 + (serialize cb).length + (pack (sourceBits cb S) padBit).length := by
  simp only [sencResult, sourceHeader, List.length_append, length_u16le, length_u8, length_u32le]

/-- The padding of a packed stream fills its last byte (R157). -/
theorem unpack_pack_fill (S : List Bool) (p : Bool) :
    unpack (pack S p) = S ++ List.replicate (8 * (pack S p).length - S.length) p := by
  rw [unpack_pack, length_pack, ceil8]
  congr 2
  omega

/-- Settles O40: the Codeword of every source byte is found, and the result is the header and the packed bits. -/
theorem sencWritesTheFile : Obligations.SencWritesTheFile := by
  intro s hpos hlt hfits hweights
  have hmem : s.inByte 0 ∈ s.inBytes := List.mem_map.mpr ⟨0, List.mem_range.mpr hpos, rfl⟩
  obtain ⟨cb, hcb⟩ := codebook_isOk _ (hweights _ hmem)
  have hcoded : ∀ b ∈ s.inBytes, b ∈ cb.map Prod.fst := fun b hb => (mem_codebook_symbols hcb b).mpr (hweights b hb)
  have hout : outcomeOf .senc s = .ok (sencResult s.params.padBit cb s.inBytes s.inLen.toNat) := by
    rw [outcomeOf_senc hfits, sencOutcome_of_codebook _ hcb _ hpos hlt, sencWith_of_coded _ _ hcoded]
  refine ⟨cb, cb.codeword, sourceBits cb s.inBytes, pack (sourceBits cb s.inBytes) s.params.padBit, hcb,
    fun e he => Codebook.codeword_of_mem (nodup_codebook_symbols hcb) he, fun b hb => Codebook.mem_codeword (hcoded b hb),
    sourceBits_of_coded hcoded, unpack_pack_fill _ _, length_pack _ _, fun hroom => ?_⟩
  rw [← length_sencResult_bytes _ _ _ s.inLen.toNat] at hroom
  rw [← sourceHeader_eq]
  exact ⟨_, exec_of_result hout hroom⟩

end Sys2Proof.Machine
end

section
/-! SDEC on a well-formed SourceCodecFile (R170 to R182): the header's fields, the table and the scan. -/

namespace Sys2Proof.Machine

/-- The entries of the table `T`, one after another (R104). -/
def tableBytes (T : List Entry) : List Byte := serialize (T.map fun e => (e.sym, { len := e.len, val := e.val }))

theorem tableBytes_cons (e : Entry) (T : List Entry) :
    tableBytes (e :: T) = entryBytes (e.sym, { len := e.len, val := e.val }) ++ tableBytes T := rfl

/-- An entry is at most 34 bytes (R101). -/
theorem length_tableBytes_le {T : List Entry} (hT : ∀ e ∈ T, e.legal) : (tableBytes T).length ≤ 34 * T.length := by
  induction T with
  | nil => exact Nat.le_refl 0
  | cons e T ih =>
    obtain ⟨-, h255, -⟩ := hT e List.mem_cons_self
    have ih := ih fun e he => hT e (List.mem_cons_of_mem _ he)
    simp only [tableBytes_cons, entryBytes, List.length_append, List.length_cons, length_u8, length_leBytes, ceil8]
    omega

/-- A table of legal entries that stands after `pre` in a file is read back whole (R172). -/
theorem parseEntries_tableBytes {T : List Entry} (hT : ∀ e ∈ T, e.legal) (pre tail : List Byte) :
    parseEntries (pre ++ (tableBytes T ++ tail)) (pre ++ (tableBytes T ++ tail)).length T.length pre.length =
      .ok (T, pre.length + (tableBytes T).length) := by
  induction T generalizing pre with
  | nil => rfl
  | cons e T ih =>
    have hfile : pre ++ (tableBytes (e :: T) ++ tail) =
        (pre ++ entryBytes (e.sym, { len := e.len, val := e.val })) ++ (tableBytes T ++ tail) := by
      simp [tableBytes_cons]
    have htable := ih (fun e he => hT e (List.mem_cons_of_mem _ he))
      (pre ++ entryBytes (e.sym, { len := e.len, val := e.val }))
    rw [List.length_cons, parseEntries_cons pre (tableBytes T ++ tail) e (hT e List.mem_cons_self) T.length _
      (by rw [tableBytes_cons, List.append_assoc]), hfile, htable]
    simp [tableBytes_cons, Nat.add_assoc]

/-- The entries that match at a position of the payload are those whose bits come next (R179). -/
theorem filter_matchesAt {T : List Entry} (hT : ∀ e ∈ T, e.legal) (Q : List Byte) (pos : Nat) :
    T.filter (Entry.matchesAt Q (8 * Q.length) pos) = matchesOf T ((unpack Q).drop pos) :=
  List.filter_congr fun e he => by
    rw [Bool.eq_iff_iff, decide_eq_true_iff]
    exact e.matchesAt_iff Q pos (hT e he).1

/-- The scan emits the symbols of the entries picked (R174, R176). -/
theorem scan_of_picksUniquely {T : List Entry} (hT : ∀ e ∈ T, e.legal) {Q : List Byte} {E : List Entry}
    {rest : List Bool} {pos : Nat} (h : PicksUniquely T E ((unpack Q).drop pos) rest) :
    scan T Q (8 * Q.length) E.length pos = .ok (E.map Entry.sym) := by
  induction E generalizing pos with
  | nil => rfl
  | cons e E ih =>
    obtain ⟨hpick, hrest⟩ := h
    rw [List.drop_drop] at hrest
    rw [List.length_cons, scan, filter_matchesAt hT, hpick]
    simp only [ih hrest, List.map_cons]

/-- The seven bytes of the header before its entries (R100 to R103). -/
def sourceFixed (T : List Entry) (slen : Nat) : List Byte :=
  u16le (7 + (tableBytes T).length) ++ u8 (T.length - 1) ++ u32le slen

@[simp] theorem length_sourceFixed (T : List Entry) (slen : Nat) : (sourceFixed T slen).length = 7 := rfl

theorem sourceFile_eq (T : List Entry) (slen : Nat) (Q : List Byte) :
    sourceFile T slen Q = sourceFixed T slen ++ (tableBytes T ++ Q) := by
  simp [sourceFile, sourceFixed, tableBytes]

theorem length_sourceFile (T : List Entry) (slen : Nat) (Q : List Byte) :
    (sourceFile T slen Q).length = 7 + (tableBytes T).length + Q.length := by
  rw [sourceFile_eq, List.length_append, List.length_append, length_sourceFixed, Nat.add_assoc]

theorem headerSizeField_sourceFile {T : List Entry} (hT : ∀ e ∈ T, e.legal) (hk : T.length ≤ 256) (slen : Nat)
    (Q : List Byte) : headerSizeField (sourceFile T slen Q) = 7 + (tableBytes T).length := by
  have hle := length_tableBytes_le hT
  have hslice : slice (sourceFile T slen Q) 0 2 = u16le (7 + (tableBytes T).length) := rfl
  rw [headerSizeField, hslice]
  exact fromLE_leBytes _ 2 (by omega)

theorem entryCountField_sourceFile {T : List Entry} (hpos : 1 ≤ T.length) (hk : T.length ≤ 256) (slen : Nat)
    (Q : List Byte) : entryCountField (sourceFile T slen Q) = T.length := by
  have hbyte : (sourceFile T slen Q).getD 2 0 = BitVec.ofNat 8 (T.length - 1) := rfl
  rw [entryCountField, hbyte, BitVec.toNat_ofNat]
  omega

theorem sourceLenField_sourceFile (T : List Entry) {slen : Nat} (hlt : slen < 2 ^ 32) (Q : List Byte) :
    sourceLenField (sourceFile T slen Q) = slen := by
  have hslice : slice (sourceFile T slen Q) 3 4 = u32le slen := rfl
  rw [sourceLenField, hslice]
  exact fromLE_leBytes slen 4 (by omega)

/-- The table of a well-formed file is read whole, and the scan begins (R170, R172, R173). -/
theorem sdecOutcome_sourceFile {T : List Entry} (hT : ∀ e ∈ T, e.legal) (hpos : 1 ≤ T.length) (hk : T.length ≤ 256)
    (slen : Nat) (Q : List Byte) :
    sdecOutcome (sourceFile T slen Q) (sourceFile T slen Q).length =
      sdecWith (sourceFile T slen Q) (sourceFile T slen Q).length T (7 + (tableBytes T).length) := by
  have hlen := length_sourceFile T slen Q
  have hparse := parseEntries_tableBytes hT (sourceFixed T slen) Q
  rw [← sourceFile_eq, length_sourceFixed] at hparse
  rw [sdecOutcome, if_neg (by omega), if_neg (by simp only [Config.srcHeaderFixed]; omega),
    entryCountField_sourceFile hpos hk, Config.srcHeaderFixed, hparse]

/-- SDEC of a well-formed file whose payload the table picks uniquely (R176, R181, R182). -/
theorem sdecOutcome_of_picksUniquely {T : List Entry} (hT : ∀ e ∈ T, e.legal) (hpos : 1 ≤ T.length)
    (hk : T.length ≤ 256) {E : List Entry} (hlt : E.length < 2 ^ 32) {Q : List Byte} {rest : List Bool}
    (hpick : PicksUniquely T E (unpack Q) rest) :
    sdecOutcome (sourceFile T E.length Q) (sourceFile T E.length Q).length =
      .ok { bytes := E.map Entry.sym, srcLen := E.length, payloadLen := Q.length } := by
  have hdrop : (sourceFile T E.length Q).drop (7 + (tableBytes T).length) = Q := by
    rw [sourceFile_eq, ← List.append_assoc]
    exact List.drop_left' (by simp)
  have hpayload : (sourceFile T E.length Q).length - (7 + (tableBytes T).length) = Q.length := by
    rw [length_sourceFile]
    omega
  have hscan : scan T Q (8 * Q.length) E.length 0 = .ok (E.map Entry.sym) := scan_of_picksUniquely hT hpick
  rw [sdecOutcome_sourceFile hT hpos hk, sdecWith, headerSizeField_sourceFile hT hk, if_neg (not_not.mpr rfl), hdrop,
    hpayload, sourceLenField_sourceFile T hlt, hscan]

end Sys2Proof.Machine
end

section
/-! SDEC undoes SENC (R160): a Codebook's entries are a legal table, and at every position of the payload the entry of the
byte encoded there is the only one that matches, no codeword being the beginning of another (R139). -/

namespace Sys2Proof.Machine

/-- An entry of a Codebook as a row of the table (R172). -/
def Entry.ofPair (e : Symbol × Codeword) : Entry := { sym := e.1, len := e.2.len, val := e.2.val }

/-- The table that a Codebook's entries are read back as (R105, R172). -/
def Codebook.rows (cb : Codebook) : List Entry := cb.map Entry.ofPair

/-- The row of a symbol that has a Codeword. -/
def Codebook.row (cb : Codebook) (s : Symbol) : Entry := Entry.ofPair (s, cb.codeword s)

@[simp] theorem Codebook.length_rows (cb : Codebook) : cb.rows.length = cb.length := List.length_map _

@[simp] theorem Codebook.tableBytes_rows (cb : Codebook) : tableBytes cb.rows = serialize cb := by
  rw [tableBytes, Codebook.rows, List.map_map]
  exact congrArg serialize (List.map_id cb)

theorem Codebook.row_mem_rows {cb : Codebook} {s : Symbol} (h : s ∈ cb.map Prod.fst) : cb.row s ∈ cb.rows :=
  List.mem_map_of_mem (Codebook.mem_codeword h)

theorem Codebook.nodup_rows {cb : Codebook} (h : (cb.map Prod.fst).Nodup) : cb.rows.Nodup :=
  List.Nodup.of_map Entry.sym (by simpa [Codebook.rows, Entry.ofPair, Function.comp_def] using h)

theorem legal_of_codebook {w : Symbol → Nat} {cb : Codebook} (h : codebook w = .ok cb) : ∀ e ∈ cb.rows, e.legal :=
  List.forall_mem_map.mpr (codebook_codeword h)

/-- The file SENC writes is the SourceCodecFile of the Codebook's rows (R156, R158). -/
theorem sencResult_bytes_eq_sourceFile (padBit : Bool) (cb : Codebook) (S : List Byte) (m : Nat) :
    (sencResult padBit cb S m).bytes = sourceFile cb.rows m (pack (sourceBits cb S) padBit) := by
  simp [sencResult, sourceHeader, sourceFile_eq, sourceFixed, Config.srcHeaderFixed]

@[simp] theorem Entry.length_bits (e : Entry) : e.bits.length = e.len := length_cwBits _ _

/-- A codeword that begins another stands at the front of the other's value (R139). -/
theorem val_div_of_bits_isPrefix {d e : Entry} (hd : d.legal) (he : e.legal) (h : d.bits <+: e.bits) :
    d.len ≤ e.len ∧ e.val / 2 ^ (e.len - d.len) = d.val := by
  obtain ⟨q, hq⟩ := h
  obtain ⟨-, -, hdval⟩ := hd
  obtain ⟨-, -, heval⟩ := he
  have hlen : d.len + q.length = e.len := by simpa using congrArg List.length hq
  have hval : d.val * 2 ^ q.length + bitsVal q = e.val := by
    rw [← bitsVal_cwBits d.len d.val hdval, ← bitsVal_append, ← bitsVal_cwBits e.len e.val heval]
    exact congrArg bitsVal hq
  refine ⟨by omega, ?_⟩
  rw [show e.len - d.len = q.length by omega, ← hval, Nat.mul_comm, Nat.mul_add_div (by positivity),
    Nat.div_eq_of_lt (bitsVal_lt q), Nat.add_zero]

/-- No row's bits begin another's (R139). -/
theorem eq_of_bits_isPrefix {w : Symbol → Nat} {cb : Codebook} (hcb : codebook w = .ok cb) {d e : Entry}
    (hd : d ∈ cb.rows) (he : e ∈ cb.rows) (h : d.bits <+: e.bits) : d = e := by
  obtain ⟨hlen, hval⟩ := val_div_of_bits_isPrefix (legal_of_codebook hcb d hd) (legal_of_codebook hcb e he) h
  obtain ⟨hnodup, hfree⟩ := codebookIsPrefixFree w cb hcb
  obtain ⟨p, hp, rfl⟩ := List.mem_map.mp hd
  obtain ⟨q, hq, rfl⟩ := List.mem_map.mp he
  have hsym : p.1 = q.1 := by_contra fun hne => hfree p hp q hq hne hlen hval
  rw [List.inj_on_of_nodup_map hnodup hp hq hsym]

/-- The row whose bits come next is the only match (R178). -/
theorem matchesOf_rows {w : Symbol → Nat} {cb : Codebook} (hcb : codebook w = .ok cb) {e : Entry} (he : e ∈ cb.rows)
    (stream : List Bool) : matchesOf cb.rows (e.bits ++ stream) = [e] := by
  have honly : ∀ d ∈ cb.rows, decide (d.bits <+: e.bits ++ stream) = (d == e) := fun d hd => by
    rw [Bool.eq_iff_iff, decide_eq_true_iff, beq_iff_eq]
    refine ⟨fun h => ?_, fun h => h ▸ List.prefix_append _ _⟩
    obtain hde | hed := List.prefix_or_prefix_of_prefix h (List.prefix_append e.bits stream)
    · exact eq_of_bits_isPrefix hcb hd he hde
    · exact (eq_of_bits_isPrefix hcb he hd hed).symm
  rw [matchesOf, List.filter_congr honly, List.filter_beq,
    List.count_eq_one_of_mem (Codebook.nodup_rows (nodup_codebook_symbols hcb)) he, List.replicate_one]

/-- The rows of the source bytes are picked from their bits in turn (R160). -/
theorem picksUniquely_flatMap_bits {w : Symbol → Nat} {cb : Codebook} (hcb : codebook w = .ok cb) {S : List Byte}
    (hS : ∀ b ∈ S, b ∈ cb.map Prod.fst) (rest : List Bool) :
    PicksUniquely cb.rows (S.map cb.row) ((S.flatMap fun b => (cb.row b).bits) ++ rest) rest := by
  induction S with
  | nil => rfl
  | cons b S ih =>
    have hdrop : ∀ stream, ((cb.row b).bits ++ stream).drop (cb.row b).len = stream := fun stream =>
      List.drop_left' (Entry.length_bits _)
    rw [List.flatMap_cons, List.append_assoc]
    refine ⟨matchesOf_rows hcb (Codebook.row_mem_rows (hS b List.mem_cons_self)) _, ?_⟩
    rw [hdrop]
    exact ih fun b hb => hS b (List.mem_cons_of_mem _ hb)

/-- SDEC of the file of a source gives the source (R160). -/
theorem sdecOutcome_sencResult (padBit : Bool) {w : Symbol → Nat} {cb : Codebook} (hcb : codebook w = .ok cb)
    {S : List Byte} (hS : ∀ b ∈ S, b ∈ cb.map Prod.fst) (hlt : S.length < 2 ^ 32) :
    sdecOutcome (sencResult padBit cb S S.length).bytes (sencResult padBit cb S S.length).bytes.length =
      .ok { bytes := S, srcLen := S.length, payloadLen := (sencResult padBit cb S S.length).payloadLen } := by
  have hbits : sourceBits cb S = S.flatMap fun b => (cb.row b).bits := sourceBits_of_coded hS
  have hpick := picksUniquely_flatMap_bits hcb hS
    (List.replicate (8 * (pack (sourceBits cb S) padBit).length - (sourceBits cb S).length) padBit)
  rw [← hbits, ← unpack_pack_fill] at hpick
  obtain ⟨-, hcount⟩ := codebookCoversThePositiveSymbols w
  obtain ⟨-, -, hpos, hk⟩ := hcount cb hcb
  have hdec := sdecOutcome_of_picksUniquely (legal_of_codebook hcb) (by simpa using hpos) (by simpa using hk)
    (by simpa using hlt) hpick
  have hsyms : (S.map cb.row).map Entry.sym = S := by simp [Codebook.row, Entry.ofPair, Function.comp_def]
  rw [List.length_map, hsyms] at hdec
  rw [sencResult_bytes_eq_sourceFile]
  exact hdec

theorem inputTest_eq_ok {s : State} {o : CmdOutcome} {r : Result} (h : inputTest s o = .ok r) : o = .ok r := by
  cases hcap : overCap s.params.inCap s.inLen.toNat with
  | false => rwa [inputTest_fits s o hcap] at h
  | true =>
    rw [inputTest_over s o hcap] at h
    nomatch h

/-- What SENC ends DONE with SDEC decodes to the source (R160), the empty file to the empty source (R171). -/
theorem sdecOutcome_of_senc {s : State} {r : Result} (h : outcomeOf .senc s = .ok r) :
    sdecOutcome r.bytes r.bytes.length =
      .ok { bytes := s.inBytes, srcLen := s.inLen.toNat, payloadLen := r.payloadLen } := by
  obtain ⟨hempty, rfl⟩ | ⟨-, hlt, cb, hcb, hS, rfl⟩ := sencOutcome_ok_cases (inputTest_eq_ok h)
  · have hS : s.inBytes = [] := List.eq_nil_of_length_eq_zero (s.length_inBytes.trans hempty)
    rw [hS, hempty]
    rfl
  · rw [← s.length_inBytes] at hlt ⊢
    exact sdecOutcome_sencResult _ hcb hS hlt

/-- Settles O42: OUT holds SENC's result whole, and SDEC's outcome on it is the source. -/
theorem sourceCodecRoundTrips : Obligations.SourceCodecRoundTrips := by
  intro s t u hexec hdone hlen hbytes hfits hroom
  obtain ⟨r, hr, rfl, -⟩ := result_of_done hexec hdone
  obtain ⟨hlt, hsrc, hpay⟩ := outcomeOf_bound .senc s r hr
  have hends := s.complete_ends r hlt hsrc hpay
  have hout : outcomeOf .sdec u = .ok { bytes := s.inBytes, srcLen := s.inLen.toNat, payloadLen := r.payloadLen } := by
    rw [← sdecOutcome_of_senc hr, ← hends.outBytes, ← hbytes, u.length_inBytes]
    exact inputTest_fits u _ hfits
  rw [hends.payloadLen]
  exact ⟨_, exec_of_result hout (by simpa using hroom)⟩

end Sys2Proof.Machine
end

section
/-! SDEC of a file with a well-formed header (R171, R174, R176 to R182): the scan as a whole, with the position and the
cause at which it stops, and the zero bytes that are no file. -/

namespace Sys2Proof.Machine

theorem outcomeOf_sdec {s : State} (h : overCap s.params.inCap s.inLen.toNat = false) :
    outcomeOf .sdec s = sdecOutcome s.inBytes s.inBytes.length := by
  rw [s.length_inBytes]
  exact inputTest_fits s _ h

/-- No capacity is below a length of 0. -/
theorem outcomeOf_sdec_of_empty {s : State} (h : s.inLen = 0) :
    outcomeOf .sdec s = .ok { bytes := [], srcLen := 0, payloadLen := 0 } := by
  rw [outcomeOf_sdec (by simp [h]), s.length_inBytes, h]
  rfl

/-- Settles O43: the empty result fits every OUT. -/
theorem sdecOfTheEmptyFileIsEmpty : Obligations.SdecOfTheEmptyFileIsEmpty := fun _ hempty =>
  ⟨_, exec_of_result (outcomeOf_sdec_of_empty hempty) (overCap_zero _)⟩

/-- Settles O44: the scan reads no bit after the last codeword, so nothing is asked of them. -/
theorem sdecDecodesByMatching : Obligations.SdecDecodesByMatching := by
  rintro s T E _ Q rest hbytes hT hpos hk hlt hpick rfl hfits hroom
  have hout := outcomeOf_sdec hfits
  rw [hbytes, sdecOutcome_of_picksUniquely hT hpos hk hlt hpick] at hout
  exact ⟨_, exec_of_result hout (by simpa using hroom)⟩

/-- What SDEC comes to on a file with a well-formed header is what the scan of its payload comes to (R176, R182). -/
theorem sdecOutcome_sourceFile_eq_map_scan {T : List Entry} (hT : ∀ e ∈ T, e.legal) (hpos : 1 ≤ T.length)
    (hk : T.length ≤ 256) {slen : Nat} (hlt : slen < 2 ^ 32) (Q : List Byte) :
    sdecOutcome (sourceFile T slen Q) (sourceFile T slen Q).length =
      (scan T Q (8 * Q.length) slen 0).map fun D => { bytes := D, srcLen := slen, payloadLen := Q.length } := by
  have hdrop : (sourceFile T slen Q).drop (7 + (tableBytes T).length) = Q := by
    rw [sourceFile_eq, ← List.append_assoc]
    exact List.drop_left' (by simp)
  have hpayload : (sourceFile T slen Q).length - (7 + (tableBytes T).length) = Q.length := by
    rw [length_sourceFile]
    omega
  rw [sdecOutcome_sourceFile hT hpos hk, sdecWith, headerSizeField_sourceFile hT hk, if_neg (not_not.mpr rfl), hdrop,
    hpayload, sourceLenField_sourceFile T hlt]
  cases scan T Q (8 * Q.length) slen 0 <;> rfl

section
variable {T : List Entry} (hT : ∀ e ∈ T, e.legal) {Q : List Byte}
include hT

/-- No entry's bits come next (R177). -/
theorem scan_of_noMatch {pos : Nat} (h : matchesOf T ((unpack Q).drop pos) = []) (n : Nat) :
    scan T Q (8 * Q.length) (n + 1) pos = raise .noMatch pos := by
  rw [scan, filter_matchesAt hT, h]

/-- The bits of two entries or more come next (R178). -/
theorem scan_of_ambiguousMatch {pos : Nat} (h : 2 ≤ (matchesOf T ((unpack Q).drop pos)).length) (n : Nat) :
    scan T Q (8 * Q.length) (n + 1) pos = raise .ambiguousMatch pos := by
  rw [scan, filter_matchesAt hT]
  match matchesOf T ((unpack Q).drop pos), h with
  | _ :: _ :: _, _ => rfl

/-- A scan that picks `E` and then fails, whatever is still to be emitted, fails with the bits `E` consumed (R177,
R178). -/
theorem scan_raise_of_picksUniquely {E : List Entry} {rest : List Bool} {c : Cause}
    (hstop : ∀ pos n, (unpack Q).drop pos = rest → scan T Q (8 * Q.length) (n + 1) pos = raise c pos)
    {pos : Nat} (hpick : PicksUniquely T E ((unpack Q).drop pos) rest) {slen : Nat} (hlt : E.length < slen) :
    scan T Q (8 * Q.length) slen pos = raise c (pos + (E.map Entry.len).sum) := by
  obtain ⟨n, rfl⟩ := Nat.exists_eq_add_of_lt hlt
  clear hlt
  induction E generalizing pos with
  | nil => simpa using hstop pos n hpick
  | cons e E ih =>
    obtain ⟨hmatch, hrest⟩ := hpick
    rw [List.drop_drop] at hrest
    rw [List.length_cons, Nat.add_right_comm E.length 1 n, scan, filter_matchesAt hT, hmatch,
      List.map_cons, List.sum_cons, ← Nat.add_assoc]
    simp only [ih hrest, raise]

end

/-- Settles O45: the entries picked before are the bits consumed, and the file's scan begins at position 0. -/
theorem sdecReportsNoMatchAndAmbiguity : Obligations.SdecReportsNoMatchAndAmbiguity := by
  intro s T E slen Q rest hbytes hT hpos hk hlt hpick hmore hfits
  have hraise : ∀ {c}, (∀ pos n, (unpack Q).drop pos = rest → scan T Q (8 * Q.length) (n + 1) pos = raise c pos) →
      outcomeOf .sdec s = raise c (E.map Entry.len).sum := fun hstop => by
    rw [outcomeOf_sdec hfits, hbytes, sdecOutcome_sourceFile_eq_map_scan hT hpos hk hlt,
      scan_raise_of_picksUniquely hT hstop hpick hmore, Nat.zero_add]
    rfl
  refine ⟨fun hnone => exec_of_raise (hraise ?_), fun htwo => exec_of_raise (hraise ?_)⟩
  · rintro pos n rfl
    exact scan_of_noMatch hT hnone n
  · rintro pos n rfl
    exact scan_of_ambiguousMatch hT htwo n

end Sys2Proof.Machine
end

section
/-! SDEC on a malformed header (R170, R173, R175): the tests of the entry at an offset, the entries before it, and the
offset at which they end. -/

namespace Sys2Proof.Machine

section
variable (pre : List Byte) (sym : Symbol) (L : Byte) (more : List Byte)

/-- The length byte of the entry that stands after `pre` (R104). -/
theorem entryLenAt_append : entryLenAt (pre ++ sym :: L :: more) pre.length = L.toNat := by
  rw [entryLenAt, List.getD_append_right _ _ _ _ (by omega), Nat.add_sub_cancel_left]
  rfl

/-- The word of the entry that stands after `pre` (R104, R172). -/
theorem entryValAt_append :
    entryValAt (pre ++ sym :: L :: more) pre.length = fromLE (more.take (ceil8 L.toNat)) := by
  rw [entryValAt, entryLenAt_append, slice, List.drop_length_add_append]
  rfl

theorem entryEndAt_append : entryEndAt (pre ++ sym :: L :: more) pre.length = pre.length + 2 + ceil8 L.toNat := by
  rw [entryEndAt, entryLenAt_append]

theorem length_append_entry : (pre ++ sym :: L :: more).length = pre.length + 2 + more.length := by
  simp only [List.length_append, List.length_cons]
  omega

variable (n : Nat)

/-- No room for an entry's first two bytes (R175). -/
theorem parseEntries_of_short_tail {tail : List Byte} (h : tail.length < 2) :
    parseEntries (pre ++ tail) (pre ++ tail).length (n + 1) pre.length = raise .headerTruncated pre.length := by
  rw [parseEntries, if_pos (by rw [List.length_append]; omega)]

/-- An entry whose length byte is 0 (R175), whatever follows it. -/
theorem parseEntries_of_length_zero :
    parseEntries (pre ++ sym :: 0 :: more) (pre ++ sym :: 0 :: more).length (n + 1) pre.length =
      raise .zeroLengthCodeword pre.length := by
  rw [parseEntries, if_neg (by rw [length_append_entry]; omega), entryLenAt_append]
  exact if_pos rfl

variable {L more} (hL : L ≠ 0)
include hL

/-- No room for an entry's word (R175). -/
theorem parseEntries_of_short_word (hshort : more.length < ceil8 L.toNat) :
    parseEntries (pre ++ sym :: L :: more) (pre ++ sym :: L :: more).length (n + 1) pre.length =
      raise .headerTruncated pre.length := by
  have hpos : L.toNat ≠ 0 := BitVec.toNat_ne.mp hL
  rw [parseEntries, length_append_entry, if_neg (by omega), entryLenAt_append, if_neg hpos, entryEndAt_append,
    if_pos (by omega)]

/-- The word has more bits than its length says (R175). -/
theorem parseEntries_of_word_out_of_range (hroom : ceil8 L.toNat ≤ more.length)
    (hval : 2 ^ L.toNat ≤ fromLE (more.take (ceil8 L.toNat))) :
    parseEntries (pre ++ sym :: L :: more) (pre ++ sym :: L :: more).length (n + 1) pre.length =
      raise .wordOutOfRange pre.length := by
  have hpos : L.toNat ≠ 0 := BitVec.toNat_ne.mp hL
  rw [parseEntries, length_append_entry, if_neg (by omega), entryLenAt_append, if_neg hpos, entryEndAt_append,
    if_neg (by omega), entryValAt_append, if_pos hval]

end

/-- The legal entries before a malformed one are read, and its error is the table's (R170). -/
theorem parseEntries_tableBytes_error {T : List Entry} (hT : ∀ e ∈ T, e.legal) (pre tail : List Byte) {n : Nat}
    {err : CmdError}
    (herr : parseEntries (pre ++ tableBytes T ++ tail) (pre ++ tableBytes T ++ tail).length n
      (pre ++ tableBytes T).length = .error err) :
    parseEntries (pre ++ tableBytes T ++ tail) (pre ++ tableBytes T ++ tail).length (T.length + n) pre.length =
      .error err := by
  induction T generalizing pre with
  | nil => simpa [tableBytes, serialize] using herr
  | cons e T ih =>
    rw [tableBytes_cons, ← List.append_assoc] at herr ⊢
    rw [List.length_cons, Nat.add_right_comm T.length 1 n,
      parseEntries_cons pre (tableBytes T ++ tail) e (hT e List.mem_cons_self) _ _ (by simp),
      ih (fun e he => hT e (List.mem_cons_of_mem _ he)) _ herr]

section
variable {H : List Byte} (hH : H.length = 7)
include hH

theorem entryCountField_append (B : List Byte) : entryCountField (H ++ B) = (H.getD 2 0).toNat + 1 := by
  rw [entryCountField, List.getD_append _ _ _ _ (by omega)]

theorem headerSizeField_append (B : List Byte) :
    headerSizeField (H ++ B) = (H.getD 0 0).toNat + 256 * (H.getD 1 0).toNat :=
  match H, hH with
  | [_, _, _, _, _, _, _], _ => rfl

/-- A file that holds the fixed part of the header comes to what reading its table comes to (R170). -/
theorem sdecOutcome_append (B : List Byte) :
    sdecOutcome (H ++ B) (H ++ B).length =
      (parseEntries (H ++ B) (H ++ B).length ((H.getD 2 0).toNat + 1) H.length).bind fun t =>
        sdecWith (H ++ B) (H ++ B).length t.1 t.2 := by
  have hlen : (H ++ B).length = 7 + B.length := by rw [List.length_append, hH]
  rw [sdecOutcome, if_neg (by omega), if_neg (by simp only [Config.srcHeaderFixed]; omega),
    entryCountField_append hH, Config.srcHeaderFixed, hH]
  cases parseEntries (H ++ B) (H ++ B).length ((H.getD 2 0).toNat + 1) 7 <;> rfl

variable {T : List Entry} (hT : ∀ e ∈ T, e.legal) (tail : List Byte)
include hT

/-- The error of the entry after `T`, when one is to come, is the command's (R170, R175). -/
theorem sdecOutcome_of_malformed_entry {err : CmdError} (hmore : T.length < (H.getD 2 0).toNat + 1)
    (herr : ∀ n, parseEntries (H ++ tableBytes T ++ tail) (H ++ tableBytes T ++ tail).length (n + 1)
      (H ++ tableBytes T).length = .error err) :
    sdecOutcome (H ++ tableBytes T ++ tail) (H ++ tableBytes T ++ tail).length = .error err := by
  obtain ⟨n, hn⟩ := Nat.exists_eq_add_of_lt hmore
  have hparse := parseEntries_tableBytes_error hT H tail (herr n)
  rw [List.append_assoc] at hparse ⊢
  rw [sdecOutcome_append hH, hn, Nat.add_assoc, hparse]
  rfl

/-- The entries end elsewhere than header_size says (R173). -/
theorem sdecOutcome_of_headerSize_ne (hcount : T.length = (H.getD 2 0).toNat + 1)
    (hsize : 7 + (tableBytes T).length ≠ (H.getD 0 0).toNat + 256 * (H.getD 1 0).toNat) :
    sdecOutcome (H ++ tableBytes T ++ tail) (H ++ tableBytes T ++ tail).length =
      raise .headerSizeMismatch (7 + (tableBytes T).length) := by
  rw [List.append_assoc, sdecOutcome_append hH, ← hcount, parseEntries_tableBytes hT, hH]
  exact if_pos (by rwa [headerSizeField_append hH])

end

/-- Fewer bytes than the fixed part of the header (R170). -/
theorem sdecOutcome_of_short (F : List Byte) {m : Nat} (hpos : 1 ≤ m) (hshort : m < 7) :
    sdecOutcome F m = raise .headerTruncated 0 := by
  rw [sdecOutcome, if_neg (by omega)]
  exact if_pos hshort

/-- Settles O46: the tests of an entry in their order, then the test of header_size. -/
theorem sdecReportsMalformedHeaders : Obligations.SdecReportsMalformedHeaders := by
  intro s hfits
  have hout := outcomeOf_sdec hfits
  refine ⟨fun hpos hshort => exec_of_raise ?_, ?_⟩
  · rw [← s.length_inBytes] at hpos hshort
    rw [hout, sdecOutcome_of_short _ hpos hshort]
  rintro H T tail _ _ hH rfl hT hbytes rfl
  change s.inBytes = H ++ tableBytes T ++ tail at hbytes
  have hp : (H ++ tableBytes T).length = 7 + (tableBytes T).length := by rw [List.length_append, hH]
  have hentry : ∀ {c}, T.length < (H.getD 2 0).toNat + 1 →
      (∀ n, parseEntries (H ++ tableBytes T ++ tail) (H ++ tableBytes T ++ tail).length (n + 1)
        (H ++ tableBytes T).length = raise c (H ++ tableBytes T).length) →
      ∃ t, exec .sdec s = .next t ∧ EndsWithError c (7 + (tableBytes T).length) s t := fun hmore herr =>
    exec_of_raise (by rw [hout, hbytes, sdecOutcome_of_malformed_entry hH hT tail hmore herr, hp]; rfl)
  refine ⟨fun hmore hshort => hentry hmore fun n => parseEntries_of_short_tail _ n hshort, ?_, ?_, ?_, ?_⟩
  · rintro sym more hmore rfl
    exact hentry hmore (parseEntries_of_length_zero _ sym more)
  · rintro sym L more hmore rfl hL hshort
    exact hentry hmore fun n => parseEntries_of_short_word _ sym n hL hshort
  · rintro sym L more hmore rfl hL hroom hval
    exact hentry hmore fun n => parseEntries_of_word_out_of_range _ sym n hL hroom hval
  · intro hcount hsize
    exact exec_of_raise (by rw [hout, hbytes]; exact sdecOutcome_of_headerSize_ne hH hT tail hcount hsize)

end Sys2Proof.Machine
end

section
/-! RENC (R190 to R195): its outcome in each case, the file it writes, and the bits of the payload. -/

namespace Sys2Proof.Machine

/-- The bytes of the length field, the byte of greatest weight first (R63, R114). -/
theorem u32be_eq (v : Nat) :
    u32be v =
      [BitVec.ofNat 8 (v / 2 ^ 24), BitVec.ofNat 8 (v / 2 ^ 16), BitVec.ofNat 8 (v / 2 ^ 8), BitVec.ofNat 8 v] := by
  simp [u32be, leBytes, Nat.div_div_eq_div_mul]

/-- A RepetitionCodecFile with the header's fields `n` and `slen` and the payload `Q` (R112 to R115). -/
def repFile (n slen : Nat) (Q : List Byte) : List Byte := u8 n ++ u32be slen ++ Q

@[simp] theorem length_repFile (n slen : Nat) (Q : List Byte) : (repFile n slen Q).length = 5 + Q.length := by
  simp [repFile]
  omega

theorem repFile_eq (n slen : Nat) (Q : List Byte) :
    repFile n slen Q = [BitVec.ofNat 8 n, BitVec.ofNat 8 (slen / 2 ^ 24), BitVec.ofNat 8 (slen / 2 ^ 16),
      BitVec.ofNat 8 (slen / 2 ^ 8), BitVec.ofNat 8 slen] ++ Q := by
  rw [repFile, u32be_eq]
  rfl

/-- What RENC ends with when the factor is legal and the source not too long (R195). -/
def rencResult (n : Nat) (S : List Byte) (m : Nat) : Result where
  bytes := repFile n m (repPayload n S)
  srcLen := m
  payloadLen := (repPayload n S).length

theorem rencOutcome_of_badFactor {n : Nat} (h : badFactor n = true) (S : List Byte) (m : Nat) :
    rencOutcome n S m = raise .badRepetition n := if_pos h

theorem rencOutcome_of_long {n : Nat} (h : badFactor n = false) (S : List Byte) {m : Nat} (hm : 2 ^ 32 ≤ m) :
    rencOutcome n S m = raise .lengthOverflow m := by
  rw [rencOutcome, if_neg (by simp [h]), if_pos (by simp only [Config.maxSourceLen]; omega)]

theorem rencOutcome_of_legal {n : Nat} (h : badFactor n = false) (S : List Byte) {m : Nat} (hm : m < 2 ^ 32) :
    rencOutcome n S m = .ok (rencResult n S m) := by
  rw [rencOutcome, if_neg (by simp [h]), if_neg (by simp only [Config.maxSourceLen]; omega)]
  rfl

/-- When RENC has a result (R191, R192): with a legal factor and a source that is not too long. -/
theorem rencOutcome_ok {n : Nat} {S : List Byte} {m : Nat} {r : Result} (h : rencOutcome n S m = .ok r) :
    badFactor n = false ∧ m < 2 ^ 32 ∧ r = rencResult n S m := by
  cases hn : badFactor n with
  | true =>
    rw [rencOutcome_of_badFactor hn] at h
    nomatch h
  | false =>
    obtain hlong | hlt : 2 ^ 32 ≤ m ∨ m < 2 ^ 32 := by omega
    · rw [rencOutcome_of_long hn S hlong] at h
      nomatch h
    · rw [rencOutcome_of_legal hn S hlt] at h
      exact ⟨rfl, hlt, (Except.ok.inj h).symm⟩

theorem outcomeOf_renc (n : Nat) {s : State} (h : overCap s.params.inCap s.inLen.toNat = false) :
    outcomeOf (.renc n) s = rencOutcome n s.inBytes s.inLen.toNat :=
  inputTest_fits s _ h

/-- The payload needs no padding: it is `n` whole bytes a source byte (R194). -/
theorem unpack_repPayload (n : Nat) (S : List Byte) : unpack (repPayload n S) = repeatBits n (unpack S) := by
  have hpad : (8 - (repeatBits n (unpack S)).length % 8) % 8 = 0 := by
    rw [length_repeatBits, length_unpack, Nat.mul_left_comm]
    omega
  rw [repPayload, unpack_pack, hpad, List.replicate_zero, List.append_nil]

/-- Group `j` of the payload holds source bit `j` and nothing else (R193). -/
theorem bitAt_repPayload {n r : Nat} (hr : r < n) (S : List Byte) (j : Nat) :
    bitAt (repPayload n S) (n * j + r) = bitAt S j := by
  rw [← unpack_getD, unpack_repPayload, repeatBits_getD _ _ _ _ hr, unpack_getD]

/-- Settles O47: the payload packs every source bit `n` times, and `n` source bytes' worth of bits fill its bytes. -/
theorem rencRepeatsEveryBit : Obligations.RencRepeatsEveryBit := by
  intro s n hn hlt hfits hroom
  have hlen : (repPayload n s.inBytes).length = n * s.inLen.toNat := by rw [length_repPayload, s.length_inBytes]
  have hout : outcomeOf (.renc n) s = .ok (rencResult n s.inBytes s.inLen.toNat) := by
    rw [outcomeOf_renc n hfits, rencOutcome_of_legal (badFactor_eq_false.mpr hn) _ hlt]
  obtain ⟨hexec, hends⟩ := exec_of_result hout (by simpa only [rencResult, length_repFile, hlen] using hroom)
  refine ⟨_, repPayload n s.inBytes, hexec, ?_, hlen, fun j _ _ hr => bitAt_repPayload hr s.inBytes j⟩
  rw [← repFile_eq, ← hlen]
  exact hends

/-- Settles O48: the factor is tested before the length. -/
theorem rencRefusesBadFactorsAndLongSources : Obligations.RencRefusesBadFactorsAndLongSources := by
  refine fun s n hfits => ⟨fun h3 h5 h7 h9 => exec_of_raise ?_, fun hn hlong => exec_of_raise ?_⟩
  · have hbad : badFactor n = true := by
      rw [← Bool.not_eq_false, badFactor_eq_false]
      omega
    rw [outcomeOf_renc n hfits, rencOutcome_of_badFactor hbad]
  · rw [outcomeOf_renc n hfits, rencOutcome_of_long (badFactor_eq_false.mpr hn) _ hlong]

end Sys2Proof.Machine
end

section
/-! RDEC on a RepetitionCodecFile (R200 to R206), and what it makes of the file of RENC (R197). -/

namespace Sys2Proof.Machine

theorem outcomeOf_rdec {s : State} (h : overCap s.params.inCap s.inLen.toNat = false) :
    outcomeOf .rdec s = rdecOutcome s.inBytes s.inBytes.length := by
  rw [s.length_inBytes]
  exact inputTest_fits s _ h

theorem repFactorField_repFile {n : Nat} (hn : n < 256) (slen : Nat) (Q : List Byte) :
    repFactorField (repFile n slen Q) = n := Nat.mod_eq_of_lt hn

theorem repLenField_repFile (n : Nat) {slen : Nat} (hlt : slen < 2 ^ 32) (Q : List Byte) :
    repLenField (repFile n slen Q) = slen := fromBE_u32be slen hlt

/-- What RDEC ends with on a file with a legal header and enough payload (R206). -/
def rdecResult (n slen : Nat) (Q : List Byte) : Result where
  bytes := pack (decodedBits Q n slen) false
  srcLen := slen
  payloadLen := Q.length

@[simp] theorem length_decodedBits (Q : List Byte) (n slen : Nat) : (decodedBits Q n slen).length = 8 * slen := by
  simp [decodedBits]

@[simp] theorem length_rdecResult_bytes (n slen : Nat) (Q : List Byte) : (rdecResult n slen Q).bytes.length = slen := by
  simp only [rdecResult, length_pack, length_decodedBits, ceil8]
  omega

/-- RDEC finds no fault in a file with a legal factor and a payload of at least the bits the header asks for
(R201 to R203). -/
theorem rdecOutcome_repFile {n slen : Nat} {Q : List Byte} (hn : badFactor n = false) (hlt : slen < 2 ^ 32)
    (hroom : slen * n ≤ Q.length) :
    rdecOutcome (repFile n slen Q) (repFile n slen Q).length = .ok (rdecResult n slen Q) := by
  have hfactor : n < 256 := by
    have := badFactor_eq_false.mp hn
    omega
  have hpay : (repFile n slen Q).length - Config.repHeaderLen = Q.length := by
    rw [length_repFile, Config.repHeaderLen, Nat.add_sub_cancel_left]
  have hbits : ¬ 8 * Q.length < slen * 8 * n := by
    rw [Nat.mul_right_comm]
    omega
  have hheader : ¬ (repFile n slen Q).length < Config.repHeaderLen := by
    rw [length_repFile, Config.repHeaderLen]
    omega
  rw [rdecOutcome, if_neg hheader, repFactorField_repFile hfactor, repLenField_repFile n hlt, rdecWith,
    if_neg (by simp [hn]), hpay, if_neg hbits]
  rfl

/-- A group of `n` equal bits decodes to their value (R204). -/
theorem majority_of_constant {Q : List Byte} {n j : Nat} {b : Bool} (hn : 0 < n)
    (h : ∀ r < n, bitAt Q (n * j + r) = b) : majority Q n j = b := by
  have hcount : groupCount Q n j = (List.range n).countP fun _ => b :=
    List.countP_congr fun r hr => by rw [h r (List.mem_range.mp hr)]
  rw [majority, hcount]
  cases b with
  | false => simp
  | true => simpa using (by omega : n < 2 * n)

/-- RDEC's groups are RENC's, so each decodes to the source bit (R197). -/
theorem decodedBits_repPayload {n : Nat} (hn : 0 < n) (S : List Byte) :
    decodedBits (repPayload n S) n S.length = unpack S := by
  refine List.ext_getElem (by simp) fun j _ hj => ?_
  have hbit : majority (repPayload n S) n j = bitAt S j := majority_of_constant hn fun _ hr => bitAt_repPayload hr S j
  simp only [decodedBits, List.getElem_map, List.getElem_range, hbit]
  rw [← unpack_getD, List.getD_eq_getElem _ _ hj]

/-- RDEC on the file of RENC has the source as its result (R197). -/
theorem rdecOutcome_rencResult {n : Nat} (hn : badFactor n = false) {S : List Byte} (hlt : S.length < 2 ^ 32) :
    rdecOutcome (rencResult n S S.length).bytes (rencResult n S S.length).bytes.length =
      .ok { bytes := S, srcLen := S.length, payloadLen := (rencResult n S S.length).payloadLen } := by
  have hpos : 0 < n := by
    have := badFactor_eq_false.mp hn
    omega
  have hroom : S.length * n ≤ (repPayload n S).length := by rw [length_repPayload, Nat.mul_comm]
  rw [rencResult, rdecOutcome_repFile hn hlt hroom, rdecResult, decodedBits_repPayload hpos, pack_unpack]

/-- What RENC ends DONE with RDEC decodes to the source (R197). -/
theorem rdecOutcome_of_renc {n : Nat} {s : State} {r : Result} (h : outcomeOf (.renc n) s = .ok r) :
    rdecOutcome r.bytes r.bytes.length =
      .ok { bytes := s.inBytes, srcLen := s.inLen.toNat, payloadLen := r.payloadLen } := by
  obtain ⟨hn, hlt, rfl⟩ := rencOutcome_ok (inputTest_eq_ok h)
  rw [← s.length_inBytes] at hlt ⊢
  exact rdecOutcome_rencResult hn hlt

/-- Settles O51: OUT holds RENC's file whole, and RDEC's outcome on it is the source. -/
theorem repetitionCodecRoundTrips : Obligations.RepetitionCodecRoundTrips := by
  intro s t u n hexec hdone hlen hbytes hfits hroom
  obtain ⟨r, hr, rfl, -⟩ := result_of_done hexec hdone
  obtain ⟨hlt, hsrc, hpay⟩ := outcomeOf_bound (.renc n) s r hr
  have hends := s.complete_ends r hlt hsrc hpay
  have hout : outcomeOf .rdec u = .ok { bytes := s.inBytes, srcLen := s.inLen.toNat, payloadLen := r.payloadLen } := by
    rw [outcomeOf_rdec hfits, hbytes, hends.outBytes, rdecOutcome_of_renc hr]
  rw [hends.payloadLen]
  exact ⟨_, exec_of_result hout (by simpa using hroom)⟩

end Sys2Proof.Machine
end

section
/-! RDEC's three errors (R201 to R203), the majority in its result (R204), and how many flips of a group the majority
undoes (R207, R210). -/

namespace Sys2Proof.Machine

/-- Too short for a header (R201). -/
theorem rdecOutcome_of_short (F : List Byte) {m : Nat} (h : m < 5) : rdecOutcome F m = raise .missingHeader m :=
  if_pos h

/-- The big-endian length field as a sum (R63, R114). -/
theorem fromBE_four (b1 b2 b3 b4 : Byte) :
    fromBE [b1, b2, b3, b4] = b1.toNat * 2 ^ 24 + b2.toNat * 2 ^ 16 + b3.toNat * 2 ^ 8 + b4.toNat := by
  simp only [fromBE, fromLE, List.reverse_cons, List.reverse_nil, List.nil_append, List.cons_append]
  omega

/-- A file that holds a header comes to what its fields, whatever they are, come to (R200). -/
theorem rdecOutcome_header (b0 b1 b2 b3 b4 : Byte) (Q : List Byte) :
    rdecOutcome ([b0, b1, b2, b3, b4] ++ Q) ([b0, b1, b2, b3, b4] ++ Q).length =
      rdecWith ([b0, b1, b2, b3, b4] ++ Q) (5 + Q.length) b0.toNat (fromBE [b1, b2, b3, b4]) := by
  have hlen : ([b0, b1, b2, b3, b4] ++ Q).length = 5 + Q.length := by
    rw [List.length_append]
    rfl
  rw [hlen, rdecOutcome, if_neg (by simp only [Config.repHeaderLen]; omega)]
  rfl

theorem rdecWith_of_badFactor {n : Nat} (h : badFactor n = true) (F : List Byte) (m slen : Nat) :
    rdecWith F m n slen = raise .badRepetition n := if_pos h

/-- Fewer payload bits than the header asks for (R203). -/
theorem rdecWith_of_short_payload {n : Nat} (hn : badFactor n = false) (F : List Byte) {p slen : Nat}
    (h : 8 * p < slen * 8 * n) :
    rdecWith F (5 + p) n slen = raise .payloadHeaderMismatch (slen * 8 * n) := by
  rw [rdecWith, if_neg (by simp [hn]), if_pos (by rwa [Config.repHeaderLen, Nat.add_sub_cancel_left])]

/-- Settles O50: the tests in RDEC's order, each on the header's bytes. -/
theorem rdecRefusesBadFiles : Obligations.RdecRefusesBadFiles := by
  intro s hfits
  have hout := outcomeOf_rdec hfits
  refine ⟨fun hshort => exec_of_raise ?_, fun b0 b1 b2 b3 b4 Q hbytes => ?_⟩
  · rw [hout, s.length_inBytes, rdecOutcome_of_short _ hshort]
  rw [hbytes, rdecOutcome_header] at hout
  refine ⟨fun h3 h5 h7 h9 => exec_of_raise ?_, fun slen hn hslen hpayload => exec_of_raise ?_⟩
  · have hbad : badFactor b0.toNat = true := by
      rw [← Bool.not_eq_false, badFactor_eq_false]
      bv_omega
    rw [hout, rdecWith_of_badFactor hbad]
  · have hlegal : badFactor b0.toNat = false := badFactor_eq_false.mpr (by bv_omega)
    rw [← fromBE_four] at hslen
    rw [hout, ← hslen, rdecWith_of_short_payload hlegal _ hpayload]

/-- Each bit of the result is the majority of its group (R204). -/
theorem bitAt_rdecResult (n : Nat) {slen j : Nat} (hj : j < 8 * slen) (Q : List Byte) :
    bitAt (rdecResult n slen Q).bytes j = majority Q n j := by
  have hlen : j < (decodedBits Q n slen).length := by rwa [length_decodedBits]
  rw [rdecResult, bitAt_pack _ _ _ hlen, List.getD_eq_getElem _ _ hlen]
  simp [decodedBits]

/-- RDEC completes on a file with a legal header and enough payload (R206). -/
theorem exec_rdec_repFile {s : State} {n slen : Nat} {Q : List Byte} (hbytes : s.inBytes = repFile n slen Q)
    (hn : badFactor n = false) (hlt : slen < 2 ^ 32) (hpayload : slen * n ≤ Q.length)
    (hfits : overCap s.params.inCap s.inLen.toNat = false) (hroom : overCap s.params.outCap slen = false) :
    exec .rdec s = .next (s.complete (rdecResult n slen Q)) ∧
      EndsWithResult (rdecResult n slen Q).bytes slen Q.length s (s.complete (rdecResult n slen Q)) := by
  have hout : outcomeOf .rdec s = .ok (rdecResult n slen Q) := by
    rw [outcomeOf_rdec hfits, hbytes, rdecOutcome_repFile hn hlt hpayload]
  exact exec_of_result hout (by rwa [length_rdecResult_bytes])

/-- Settles O49: surplus payload is in no group. -/
theorem rdecTakesTheMajority : Obligations.RdecTakesTheMajority := by
  intro s n slen Q hn hlt hbytes hpayload hfits hroom
  rw [← repFile_eq] at hbytes
  obtain ⟨hexec, hends⟩ := exec_rdec_repFile hbytes (badFactor_eq_false.mpr hn) hlt hpayload hfits hroom
  refine ⟨_, _, hexec, hends, length_rdecResult_bytes n slen Q, fun j hj => ?_⟩
  rw [bitAt_rdecResult n hj, majority, decide_eq_true_iff, groupCount]

/-- In a group of equal bits `b` of which `f` are flipped the set bits are the flipped ones if `b` is 0, and the others
if it is 1; so the majority is `b` unless `f` exceeds `n/2` (R207). -/
theorem majority_eq_xor_flips {n j : Nat} {P Q : List Byte} {b : Bool} (hodd : n % 2 = 1)
    (h : ∀ r < n, bitAt P (n * j + r) = b) : majority Q n j = (b ^^ decide (n < 2 * groupFlips n j P Q)) := by
  have hflips : groupFlips n j P Q = (List.range n).countP fun r => b != bitAt Q (n * j + r) :=
    List.countP_congr fun r hr => by rw [h r (List.mem_range.mp hr)]
  cases b with
  | false =>
    have hcount : groupFlips n j P Q = groupCount Q n j := by simpa [groupCount] using hflips
    rw [majority, hcount, Bool.false_xor]
  | true =>
    have hsum : n = groupCount Q n j + groupFlips n j P Q := by
      simpa [hflips, groupCount] using
        List.length_eq_countP_add_countP (fun r => bitAt Q (n * j + r)) (l := List.range n)
    rw [majority, Bool.true_xor, ← decide_not, decide_eq_decide]
    omega

/-- The file of RENC with its payload replaced (R112). -/
theorem take_repFile_append (n slen : Nat) (P Q : List Byte) : (repFile n slen P).take 5 ++ Q = repFile n slen Q := by
  rw [repFile_eq, repFile_eq]
  rfl

theorem drop_repFile (n slen : Nat) (Q : List Byte) : (repFile n slen Q).drop 5 = Q := by
  rw [repFile_eq]
  rfl

/-- Settles O52: the groups of RENC's payload are constant, so the flips of each decide its majority. -/
theorem majorityCorrectsUpToHalf : Obligations.MajorityCorrectsUpToHalf := by
  intro s t u n P Q hexec hdone hP hbytes hlen hfits hroom
  obtain ⟨r, hr, rfl, -⟩ := result_of_done hexec hdone
  obtain ⟨hlt64, hsrc, hpay⟩ := outcomeOf_bound (.renc n) s r hr
  have hout := (s.complete_ends r hlt64 hsrc hpay).outBytes
  obtain ⟨hn, hlt, rfl⟩ := rencOutcome_ok (inputTest_eq_ok hr)
  rw [hout, rencResult, drop_repFile] at hP
  rw [hout, rencResult, take_repFile_append] at hbytes
  subst hP
  have hpayload : s.inLen.toNat * n ≤ Q.length := by
    rw [hlen, length_repPayload, s.length_inBytes, Nat.mul_comm]
  obtain ⟨hrdec, hends⟩ := exec_rdec_repFile hbytes hn hlt hpayload hfits hroom
  refine ⟨_, hrdec, hends.state, ?_, fun j hj => ?_⟩
  · exact BitVec.eq_of_toNat_eq (hends.outLen.trans (length_rdecResult_bytes _ _ _))
  have hodd : n % 2 = 1 := by
    have := badFactor_eq_false.mp hn
    omega
  rw [hends.outBytes, bitAt_rdecResult n hj,
    majority_eq_xor_flips hodd fun r hr => bitAt_repPayload hr s.inBytes j]
  refine ⟨fun hfew => ?_, fun hmany => ?_⟩
  · rw [decide_eq_false (by omega), Bool.xor_false]
  · rw [decide_eq_true (by omega), Bool.xor_true]

end Sys2Proof.Machine
end

section
/-! NOISE (R215 to R221): its outcome for each shape of the mask, and the laws of XOR on byte lists (R222). -/

namespace Sys2Proof.Machine

/-- What NOISE ends with when the mask is the bytes `Mb` (R220, R221). -/
def noiseResult (C Mb : List Byte) (c : Nat) : Result where
  bytes := xorBytes C Mb
  srcLen := c
  payloadLen := 0

theorem noiseOutcome_of_mask (C : List Byte) {K Mb : List Byte} {c q : Nat} (h : maskOutcome K c q = .ok Mb) :
    noiseOutcome C K c q = .ok (noiseResult C Mb c) := by
  rw [noiseOutcome, h]
  rfl

theorem noiseOutcome_of_badMask (C : List Byte) {K : List Byte} {c q info : Nat} {cause : Cause}
    (h : maskOutcome K c q = raise cause info) : noiseOutcome C K c q = raise cause info := by
  rw [noiseOutcome, h]
  rfl

/-- NOISE has a result only with a mask (R216, R217). -/
theorem noiseOutcome_ok {C K : List Byte} {c q : Nat} {r : Result} (h : noiseOutcome C K c q = .ok r) :
    ∃ Mb, maskOutcome K c q = .ok Mb ∧ r = noiseResult C Mb c := by
  cases hmask : maskOutcome K c q with
  | error e =>
    rw [noiseOutcome, hmask] at h
    nomatch h
  | ok Mb =>
    rw [noiseOutcome_of_mask C hmask] at h
    exact ⟨Mb, rfl, (Except.ok.inj h).symm⟩

/-! The shapes of a mask. -/

theorem maskOutcome_of_badElement {K : List Byte} {j : Nat} (h : firstBadElement K = some j) (c : Nat) :
    maskOutcome K c (8 * c) = raise .maskElement j := by
  rw [maskOutcome, if_pos rfl, h]

theorem maskOutcome_of_elements {K : List Byte} (h : firstBadElement K = none) (c : Nat) :
    maskOutcome K c (8 * c) = .ok (pack (maskBits K) false) := by
  rw [maskOutcome, if_pos rfl, h]

/-- Zero bytes are a mask of either shape, the empty one. -/
theorem maskOutcome_of_bytes (K : List Byte) : maskOutcome K K.length K.length = .ok K := by
  by_cases h : K.length = 8 * K.length
  · obtain rfl : K = [] := List.eq_nil_of_length_eq_zero (by omega)
    rfl
  · rw [maskOutcome, if_neg h, if_pos rfl]

theorem maskOutcome_of_shape (K : List Byte) {c q : Nat} (hbits : q ≠ 8 * c) (hbytes : q ≠ c) :
    maskOutcome K c q = raise .shapeMismatch q := by
  rw [maskOutcome, if_neg hbits, if_neg hbytes]

/-- When there is a mask (R216, R217): the packed elements, all of them bit-values, or the bytes themselves. -/
theorem maskOutcome_ok_cases {K Mb : List Byte} {c q : Nat} (h : maskOutcome K c q = .ok Mb) :
    (q = 8 * c ∧ Mb = pack (maskBits K) false) ∨ (q = c ∧ Mb = K) := by
  by_cases hbits : q = 8 * c
  · subst hbits
    cases hbad : firstBadElement K with
    | some j =>
      rw [maskOutcome_of_badElement hbad] at h
      nomatch h
    | none =>
      rw [maskOutcome_of_elements hbad] at h
      exact .inl ⟨rfl, (Except.ok.inj h).symm⟩
  by_cases hbytes : q = c
  · rw [maskOutcome, if_neg hbits, if_pos hbytes] at h
    exact .inr ⟨hbytes, (Except.ok.inj h).symm⟩
  · rw [maskOutcome_of_shape K hbits hbytes] at h
    nomatch h

@[simp] theorem length_maskBits (K : List Byte) : (maskBits K).length = K.length := by
  simp [maskBits]

/-- A mask has as many bytes as the input. -/
theorem length_of_maskOutcome {K Mb : List Byte} {c : Nat} (h : maskOutcome K c K.length = .ok Mb) : Mb.length = c := by
  obtain ⟨hlen, rfl⟩ | ⟨hlen, rfl⟩ := maskOutcome_ok_cases h
  · rw [length_pack, length_maskBits, hlen, ceil8]
    omega
  · exact hlen

theorem firstBadElement_eq_none {K : List Byte} (h : ∀ k ∈ K, k = 0 ∨ k = 1) : firstBadElement K = none := by
  refine List.findIdx?_eq_none_iff.mpr fun k hk => ?_
  obtain rfl | rfl := h k hk <;> rfl

theorem firstBadElement_eq_some {s : State} {j : Nat} (hj : j < s.maskLen.toNat) (hbad : 1 < (s.maskByte j).toNat)
    (hbits : ∀ i, i < j → (s.maskByte i).toNat ≤ 1) : firstBadElement s.maskBytes = some j := by
  refine List.findIdx?_eq_some_iff_getElem.mpr ⟨by simpa using hj, ?_, fun i hi => ?_⟩
  · simpa [State.maskBytes] using hbad
  · simpa [State.maskBytes] using hbits i hi

/-! XOR on byte lists. -/

@[simp] theorem length_xorBytes (C M : List Byte) : (xorBytes C M).length = min C.length M.length :=
  List.length_zipWith

/-- XOR of bytes is XOR of their stream bits. -/
theorem bitAt_xorBytes {C M : List Byte} (hlen : C.length = M.length) (j : Nat) :
    bitAt (xorBytes C M) j = (bitAt C j ^^ bitAt M j) := by
  rw [bitAt, xorBytes_getD _ _ _ hlen, BitVec.getLsbD_xor, bitAt, bitAt]

/-- The same mask twice returns the original bytes (R222). -/
theorem xorBytes_xorBytes {C M : List Byte} (hlen : C.length = M.length) : xorBytes (xorBytes C M) M = C := by
  refine List.ext_getElem (by simp [hlen]) fun i _ _ => ?_
  simp only [xorBytes, List.getElem_zipWith, BitVec.xor_assoc, BitVec.xor_self, BitVec.xor_zero]

theorem xorBytes_replicate (C : List Byte) (m : Byte) :
    xorBytes C (List.replicate C.length m) = C.map fun b => b ^^^ m := by
  refine List.ext_getElem (by simp) fun i _ _ => ?_
  simp only [xorBytes, List.getElem_zipWith, List.getElem_replicate, List.getElem_map]

/-- Elements that are all `b` pack to bytes whose bits are all `b`. -/
theorem pack_replicate {b : Bool} {m : Byte} (h : byteBits m = List.replicate 8 b) (c : Nat) (p : Bool) :
    pack (List.replicate (8 * c) b) p = List.replicate c m := by
  have hunpack : unpack (List.replicate c m) = List.replicate (8 * c) b := by
    rw [unpack, List.flatMap_replicate, h, List.flatten_replicate_replicate, Nat.mul_comm]
  rw [← hunpack, pack_unpack]

theorem maskBits_replicate (n : Nat) (k : Byte) : maskBits (List.replicate n k) = List.replicate n (decide (k = 1)) :=
  List.map_replicate

/-- An all-zero mask of either shape is zero bytes (R222). -/
theorem maskOutcome_of_zeros {K Mb : List Byte} {c : Nat} (h : maskOutcome K c K.length = .ok Mb)
    (hzero : ∀ k ∈ K, k = 0) : Mb = List.replicate c 0 := by
  have hK : K = List.replicate K.length 0 := List.eq_replicate_of_mem hzero
  obtain ⟨hlen, rfl⟩ | ⟨hlen, rfl⟩ := maskOutcome_ok_cases h
  · rw [hK, hlen, maskBits_replicate]
    exact pack_replicate rfl c false
  · rwa [hlen] at hK

/-- Elements that are all 1 are the mask of bytes 0xFF (R222). -/
theorem maskOutcome_of_ones {K : List Byte} {c : Nat} (hlen : K.length = 8 * c) (hone : ∀ k ∈ K, k = 1) :
    maskOutcome K c (8 * c) = .ok (List.replicate c 0xFF) := by
  have hK : K = List.replicate (8 * c) 1 := List.eq_replicate_iff.mpr ⟨hlen, hone⟩
  have hpack : pack (maskBits K) false = List.replicate c 0xFF := by
    rw [hK, maskBits_replicate]
    exact pack_replicate rfl c false
  rw [maskOutcome_of_elements (firstBadElement_eq_none fun k hk => .inr (hone k hk)), hpack]

end Sys2Proof.Machine
end

section
/-! NOISE from the state: masks of either shape (R216, R217, R220), its refusals (R218, R219) and its involution
(R222). -/

namespace Sys2Proof.Machine

theorem outcomeOf_noise {s : State} (hin : overCap s.params.inCap s.inLen.toNat = false)
    (hmask : overCap s.params.maskCap s.maskLen.toNat = false) :
    outcomeOf .noise s = noiseOutcome s.inBytes s.maskBytes s.inLen.toNat s.maskLen.toNat :=
  (inputTest_fits s _ hin).trans (maskTest_fits s _ hmask)

/-- A result passed both tests of the operands (R93). -/
theorem fits_of_outcomeOf_noise {s : State} {r : Result} (h : outcomeOf .noise s = .ok r) :
    overCap s.params.inCap s.inLen.toNat = false ∧ overCap s.params.maskCap s.maskLen.toNat = false := by
  constructor
  · refine Bool.eq_false_iff.mpr fun hover => ?_
    rw [outcomeOf_of_input_over (by simp) hover] at h
    nomatch h
  · refine Bool.eq_false_iff.mpr fun hover => ?_
    have hmask := inputTest_eq_ok h
    rw [maskTest_over s _ hover] at hmask
    nomatch hmask

/-- The bytes to XOR are as many as the input's (R216, R217). -/
theorem State.length_inBytes_of_mask {s : State} {Mb : List Byte}
    (h : maskOutcome s.maskBytes s.inLen.toNat s.maskLen.toNat = .ok Mb) : s.inBytes.length = Mb.length := by
  rw [← s.length_maskBytes] at h
  rw [s.length_inBytes, length_of_maskOutcome h]

/-- NOISE with a mask completes, on an OUT that holds as many bytes as the input. -/
theorem exec_noise_of_mask {s : State} {Mb : List Byte} (hin : overCap s.params.inCap s.inLen.toNat = false)
    (hcap : overCap s.params.maskCap s.maskLen.toNat = false) (hroom : overCap s.params.outCap s.inLen.toNat = false)
    (hmask : maskOutcome s.maskBytes s.inLen.toNat s.maskLen.toNat = .ok Mb) :
    ∃ t, exec .noise s = .next t ∧ EndsWithResult (xorBytes s.inBytes Mb) s.inLen.toNat 0 s t ∧
      (xorBytes s.inBytes Mb).length = s.inLen.toNat := by
  have hlen : (xorBytes s.inBytes Mb).length = s.inLen.toNat := by simp [← State.length_inBytes_of_mask hmask]
  have hout := (outcomeOf_noise hin hcap).trans (noiseOutcome_of_mask s.inBytes hmask)
  obtain ⟨hexec, hends⟩ := exec_of_result hout (by rwa [noiseResult, hlen])
  exact ⟨_, hexec, hends, hlen⟩

/-- Settles O53: each shape has its mask, and XOR of bytes is XOR of their bits. -/
theorem noiseXorsTheMask : Obligations.NoiseXorsTheMask := by
  refine fun s hin hcap hroom => ⟨fun hbits helements => ?_, fun hbytes => ?_⟩
  · have hmask : maskOutcome s.maskBytes s.inLen.toNat s.maskLen.toNat = .ok (pack (maskBits s.maskBytes) false) := by
      rw [hbits, maskOutcome_of_elements (firstBadElement_eq_none helements)]
    obtain ⟨t, hexec, hends, hlen⟩ := exec_noise_of_mask hin hcap hroom hmask
    refine ⟨t, _, hexec, hends, hlen, fun j hj => ?_⟩
    rw [← hbits] at hj
    rw [bitAt_xorBytes (State.length_inBytes_of_mask hmask), bitAt_pack _ _ _ (by simpa using hj)]
    simp [maskBits, State.maskBytes, hj, beq_eq_decide]
  · have hmask : maskOutcome s.maskBytes s.inLen.toNat s.maskLen.toNat = .ok s.maskBytes := by
      rw [← hbytes, ← s.length_maskBytes, maskOutcome_of_bytes]
    obtain ⟨t, hexec, hends, hlen⟩ := exec_noise_of_mask hin hcap hroom hmask
    refine ⟨t, _, hexec, hends, hlen, fun i hi => ?_⟩
    rw [xorBytes_getD _ _ _ (State.length_inBytes_of_mask hmask)]
    simp [State.inBytes, State.maskBytes, hbytes, hi]

/-- Settles O54: the bit-granular shape is tested first, element by element. -/
theorem noiseRefusesBadMasks : Obligations.NoiseRefusesBadMasks := by
  refine fun s hin hcap => ⟨fun j hlen hj hbad hbits => exec_of_raise ?_, fun hbits hbytes => exec_of_raise ?_⟩
  · rw [outcomeOf_noise hin hcap, hlen]
    exact noiseOutcome_of_badMask _ (maskOutcome_of_badElement (firstBadElement_eq_some hj hbad hbits) _)
  · rw [outcomeOf_noise hin hcap]
    exact noiseOutcome_of_badMask _ (maskOutcome_of_shape _ hbits (mt BitVec.eq_of_toNat_eq hbytes))

/-- What a NOISE that ended DONE says of its operands and its end: they fit, there is a mask, and OUT holds the XOR. -/
theorem mask_of_noise_done {s t : State} (h : exec .noise s = .next t) (hd : t.status.state = .done) :
    overCap s.params.inCap s.inLen.toNat = false ∧ overCap s.params.maskCap s.maskLen.toNat = false ∧
      overCap s.params.outCap s.inLen.toNat = false ∧
      ∃ Mb, maskOutcome s.maskBytes s.inLen.toNat s.maskLen.toNat = .ok Mb ∧
        t.outBytes = xorBytes s.inBytes Mb ∧ t.outLen = s.inLen := by
  obtain ⟨r, hr, rfl, hroom⟩ := result_of_done h hd
  obtain ⟨hin, hcap⟩ := fits_of_outcomeOf_noise hr
  obtain ⟨hlt, hsrc, hpay⟩ := outcomeOf_bound .noise s r hr
  have hends := s.complete_ends r hlt hsrc hpay
  rw [outcomeOf_noise hin hcap] at hr
  obtain ⟨Mb, hmask, rfl⟩ := noiseOutcome_ok hr
  have hlen : (noiseResult s.inBytes Mb s.inLen.toNat).bytes.length = s.inLen.toNat := by
    simp [noiseResult, ← State.length_inBytes_of_mask hmask]
  exact ⟨hin, hcap, hlen ▸ hroom, Mb, hmask, hends.outBytes, BitVec.eq_of_toNat_eq (hends.outLen.trans hlen)⟩

/-- Settles O55: constant masks are constant bytes, and XOR with the same bytes twice returns the input. -/
theorem noiseIsAnInvolution : Obligations.NoiseIsAnInvolution := by
  intro s t hexec hdone
  obtain ⟨hin, hcap, hroom, Mb, hmask, hout, houtLen⟩ := mask_of_noise_done hexec hdone
  have hones : Mb = List.replicate s.inBytes.length 0xFF → t.outBytes = s.inBytes.map fun b => ~~~ b := by
    rintro rfl
    rw [hout, xorBytes_replicate]
    exact List.map_congr_left fun b _ => BitVec.xor_allOnes
  refine ⟨fun hzero => ?zeros, fun hbytes hff => hones ?onesBytes, fun hbits hone => hones ?onesBits,
    fun u hp hlen hbytes hml hmb => ?twice⟩
  case zeros =>
    rw [← s.length_maskBytes, ← s.length_inBytes] at hmask
    rw [hout, maskOutcome_of_zeros hmask hzero, xorBytes_replicate]
    simp
  case onesBytes =>
    have hK : s.maskBytes.length = s.inBytes.length := by rw [s.length_maskBytes, s.length_inBytes, hbytes]
    rw [← s.length_maskBytes, ← s.length_inBytes, ← hK, maskOutcome_of_bytes] at hmask
    rw [← Except.ok.inj hmask]
    exact List.eq_replicate_iff.mpr ⟨hK, hff⟩
  case onesBits =>
    rw [hbits, maskOutcome_of_ones (s.length_maskBytes.trans hbits) hone, ← s.length_inBytes] at hmask
    exact (Except.ok.inj hmask).symm
  case twice =>
    have hsame : xorBytes u.inBytes Mb = s.inBytes := by
      rw [hbytes, hout, xorBytes_xorBytes (State.length_inBytes_of_mask hmask)]
    rw [houtLen] at hlen
    rw [← hp, ← hlen] at hin hroom
    rw [← hp, ← hml] at hcap
    rw [← hmb, ← hml, ← hlen] at hmask
    obtain ⟨v, hagain, hends, -⟩ := exec_noise_of_mask hin hcap hroom hmask
    rw [hsame, hlen] at hends
    exact ⟨v, hagain, hends⟩

end Sys2Proof.Machine
end

section
/-! What STATUS and ERR say of a command's end, how long FAULT_LATCH stays, and the waits (R232, R240, R241, R245, R251). -/

namespace Sys2Proof.Machine

/-- Settles O18: an end is the error entry or the completion, and the error entry leaves a cause other than 0. -/
theorem endsAreReportedWhole : Obligations.EndsAreReportedWhole := by
  intro i s t hexec
  obtain ⟨e, rfl⟩ | ⟨r, -, rfl⟩ := exec_cases i s t hexec
  · exact ⟨fun _ => ⟨e.cause, e.info, s.errorEntry_ends e.cause e.info, e.cause.err_ne_zero, s.outBytes_errorEntry e⟩,
      nofun⟩
  · exact ⟨nofun, fun _ => ⟨rfl, rfl, rfl⟩⟩

/-- The end of a command sets the latch where it is an error and keeps it where it is none (R240, R241). -/
theorem EndsCommand.faultLatch_iff {s t : State} (h : EndsCommand s t) :
    t.status.faultLatch = true ↔ s.status.faultLatch = true ∨ t.status.state = .error := by
  obtain ⟨e, rfl⟩ | ⟨r, -, -, rfl⟩ := h
  · exact iff_of_true rfl (.inr rfl)
  · simp

/-- R245 as one equivalence: but for a reset, the latch is set after a step exactly when it was set before or the step
is the error end of a running command. -/
theorem step_reset_or_faultLatch_iff {s t : State} (h : step s = .next t) :
    (∃ a rest, s.host = a :: rest ∧ a.isReset ∧ t.status = Status.afterReset) ∨
      (t.status.faultLatch = true ↔
        s.status.faultLatch = true ∨ s.status.state = .busy ∧ t.status.state = .error) := by
  obtain ⟨rest, hkept⟩ | ⟨a, rest, hhost, hreset, rfl⟩ | ⟨hfree, v, rest, -, rfl⟩ | ⟨hbusy, rest, hend⟩ :=
    step_engine_cases h
  · have hstatus : t.status = s.status := hkept.status
    refine .inr ?_
    rw [hstatus]
    exact (or_iff_left fun ⟨hbusy, herror⟩ => nomatch hbusy.symm.trans herror).symm
  · exact .inl ⟨a, rest, hhost, hreset, rfl⟩
  · exact .inr (or_iff_left fun ⟨hbusy, _⟩ => hfree hbusy).symm
  · exact .inr (by simpa [hbusy] using hend.faultLatch_iff)

/-- Settles O24: a reset clears the latch and leaves IDLE, so it is no error end; any other step obeys the equivalence. -/
theorem faultLatchIsSticky : Obligations.FaultLatchIsSticky := by
  intro s t hstep
  obtain ⟨a, rest, hhost, hreset, hstatus⟩ | hlatch := step_reset_or_faultLatch_iff hstep
  · rw [hstatus]
    exact ⟨fun _ => .inr ⟨a, rest, hhost, hreset, rfl⟩, fun _ => iff_of_false nofun nofun⟩
  · exact ⟨fun hset => .inl (hlatch.mpr (.inl hset)), fun hclear => by simpa [hclear] using hlatch⟩

/-- Settles O4: each value is 256 times the class of the cause plus its code (R232). -/
theorem errorCodesAreTheTable : Obligations.ErrorCodesAreTheTable := by
  unfold Obligations.ErrorCodesAreTheTable
  decide

/-- R251: the turn of a block that runs no command and has no host action to come. -/
theorem step_eq_self_of_host_nil {s : State} (hfree : s.status.state ≠ .busy) (hhost : s.host = []) :
    step s = .next s := by
  unfold step State.turn
  cases hphase : s.status.state
  case busy => contradiction
  all_goals simp only [hhost]

/-- R96: the poll of an IDLE block goes on. -/
theorem step_wait_of_idle {s : State} {rest : List HostAction} (hidle : s.status.state = .idle)
    (hhost : s.host = .wait :: rest) : step s = .next s := by
  unfold step State.turn
  simp only [hhost, hidle]

/-- R96: the poll of a block that ended its command is over. -/
theorem step_wait_of_ended {s : State} {rest : List HostAction} (hfree : s.status.state ≠ .busy)
    (hidle : s.status.state ≠ .idle) (hhost : s.host = .wait :: rest) : step s = .next (s.popHost rest) := by
  unfold step State.turn
  cases hphase : s.status.state
  case busy | idle => contradiction
  all_goals simp only [hhost]

/-- Settles O10, by what the host has to do and by STATE. -/
theorem waitingChangesNothing : Obligations.WaitingChangesNothing := fun _ hfree =>
  ⟨step_eq_self_of_host_nil hfree, fun _ hhost =>
    ⟨fun hidle => step_wait_of_idle hidle hhost, fun hidle => step_wait_of_ended hfree hidle hhost⟩⟩

end Sys2Proof.Machine
end

section
/-! Reset in every STATE, the accesses to a block that runs a command, and that every command ends (R17, R34, R42, R260,
R261, R272, R280). -/

namespace Sys2Proof.Machine

/-- Settles O17: exec answers a next state, and it is an end of the command. -/
theorem everyCommandEndsInDoneOrError : Obligations.EveryCommandEndsInDoneOrError := by
  intro i s
  obtain ⟨o, hexec⟩ := exec_eq_settle i s
  exact ⟨_, hexec, (endsCommand_of_exec hexec).state⟩

/-- R34: CTRL stores nothing, so a write of it with bit 0 clear changes nothing. -/
theorem State.writeReg_ctrl_clear (s : State) {v : Nat} (h : v % 2 = 0) : s.writeReg 9 v = s :=
  if_neg (by omega)

/-- R42, R35: after a reset no symbol has a weight. -/
@[simp] theorem State.weight_resetBlock (s : State) (sym : Symbol) : s.resetBlock.weight sym = 0 := by
  simp [State.weight]

theorem State.hostFree_of_isReset (s : State) {a : HostAction} (h : a.isReset) : s.hostFree a = s.resetBlock := by
  obtain rfl | rfl | ⟨v, rfl, hv⟩ := h
  · rfl
  · rfl
  · exact if_pos hv

theorem State.hostBusy_of_isReset (s : State) {a : HostAction} (h : a.isReset) :
    s.hostBusy a = .next s.resetBlock := by
  obtain rfl | rfl | ⟨v, rfl, hv⟩ := h
  · rfl
  · rfl
  · exact if_pos hv

theorem HostAction.isReset.ne_wait {a : HostAction} (h : a.isReset) : a ≠ .wait := by
  rintro rfl
  simp [HostAction.isReset] at h

/-- While a command runs, the step of an action other than the wait is what R272 makes of it. -/
theorem step_eq_hostBusy {s : State} {a : HostAction} {rest : List HostAction} (hbusy : s.status.state = .busy)
    (hhost : s.host = a :: rest) (ha : a ≠ .wait) : step s = (s.popHost rest).hostBusy a :=
  (step_eq_hostAct hhost ha).trans (State.hostAct_of_busy (s := s.popHost rest) a hbusy)

/-- R260, R261: the three resets do the same in every STATE. -/
theorem step_of_isReset {s : State} {a : HostAction} {rest : List HostAction} (hhost : s.host = a :: rest)
    (h : a.isReset) : step s = .next (s.popHost rest).resetBlock := by
  by_cases hbusy : s.status.state = .busy
  · exact (step_eq_hostBusy hbusy hhost h.ne_wait).trans (State.hostBusy_of_isReset _ h)
  · exact (step_eq_hostFree hbusy hhost h.ne_wait).trans (congrArg _ (State.hostFree_of_isReset _ h))

/-- Settles O8: the step of a reset leaves `resetBlock`, whose fields the clauses name, and outside BUSY the step of the
other writes of CTRL is the write. -/
theorem resetPutsEveryRegisterToItsResetValue : Obligations.ResetPutsEveryRegisterToItsResetValue := by
  constructor
  · intro s a rest hhost hreset
    exact ⟨_, step_of_isReset hhost hreset, rfl, rfl, rfl, rfl, rfl, rfl, rfl, rfl, rfl, rfl,
      State.weight_resetBlock _, rfl, fun _ => rfl, fun _ => rfl, fun _ => rfl, rfl, rfl, rfl⟩
  · intro s v rest hhost hv hfree
    exact (step_eq_hostFree hfree hhost nofun).trans (congrArg _ (State.writeReg_ctrl_clear _ hv))

/-- R26, R272: STATUS reads BUSY in bits 1:0 whatever FAULT_LATCH is. -/
theorem Status.toNat_word_of_busy {st : Status} (h : st.state = .busy) : st.word.toNat % 4 = 1 := by
  rw [st.toNat_word, h]
  simp [Phase.code]

/-- R272 with U1's treatment: what is no poll, no CMD write and no reset is refused (log 5). -/
theorem State.hostBusy_refused (s : State) {a : HostAction} (hwait : a ≠ .wait) (hpoll : a ≠ .read .reg 1)
    (hcmd : ∀ v, a ≠ .write .reg 0 v) (hreset : ¬ a.isReset) : s.hostBusy a = .refused .hostAccessWhileBusy := by
  unfold State.hostBusy
  split
  case h_1 => exact absurd rfl hpoll
  case h_2 v => exact absurd rfl (hcmd v)
  case h_3 v => exact if_neg fun hv => hreset (.inr (.inr ⟨v, rfl, hv⟩))
  case h_4 => exact absurd (.inr (.inl rfl)) hreset
  case h_5 => exact absurd (.inl rfl) hreset
  case h_6 => exact absurd rfl hwait
  all_goals rfl

/-- Settles O7: the step is what R272 makes of the action, and what the first three clauses leave is refused. -/
theorem busyAccessRules : Obligations.BusyAccessRules := by
  intro s a rest hbusy hhost
  refine ⟨?poll, ?cmd, ?reset, ?other⟩
  case poll =>
    rintro rfl
    exact ⟨_, Status.toNat_word_of_busy hbusy, step_eq_hostBusy hbusy hhost nofun⟩
  case cmd =>
    rintro v rfl
    exact step_eq_hostBusy hbusy hhost nofun
  case reset =>
    intro h
    have hreset : a.isReset := by
      obtain hctrl | hsoft | hhard := h
      · exact .inr (.inr hctrl)
      · exact .inr (.inl hsoft)
      · exact .inl hhard
    exact ⟨_, step_of_isReset hhost hreset, rfl, rfl, rfl⟩
  case other =>
    intro hwait hpoll hcmd hctrl hsoft hhard
    have hreset : ¬ a.isReset := by
      rintro (hinput | hstatement | ⟨v, hwrite, hv⟩)
      · exact hhard hinput
      · exact hsoft hstatement
      · have hclear : v % 2 = 0 := hctrl v hwrite
        omega
    exact (step_eq_hostBusy hbusy hhost hwait).trans (State.hostBusy_refused _ hwait hpoll hcmd hreset)

end Sys2Proof.Machine
end
